-- ==== Sys2Proof/Word.lean ====
section
/-! DEFINITION. The two bit-vector widths every other file uses (00_scope R7, 10_state R20 and R37). -/

namespace Sys2Proof

/-- A command word, an operand register, a status register, a binary32 pattern (R7, R12). -/
abbrev Word := BitVec 32

/-- One byte of memory (R37). -/
abbrev Byte := BitVec 8

end Sys2Proof
end

