-- ==== Sys2Proof/Config.lean ====
section
/-! DEFINITION. What an implementation fixes (00_scope R6, 93_implementation_defined section 2) and the free values. -/

namespace Sys2Proof

/-- F2I_ROUND (R14): the rounding of float to integer. -/
inductive F2IRound where
  /-- the default: `trunc` -/
  | towardZero
  /-- the open alternative: nearest integer, ties to even -/
  | nearestEven
  deriving DecidableEq, Repr

/-- A way to sum the terms of a dot product: leaves are the start value and the taps, inner nodes are additions. Any order
and any grouping (the partial sums of vector lanes among them) is one of these. -/
inductive SumTree where
  /-- the start value -/
  | start
  /-- the product of tap `i` and its sample; no term at all when the filter has no tap `i` -/
  | tap (i : Nat)
  /-- the sum of two parts -/
  | add (a b : SumTree)
  deriving DecidableEq, Repr

/-- The taps of a tree, left to right. -/
def SumTree.taps : SumTree → List Nat
  | .start => []
  | .tap i => [i]
  | .add a b => a.taps ++ b.taps

/-- The order in which the float dot product takes its terms (R164, N13: "the order of the 64 additions"). -/
inductive TapOrder where
  /-- the default: tap 0, the newest sample, first -/
  | ascending
  /-- the last tap, the oldest sample, first -/
  | descending
  /-- any other order or grouping, written over the 64 taps of a window -/
  | tree (t : SumTree)
  deriving DecidableEq, Repr

/-- The precision of the float dot product (R164, N13: "whether products are fused, whether the accumulator is wider than
binary32"). -/
inductive DotPrecision where
  /-- the default: each product and each sum rounded to binary32 -/
  | unfused
  /-- a product and its sum rounded to binary32 once -/
  | fused
  /-- an accumulator of `bits` significand bits (53 as in binary64), of an exponent range wide enough for every sum of
  products of binary32 values: each product and each sum rounded to it, the result rounded to binary32 once -/
  | wide (bits : Nat)
  deriving DecidableEq, Repr

/-- FDOT (R6, R164): "the order (ascending tap index, newest sample first), the start value and the precision are the
parameter FDOT". -/
inductive FDot where
  /-- a sum of products, by its order, its start value and its precision -/
  | summed (order : TapOrder) (start : Word) (precision : DotPrecision)
  /-- any dot product that is none of those: the uninterpreted function number `k` (log entry 12) -/
  | other (k : Nat)
  deriving DecidableEq, Repr

/-- A tree order takes each of the 64 taps once (what "order" means in R6; nothing in the model relies on it). -/
def FDot.orderOk : FDot → Bool
  | .summed (.tree t) _ _ => t.taps.isPerm (List.range 64)
  | _ => true

/-- The default of FDOT (R164): ascending, +0.0, each product rounded and then each sum rounded. -/
def FDot.default : FDot := .summed .ascending 0 .unfused

/-- The OPEN parameters of R6, "an argument of the model". They are plain data that State carries and that nothing
changes (log entry 4). -/
structure Params where
  /-- MemOK (R57) as a list of (first address, number of bytes) -/
  memMap : List (Nat × Nat)
  /-- CTX_CAP_BYTES (R151) -/
  ctxCapBytes : Nat
  /-- ERR_RANGE (R197) -/
  errRange : Int
  /-- ERR_NOMEM (R197) -/
  errNoMem : Int
  /-- ERR_BUSY (R197) -/
  errBusy : Int
  /-- F2I_ROUND (R14) -/
  f2iRound : F2IRound
  /-- FDOT (R164) -/
  fdot : FDot
  deriving DecidableEq, Repr

/-- The defaults of R6. MemOK has none: DESIGN CHOICE (log entry 5), every 32-bit address is implemented. -/
def Params.default : Params :=
  { memMap := [(0, 2 ^ 32)], ctxCapBytes := 1048576, errRange := -22, errNoMem := -12, errBusy := -16,
    f2iRound := .towardZero, fdot := FDot.default }

/-- "must be negative and pairwise distinct" (93_implementation_defined section 2). -/
def Params.errorsOk (p : Params) : Bool :=
  decide (p.errRange < 0) && decide (p.errNoMem < 0) && decide (p.errBusy < 0) &&
    decide (p.errRange ≠ p.errNoMem) && decide (p.errRange ≠ p.errBusy) && decide (p.errNoMem ≠ p.errBusy)

/-- A FREE VALUE (U1, U4, U7; log entry 7): the word that stands where the spec states none. `tick` is State.freeTick,
which every completed command advances; `elem` tells apart the elements of one command. It has no body: nothing is known
of it, so a statement about it holds for every value. -/
opaque Config.freeWord (tick elem : Nat) : Word

/-- The dot products of FDOT that `FDot.summed` does not name (log entry 12), as functions of the taps and of the samples
they meet. No body: nothing is known of them. -/
opaque Config.otherDot (k : Nat) (taps samples : List Word) : Word

/-- FIR_NORM_SHIFT (R6, R166). -/
def Config.firNormShift : Nat := 16

/-- U12_SCALE (R6, R132): the binary32 pattern of 2^-15 (R12). -/
def Config.u12Scale : Word := 0x38000000

/-- MAXTAPS and WINDOW (R6). -/
def Config.maxTaps : Nat := 64

/-- MAXDEC (R6). -/
def Config.maxDec : Nat := 6

/-- MAXINT (R6). -/
def Config.maxInt : Nat := 2

end Sys2Proof
end

