-- ==== Sys2Proof/Syntax.lean ====
section
/-! DEFINITION. The XDSP command set as syntax: one constructor per row of spec/opcode_table.json (30_encoding R73).
The types hold exactly the values the formats hold (R71, R72), so no ill-formed command can be written down; which
WORDS are ill formed is WellFormed.lean's question. -/

namespace Sys2Proof

/-- The number of an operand register, 0..7 (R20, R74). -/
abbrev Reg := Fin 8

/-! The aliases of R21. -/

abbrev Reg.SA : Reg := 0
abbrev Reg.SB : Reg := 1
abbrev Reg.DA : Reg := 2
abbrev Reg.DB : Reg := 3
abbrev Reg.LEN : Reg := 4
abbrev Reg.SCL : Reg := 5
abbrev Reg.CRY : Reg := 6
abbrev Reg.RES : Reg := 7

/-- The number of a filter context, 0..3 (R28, R71). -/
abbrev CtxId := Fin 4

/-- A command. -/
inductive Instr where
  /-- SETL rd, imm16 (R90) -/
  | setl (rd : Reg) (imm : BitVec 16)
  /-- SETH rd, imm16 (R91) -/
  | seth (rd : Reg) (imm : BitVec 16)
  /-- CVT.I16.F32 (R110) -/
  | cvtI16F32
  /-- CVT.I16.F32P (R111) -/
  | cvtI16F32P
  /-- CVT.I8.F32 (R112) -/
  | cvtI8F32
  /-- CVT.I8.F32P (R113) -/
  | cvtI8F32P
  /-- CVT.F32.I16 (R114) -/
  | cvtF32I16
  /-- CVT.F32P.I16 (R115) -/
  | cvtF32PI16
  /-- CVT.F32.I8 (R116) -/
  | cvtF32I8
  /-- CVT.F32P.I8 (R117) -/
  | cvtF32PI8
  /-- CVT.I16P.I16 (R118) -/
  | cvtI16PI16
  /-- CVT.I16.I16P (R119) -/
  | cvtI16I16P
  /-- U12.F32 (R134) -/
  | u12F32
  /-- FIR.INITF c (R152) -/
  | firInitF (c : CtxId)
  /-- FIR.INITX c (R153) -/
  | firInitX (c : CtxId)
  /-- FIR.WORKF c (R171) -/
  | firWorkF (c : CtxId)
  /-- FIR.WORKX c (R172) -/
  | firWorkX (c : CtxId)
  /-- FIR.FREE c (R173) -/
  | firFree (c : CtxId)
  deriving DecidableEq, Repr

/-- The mnemonic of R73. -/
def Instr.mnemonic : Instr → String
  | .setl _ _ => "SETL"
  | .seth _ _ => "SETH"
  | .cvtI16F32 => "CVT.I16.F32"
  | .cvtI16F32P => "CVT.I16.F32P"
  | .cvtI8F32 => "CVT.I8.F32"
  | .cvtI8F32P => "CVT.I8.F32P"
  | .cvtF32I16 => "CVT.F32.I16"
  | .cvtF32PI16 => "CVT.F32P.I16"
  | .cvtF32I8 => "CVT.F32.I8"
  | .cvtF32PI8 => "CVT.F32P.I8"
  | .cvtI16PI16 => "CVT.I16P.I16"
  | .cvtI16I16P => "CVT.I16.I16P"
  | .u12F32 => "U12.F32"
  | .firInitF _ => "FIR.INITF"
  | .firInitX _ => "FIR.INITX"
  | .firWorkF _ => "FIR.WORKF"
  | .firWorkX _ => "FIR.WORKX"
  | .firFree _ => "FIR.FREE"

end Sys2Proof
end

