-- ==== Sys2Proof/WellFormed.lean ====
section
/-! DEFINITION. Which command words are well formed (30_encoding R73 and R75), written from the match and mask
columns and from the three clauses of R75, without the decoder. -/

namespace Sys2Proof

/-- One row of the opcode map of R73: a word w is the command exactly when (w AND mask) = pattern. -/
structure OpRow where
  mnemonic : String
  pattern : Word
  mask : Word
  deriving DecidableEq, Repr

/-- The opcode map of R73, columns mnemonic, match and mask. -/
def opcodeMap : List OpRow :=
  [ ⟨"SETL", 0x01000000, 0xFF8F0000⟩, ⟨"SETH", 0x02000000, 0xFF8F0000⟩,
    ⟨"CVT.I16.F32", 0x10000000, 0xFFFFFFFF⟩, ⟨"CVT.I16.F32P", 0x11000000, 0xFFFFFFFF⟩,
    ⟨"CVT.I8.F32", 0x12000000, 0xFFFFFFFF⟩, ⟨"CVT.I8.F32P", 0x13000000, 0xFFFFFFFF⟩,
    ⟨"CVT.F32.I16", 0x14000000, 0xFFFFFFFF⟩, ⟨"CVT.F32P.I16", 0x15000000, 0xFFFFFFFF⟩,
    ⟨"CVT.F32.I8", 0x16000000, 0xFFFFFFFF⟩, ⟨"CVT.F32P.I8", 0x17000000, 0xFFFFFFFF⟩,
    ⟨"CVT.I16P.I16", 0x18000000, 0xFFFFFFFF⟩, ⟨"CVT.I16.I16P", 0x19000000, 0xFFFFFFFF⟩,
    ⟨"U12.F32", 0x20000000, 0xFFFFFFFF⟩,
    ⟨"FIR.INITF", 0x30000000, 0xFFFCFFFF⟩, ⟨"FIR.INITX", 0x31000000, 0xFFFCFFFF⟩,
    ⟨"FIR.WORKF", 0x32000000, 0xFFFCFFFF⟩, ⟨"FIR.WORKX", 0x33000000, 0xFFFCFFFF⟩,
    ⟨"FIR.FREE", 0x34000000, 0xFFFCFFFF⟩ ]

/-- The word is the command of this row (R73). -/
def OpRow.matchesWord (r : OpRow) (w : Word) : Bool := w &&& r.mask == r.pattern

/-- The opcode byte, bits 31..24 (R70). -/
def opcodeByte (w : Word) : Word := w >>> 24

/-- The opcodes of format S (R72). -/
def formatSOpcodes : List Word := [0x01, 0x02]

/-- The opcodes of format O without a context: the CVT commands and U12.F32 (R71). -/
def noCtxOpcodes : List Word := [0x10, 0x11, 0x12, 0x13, 0x14, 0x15, 0x16, 0x17, 0x18, 0x19, 0x20]

/-- The opcodes of the FIR commands (R71). -/
def ctxOpcodes : List Word := [0x30, 0x31, 0x32, 0x33, 0x34]

/-- Clause (a) of R75: the opcode is in the table. -/
def opcodeAssigned (w : Word) : Bool :=
  (formatSOpcodes ++ noCtxOpcodes ++ ctxOpcodes).contains (opcodeByte w)

/-- Clause (b) of R75: every bit the format marks "must be 0" is 0 (bits 23 and 19..16 of format S, bits 23..18 and
15..0 of format O). -/
def reservedBitsZero (w : Word) : Bool :=
  if formatSOpcodes.contains (opcodeByte w) then w &&& 0x008F0000 == 0 else w &&& 0x00FCFFFF == 0

/-- Clause (c) of R75: a CVT command or U12.F32 has ctx = 0. -/
def ctxFieldAllowed (w : Word) : Bool :=
  if noCtxOpcodes.contains (opcodeByte w) then w &&& 0x00030000 == 0 else true

/-- A legal command word (R75): none of the three clauses makes it illegal. -/
def legalWord (w : Word) : Bool := opcodeAssigned w && reservedBitsZero w && ctxFieldAllowed w

end Sys2Proof
end

