-- ==== Sys2Proof/Decode.lean ====
section
/-! DEFINITION. The total decoder of command words and its encoder (30_encoding R70 to R76). -/

namespace Sys2Proof

/-- `w[lo+len-1 : lo]`, the unsigned integer formed by those bits (R7). -/
def wordBits (w : Word) (lo len : Nat) : Nat := w.toNat / 2 ^ lo % 2 ^ len

/-- Why a word is illegal: the three clauses of R75. -/
inductive DecodeError where
  /-- clause (a): the opcode is not in the table of R73 -/
  | unassignedOpcode
  /-- clause (b): a bit the format marks "must be 0" is 1 -/
  | reservedBitSet
  /-- clause (c): ctx is not 0 on a CVT command or U12.F32 -/
  | ctxNotZero
  deriving DecidableEq, Repr

/-- Format S (R72): rd in bits 22..20, imm16 in bits 15..0; bit 23 and bits 19..16 must be 0. -/
def decodeS (mk : Reg → BitVec 16 → Instr) (w : Word) : Except DecodeError Instr :=
  if wordBits w 23 1 ≠ 0 ∨ wordBits w 16 4 ≠ 0 then .error .reservedBitSet
  else .ok (mk (Fin.ofNat 8 (wordBits w 20 3)) (BitVec.ofNat 16 (wordBits w 0 16)))

/-- Format O with a context (R71): ctx in bits 17..16; bits 23..18 and 15..0 must be 0. -/
def decodeCtx (mk : CtxId → Instr) (w : Word) : Except DecodeError Instr :=
  if wordBits w 18 6 ≠ 0 ∨ wordBits w 0 16 ≠ 0 then .error .reservedBitSet
  else .ok (mk (Fin.ofNat 4 (wordBits w 16 2)))

/-- Format O without a context (R71): as above, and ctx must be 0. -/
def decodeNoCtx (i : Instr) (w : Word) : Except DecodeError Instr :=
  if wordBits w 18 6 ≠ 0 ∨ wordBits w 0 16 ≠ 0 then .error .reservedBitSet
  else if wordBits w 16 2 ≠ 0 then .error .ctxNotZero
  else .ok i

/-- The decoder: every word is exactly one command of R73 or illegal (R75). -/
def decode (w : Word) : Except DecodeError Instr :=
  match wordBits w 24 8 with
  | 0x01 => decodeS .setl w
  | 0x02 => decodeS .seth w
  | 0x10 => decodeNoCtx .cvtI16F32 w
  | 0x11 => decodeNoCtx .cvtI16F32P w
  | 0x12 => decodeNoCtx .cvtI8F32 w
  | 0x13 => decodeNoCtx .cvtI8F32P w
  | 0x14 => decodeNoCtx .cvtF32I16 w
  | 0x15 => decodeNoCtx .cvtF32PI16 w
  | 0x16 => decodeNoCtx .cvtF32I8 w
  | 0x17 => decodeNoCtx .cvtF32PI8 w
  | 0x18 => decodeNoCtx .cvtI16PI16 w
  | 0x19 => decodeNoCtx .cvtI16I16P w
  | 0x20 => decodeNoCtx .u12F32 w
  | 0x30 => decodeCtx .firInitF w
  | 0x31 => decodeCtx .firInitX w
  | 0x32 => decodeCtx .firWorkF w
  | 0x33 => decodeCtx .firWorkX w
  | 0x34 => decodeCtx .firFree w
  | _ => .error .unassignedOpcode

/-- The word of format S (R72). -/
def encodeS (opcode : Nat) (rd : Reg) (imm : BitVec 16) : Word :=
  BitVec.ofNat 32 (opcode * 2 ^ 24 + rd.val * 2 ^ 20 + imm.toNat)

/-- The word of format O (R71); ctx is 0 where the command names no context. -/
def encodeO (opcode : Nat) (ctx : CtxId) : Word :=
  BitVec.ofNat 32 (opcode * 2 ^ 24 + ctx.val * 2 ^ 16)

/-- The word of a command (R71, R72, R73). -/
def encode : Instr → Word
  | .setl rd imm => encodeS 0x01 rd imm
  | .seth rd imm => encodeS 0x02 rd imm
  | .cvtI16F32 => encodeO 0x10 0
  | .cvtI16F32P => encodeO 0x11 0
  | .cvtI8F32 => encodeO 0x12 0
  | .cvtI8F32P => encodeO 0x13 0
  | .cvtF32I16 => encodeO 0x14 0
  | .cvtF32PI16 => encodeO 0x15 0
  | .cvtF32I8 => encodeO 0x16 0
  | .cvtF32PI8 => encodeO 0x17 0
  | .cvtI16PI16 => encodeO 0x18 0
  | .cvtI16I16P => encodeO 0x19 0
  | .u12F32 => encodeO 0x20 0
  | .firInitF c => encodeO 0x30 c
  | .firInitX c => encodeO 0x31 c
  | .firWorkF c => encodeO 0x32 c
  | .firWorkX c => encodeO 0x33 c
  | .firFree c => encodeO 0x34 c

/-- The two commands the pseudo-instruction LI rd, imm32 expands to, in order (R78). -/
def expandLI (rd : Reg) (imm : Word) : List Instr :=
  [.setl rd (imm.setWidth 16), .seth rd ((imm >>> 16).setWidth 16)]

/-- The instruction the decoder reads from the low `nbits` bits of `w`, every higher bit 0 (the host's question). -/
def decodeTableWord (nbits w : Nat) : Option Instr :=
  match decode (BitVec.ofNat 32 (w % 2 ^ nbits)) with
  | .ok i => some i
  | .error _ => none

end Sys2Proof
end

