-- ==== Sys2Proof/Machine/Float.lean ====
section
/-! DEFINITION. Binary32 arithmetic: `i2f`, `fmul`, `fadd` and `f2i` of 00_scope R12 to R14. A finite value is held
exactly, as a whole number of units of 2^-149 (the smallest subnormal), and is rounded once at the end. -/

namespace Sys2Proof.Machine

/-- The sign bit s, bit 31 (R12). -/
def f32Neg (b : Word) : Bool := wordBits b 31 1 == 1

/-- The biased exponent e, bits 30..23 (R12). -/
def f32Expo (b : Word) : Nat := wordBits b 23 8

/-- The fraction f, bits 22..0 (R12). -/
def f32Frac (b : Word) : Nat := wordBits b 0 23

/-- A NaN: e = 255 and f ≠ 0 (R12). -/
def f32IsNaN (b : Word) : Bool := f32Expo b == 255 && f32Frac b != 0

/-- An infinity: e = 255 and f = 0 (R12). -/
def f32IsInf (b : Word) : Bool := f32Expo b == 255 && f32Frac b == 0

/-- A finite value: e < 255 (R12). -/
def f32IsFinite (b : Word) : Bool := f32Expo b != 255

/-- The magnitude of a finite pattern in units of 2^-149: 2^(e-127) * (1 + f/2^23), or 2^(-126) * (f/2^23) for e = 0
(R12). -/
def f32Mag (b : Word) : Nat :=
  if f32Expo b = 0 then f32Frac b else (2 ^ 23 + f32Frac b) * 2 ^ (f32Expo b - 1)

/-- The value of a finite pattern in units of 2^-149, without the sign of a zero (R12). -/
def f32Units (b : Word) : Int := if f32Neg b then -(f32Mag b : Int) else f32Mag b

/-- A sign put on a magnitude pattern, bits 30..0. -/
def f32Pack (neg : Bool) (mag : Nat) : Word := BitVec.ofNat 32 (if neg then 2 ^ 31 + mag else mag)

/-- The magnitude pattern of infinity (R12). -/
def f32InfMag : Nat := 0x7F800000

/-- The infinity of a sign. -/
def f32Inf (neg : Bool) : Word := f32Pack neg f32InfMag

/-- `m / 2^k` rounded to the nearest integer, ties to even (R13). -/
def roundEven (m k : Nat) : Nat :=
  let q := m / 2 ^ k
  let r := m % 2 ^ k
  if 2 * r < 2 ^ k then q else if 2 ^ k < 2 * r then q + 1 else q + q % 2

/-- How many low bits of `m` are rounded away so that at most 24 remain and no unit below 2^-149 does. -/
def roundShift (m s : Nat) : Nat := max s (Nat.log2 m - 23)

/-- The magnitude pattern nearest to `m * 2^-s` units of 2^-149, ties to even, overflow to infinity (R13). A carry out
of the significand runs into the exponent field, which is the right pattern. -/
def roundMag (m s : Nat) : Nat :=
  min f32InfMag ((roundShift m s - s) * 2 ^ 23 + roundEven m (roundShift m s))

/-- The pattern of the exact sum `z` (in units of 2^-149 times 2^-s) of two terms with the signs given: an exact zero is
+0.0 unless both terms are negative (R13, R165). -/
def f32OfSum (neg₁ neg₂ : Bool) (z : Int) (s : Nat) : Word :=
  if z = 0 then f32Pack (neg₁ && neg₂) 0 else f32Pack (decide (z < 0)) (roundMag z.natAbs s)

/-- Zero of either sign. -/
def f32IsZero (b : Word) : Bool := f32IsFinite b && f32Mag b == 0

/-- Infinity times zero, in either order. -/
def f32InfTimesZero (a b : Word) : Bool := (f32IsInf a && f32IsZero b) || (f32IsZero a && f32IsInf b)

/-- The sign of a product. -/
def f32ProductNeg (a b : Word) : Bool := xor (f32Neg a) (f32Neg b)

/-- `fmul(a, b)` (R13); `nan` is the pattern a NaN result takes (U4). -/
def fmul (nan a b : Word) : Word :=
  if f32IsNaN a || f32IsNaN b || f32InfTimesZero a b then nan
  else if f32IsInf a || f32IsInf b then f32Inf (f32ProductNeg a b)
  else f32Pack (f32ProductNeg a b) (roundMag (f32Mag a * f32Mag b) 149)

/-- `fadd(a, b)` (R13); `nan` is the pattern a NaN result takes (U4). -/
def fadd (nan a b : Word) : Word :=
  if f32IsNaN a || f32IsNaN b || (f32IsInf a && f32IsInf b && f32Neg a != f32Neg b) then nan
  else if f32IsInf a then a
  else if f32IsInf b then b
  else f32OfSum (f32Neg a) (f32Neg b) (f32Units a + f32Units b) 0

/-- `a * b + c` rounded once: the fused precision of the parameter FDOT (R164). -/
def ffma (nan a b c : Word) : Word :=
  if f32IsNaN a || f32IsNaN b || f32IsNaN c || f32InfTimesZero a b then nan
  else if f32IsInf a || f32IsInf b then
    if f32IsInf c && f32Neg c != f32ProductNeg a b then nan else f32Inf (f32ProductNeg a b)
  else if f32IsInf c then c
  else f32OfSum (f32ProductNeg a b) (f32Neg c) (f32Units a * f32Units b + f32Units c * 2 ^ 149) 149

/-- `i2f(z)` (R13): the binary32 value of an integer, exact for |z| < 2^24. -/
def i2f (z : Int) : Word := f32Pack (decide (z < 0)) (roundMag (z.natAbs * 2 ^ 149) 0)

/-- A finite value rounded to an integer as F2I_ROUND says (R14). -/
def f32ToInt (mode : F2IRound) (t : Word) : Int :=
  let q : Nat := match mode with
    | .towardZero => f32Mag t / 2 ^ 149
    | .nearestEven => roundEven (f32Mag t) 149
  if f32Neg t then -(q : Int) else q

/-- The values for which R14 defines `f2i`. -/
def f2iDefined (mode : F2IRound) (t : Word) : Bool :=
  f32IsFinite t && decide (-2 ^ 31 ≤ f32ToInt mode t) && decide (f32ToInt mode t ≤ 2 ^ 31 - 1)

/-- `wrap_32(f2i(t))` (R14); `free` stands where f2i is not specified (U1). -/
def f2i (free : Word) (mode : F2IRound) (t : Word) : Word :=
  if f2iDefined mode t then BitVec.ofInt 32 (f32ToInt mode t) else free

/-- A free word made a NaN pattern (exponent 255, fraction not 0); every NaN pattern is reached (U4, log entry 9). -/
def nanOfFree (w : Word) : Word := if f32IsNaN w then w else w ||| 0x7FC00000

/-- The free NaN of element `elem` of the command that runs at `tick` (U4). -/
def freeNaN (tick elem : Nat) : Word := nanOfFree (Config.freeWord tick elem)

end Sys2Proof.Machine
end

