-- ==== Sys2Proof/Machine/State.lean ====
section
/-! DEFINITION. The machine's state as plain data, the reasons a step stops, and the state after reset
(10_state, 70_reset_and_hazards R220). -/

namespace Sys2Proof.Machine

/-- Why a step stops with a fault of the MODEL. (The faults of the spec, R190, are no stops: they are next states with
STATUS.HALT set, R202.) -/
inductive Fault where
  /-- Raised by every command that accesses memory, when a byte it would access has MemOK false (R57, U5: "stuck").
  Safe: the spec gives no next state. -/
  | unimplementedMemory (addr : Nat)
  deriving DecidableEq, Repr

/-- Why the model refuses a command as a whole. -/
inductive Refusal where
  /-- Used by exec's arms for an instruction that has no meaning yet. Safe: nothing is said of the instruction. -/
  | notModelled (mnemonic : String)
  /-- Raised by every command that accesses memory, when an element address is not a multiple of the element's width
  (R53, U2: "refuse"). Safe: the spec gives no effect. -/
  | misaligned
  /-- Raised by every command that writes memory, when a destination range shares a byte with a source range or another
  destination range (R56, U3: "refuse"). Safe: the spec gives no effect. -/
  | overlap
  /-- Raised by every command that accesses memory, when a byte range passes 2^32 (R58, U5: "refuse"). Safe: the spec
  gives no effect. -/
  | addressOverflow
  deriving DecidableEq, Repr

/-- The fault causes of R190, each a violation of what the host owes the block; there is none for a capability mismatch,
a class that does not exist (R199). -/
inductive Cause where
  | illegal
  | shortBlock
  | badPhase
  | badCtx
  | domain
  | blockLen
  deriving DecidableEq, Repr

/-- The numeric domain of a filter (R28): 32-bit float or 16-bit fixed point. -/
inductive Domain where
  | F
  | X
  deriving DecidableEq, Repr

/-- One filter context: the fields of FCFG[c] and FMAX[c] (R28), the tap store (R33) and the history store (R34).
A cell is 32 bits wide; in domain X the sample is its low half and the upper half is 0 (log entry 13). -/
structure Context where
  valid : Bool
  dom : Domain
  dec : BitVec 3
  int : BitVec 2
  ntaps : BitVec 7
  maxblk : Word
  tap : Vector Word 64
  hist : Vector Word 128
  deriving DecidableEq, Repr

/-- Memory (R37): the listed bytes, addresses strictly rising, no listed byte equal to what an unlisted address reads
as (log entry 6). -/
abbrev Memory := List Host.Cell

/-- The state of the block, its memory, and the words its host has presented. -/
structure State where
  /-- the operand registers x[0..7] (R20) -/
  x : Vector Word 8
  /-- STATUS.HALT (R25) -/
  halt : Bool
  /-- STATUS.FCAUSE (R25) -/
  fcause : BitVec 4
  /-- FCMD (R26) -/
  fcmd : Word
  /-- the filter contexts (R28) -/
  ctx : Vector Context 4
  /-- the address space shared by host and block (R37) -/
  mem : Memory
  /-- the command words the host presents, in order (R24) -/
  program : List Word
  /-- the index into that list, the model's bookkeeping (R24) -/
  cmdIndex : Nat
  /-- the OPEN parameters (R6; log entry 4) -/
  params : Params
  /-- the model's own counter, from which fresh free values are taken (log entry 7) -/
  freeTick : Nat
  deriving DecidableEq, Repr

/-- A context after reset: no filter (R220). The stores hold 0, in every context alike: DESIGN CHOICE (log entry
10), the spec says "unspecified; unobservable". -/
def Context.reset : Context :=
  { valid := false, dom := .F, dec := 0, int := 0, ntaps := 0, maxblk := 0,
    tap := Vector.replicate 64 0, hist := Vector.replicate 128 0 }

/-- The machine right after reset (R220), with nothing presented (R222) and nothing listed in memory. -/
def State.reset : State :=
  { x := Vector.replicate 8 0, halt := false, fcause := 0, fcmd := 0,
    ctx := Vector.replicate 4 Context.reset, mem := [], program := [], cmdIndex := 0,
    params := Params.default, freeTick := 0 }

end Sys2Proof.Machine
end

