-- ==== Sys2Proof/Machine/Ops.lean ====
section
/-! DEFINITION. The named operations over registers, contexts and memory, the access rules of 20_memory, fault entry
(60_exceptions R202), and how the next command word is found (10_state R24, 60_exceptions R204). -/

namespace Sys2Proof.Machine

/-! ## Registers and contexts -/

/-- `x[r]` (R10, R20). -/
def State.reg (s : State) (r : Reg) : Word := s.x[r]

/-- `x[r] <- v` (R10). No register is hardwired (R20). -/
def State.setReg (s : State) (r : Reg) (v : Word) : State := { s with x := s.x.set r v }

/-- Filter context c (R28). -/
def State.context (s : State) (c : CtxId) : Context := s.ctx[c]

/-- Filter context c replaced, every other context kept (R32). -/
def State.setContext (s : State) (c : CtxId) (f : Context) : State := { s with ctx := s.ctx.set c f }

/-- The memory replaced. -/
def State.setMem (s : State) (m : Memory) : State := { s with mem := m }

/-- A command completes: the command index advances by 1 (R24), and the model's counter of free values moves on
(log entry 7). -/
def State.finish (s : State) : State :=
  { s with cmdIndex := s.cmdIndex + 1, freeTick := s.freeTick + 1 }

/-! ## Taking a fault -/

/-- The code of a fault cause (R190). -/
def Cause.code : Cause → BitVec 4
  | .illegal => 1
  | .shortBlock => 2
  | .badPhase => 3
  | .badCtx => 4
  | .domain => 5
  | .blockLen => 6

/-- `raise Fault(F)` with the command word `w` (R202): HALT, FCAUSE and FCMD are written and nothing else changes
(R203); the command index does not advance (R24). There is no return from it but reset (R205). -/
def State.raiseFault (s : State) (f : Cause) (w : Word) : State :=
  { s with halt := true, fcause := f.code, fcmd := w }

/-! ## Bytes of memory -/

/-- What an address that memory does not list reads as. DESIGN CHOICE (log entry 6): the spec gives memory no initial
contents. -/
def Memory.unlisted : Byte := 0

/-- One byte of memory. -/
def Memory.read : Memory → Nat → Byte
  | [], _ => Memory.unlisted
  | (k, v) :: t, a => if k = a then v else Memory.read t a

/-- A list beginning with the byte `b` at `a`, unless that is what an unlisted address reads as. -/
def Memory.putFront (a : Nat) (b : Byte) (t : Memory) : Memory :=
  if b = Memory.unlisted then t else (a, b) :: t

/-- One byte of memory written; the canonical form is kept. -/
def Memory.write : Memory → Nat → Byte → Memory
  | [], a, b => Memory.putFront a b []
  | (k, v) :: t, a, b =>
    if k < a then (k, v) :: Memory.write t a b
    else if k = a then Memory.putFront a b t
    else Memory.putFront a b ((k, v) :: t)

/-- Every address of the list is at least `lo` and they rise strictly, and no byte listed is what an unlisted address
reads as. -/
def Memory.wfFrom : Nat → Memory → Bool
  | _, [] => true
  | lo, (k, v) :: t => decide (lo ≤ k) && decide (v ≠ Memory.unlisted) && Memory.wfFrom (k + 1) t

/-- The canonical form holds. -/
def Memory.wf (m : Memory) : Bool := Memory.wfFrom 0 m

/-- `MemRead(addr, n)` (R51): little-endian (R50). -/
def Memory.readN (m : Memory) (a : Nat) : Nat → Nat
  | 0 => 0
  | n + 1 => (Memory.read m a).toNat + 256 * Memory.readN m (a + 1) n

/-- `MemWrite(addr, n, v)` (R51): little-endian (R50). -/
def Memory.writeN (m : Memory) (a : Nat) : Nat → Nat → Memory
  | 0, _ => m
  | n + 1, v => Memory.writeN (Memory.write m a (BitVec.ofNat 8 v)) (a + 1) n (v / 256)

/-- One element of width `w` (1, 2 or 4) read into a word, upper bits 0. -/
def Memory.readElem (m : Memory) (w a : Nat) : Word := BitVec.ofNat 32 (Memory.readN m a w)

/-- Elements of width `w` written in the order of the list, each with its address. -/
def Memory.writeElems (m : Memory) (w : Nat) (es : List (Nat × Word)) : Memory :=
  es.foldl (fun acc e => Memory.writeN acc e.1 w e.2.toNat) m

/-! ## The access rules -/

/-- A byte range a command reads or writes: `[base, base + len)`, made of elements of `width` bytes. -/
structure ByteRange where
  base : Nat
  len : Nat
  width : Nat
  deriving DecidableEq, Repr

/-- The range passes 2^32 (R58). -/
def ByteRange.pastEnd (r : ByteRange) : Bool := decide (2 ^ 32 < r.base + r.len)

/-- An element of the range is misaligned (R52): the base is, and at least one element is accessed. -/
def ByteRange.misaligned (r : ByteRange) : Bool := decide (0 < r.len) && decide (r.base % r.width ≠ 0)

/-- The two ranges share a byte (R56); an empty range shares none. -/
def ByteRange.meets (r q : ByteRange) : Bool :=
  decide (0 < r.len) && decide (0 < q.len) && decide (r.base < q.base + q.len) && decide (q.base < r.base + r.len)

/-- A destination shares a byte with a source or with another destination (R56). Two sources may overlap. -/
def anyOverlap (srcs : List ByteRange) : List ByteRange → Bool
  | [] => false
  | d :: ds => srcs.any d.meets || ds.any d.meets || anyOverlap srcs ds

/-- MemOK(a) (R57). -/
def memOK (p : Params) (a : Nat) : Bool := p.memMap.any fun r => decide (r.1 ≤ a) && decide (a < r.1 + r.2)

/-- The first byte of the range that is not implemented (R57). -/
def firstHole (p : Params) (r : ByteRange) : Option Nat :=
  ((List.range r.len).map (r.base + ·)).find? fun a => !memOK p a

/-- A command that reads the ranges `srcs` and writes the ranges `dsts` answers `t`, unless one of the preconditions
R58, R53, R56, R57 fails; they are examined after every check of the command's own (R201). -/
def guardAccess (s : State) (srcs dsts : List ByteRange) (t : State) : Host.Outcome State Fault Refusal :=
  if (srcs ++ dsts).any ByteRange.pastEnd then .refused .addressOverflow
  else if (srcs ++ dsts).any ByteRange.misaligned then .refused .misaligned
  else if anyOverlap srcs dsts then .refused .overlap
  else match (srcs ++ dsts).findSome? (firstHole s.params) with
    | some a => .fault (.unimplementedMemory a)
    | none => .next t

/-! ## The command stream -/

/-- The word the block takes next: none while halted (R204) and none when the host has presented no further word
(R24, R222). -/
def State.fetch (s : State) : Option Word := if s.halt then none else s.program[s.cmdIndex]?

/-- A list with `w` at place `n`; a shorter list is filled up with words of zeros. -/
def placeAt : List Word → Nat → Word → List Word
  | [], 0, w => [w]
  | [], n + 1, w => 0 :: placeAt [] n w
  | _ :: t, 0, w => w :: t
  | h :: t, n + 1, w => h :: placeAt t n w

/-- The host's list with `w` as the word the block takes next. -/
def State.placeWord (s : State) (w : Word) : State := { s with program := placeAt s.program s.cmdIndex w }

end Sys2Proof.Machine
end

