-- ==== Sys2Proof/Machine/Operands.lean ====
section
/-! DEFINITION. The operand forms: where the elements of an array lie (41_conversion R101, R102, R107), and the two
conversions of one element (R103 to R105). -/

namespace Sys2Proof.Machine

/-- A representation's arrangement in memory (R102). -/
inductive Layout where
  /-- one array I0, Q0, I1, Q1, .. -/
  | interleaved
  /-- an I array and a Q array -/
  | planar
  deriving DecidableEq, Repr

/-- The address of element `e` of width `w`, with bases `a` (interleaved, or I) and `b` (Q) (R102). -/
def elemAddr (l : Layout) (a b w e : Nat) : Nat :=
  match l with
  | .interleaved => a + w * e
  | .planar => if e % 2 = 0 then a + w * (e / 2) else b + w * (e / 2)

/-- The byte ranges of `n` elements of width `w` (R107). -/
def elemRanges (l : Layout) (a b w n : Nat) : List ByteRange :=
  match l with
  | .interleaved => [⟨a, w * n, w⟩]
  | .planar => [⟨a, w * ((n + 1) / 2), w⟩, ⟨b, w * (n / 2), w⟩]

/-- `sext_N` of the low `n` bits of a word (R8). -/
def sextLow (n : Nat) (raw : Word) : Int := (raw.setWidth n).toInt

/-- Fixed to float (R103): sign extend the `n`-bit element, cast, multiply by SCL. -/
def fixedToFloat (nan : Word) (n : Nat) (scl raw : Word) : Word := fmul nan (i2f (sextLow n raw)) scl

/-- Float to fixed (R104): multiply by SCL, cast; the caller stores the low bits. `free` stands for an unspecified f2i
(U1); a NaN product is one, whichever NaN it is (U4). -/
def floatToFixed (free : Word) (mode : F2IRound) (scl raw : Word) : Word :=
  f2i free mode (fmul (nanOfFree free) raw scl)

/-- The conversion of element `e` from fixed point of `n` bits to float, in state `s` (R103). -/
def convToFloat (n : Nat) (s : State) (e : Nat) (raw : Word) : Word :=
  fixedToFloat (freeNaN s.freeTick e) n (s.reg Reg.SCL) raw

/-- The conversion of element `e` from float to fixed point, in state `s` (R104). -/
def convToFixed (s : State) (e : Nat) (raw : Word) : Word :=
  floatToFixed (Config.freeWord s.freeTick e) s.params.f2iRound (s.reg Reg.SCL) raw

/-- The reshuffle: the element unchanged, bit for bit; SCL is not read (R105). -/
def convSame (_ : State) (_ : Nat) (raw : Word) : Word := raw

end Sys2Proof.Machine
end

