-- ==== Sys2Proof/Machine/Convert.lean ====
section
/-! DEFINITION. The ten CVT commands (41_conversion R110 to R119), each one instance of the general form R107. -/

namespace Sys2Proof.Machine

/-- `n = zext_32(LEN) div w_s` (R101). -/
def cvtCount (ws : Nat) (s : State) : Nat := (s.reg Reg.LEN).toNat / ws

/-- The address of source element `e` (R102): bases SA and SB. -/
def cvtSrcAddr (l : Layout) (ws : Nat) (s : State) (e : Nat) : Nat :=
  elemAddr l (s.reg Reg.SA).toNat (s.reg Reg.SB).toNat ws e

/-- The address of destination element `e` (R102): bases DA and DB. -/
def cvtDstAddr (l : Layout) (wd : Nat) (s : State) (e : Nat) : Nat :=
  elemAddr l (s.reg Reg.DA).toNat (s.reg Reg.DB).toNat wd e

/-- The elements a CVT command writes, each with its address, in order (R107). -/
def cvtElems (ws wd : Nat) (ls ld : Layout) (conv : State → Nat → Word → Word) (s : State) : List (Nat × Word) :=
  (List.range (cvtCount ws s)).map fun e =>
    (cvtDstAddr ld wd s e, conv s e (s.mem.readElem ws (cvtSrcAddr ls ws s e)))

/-- The general form of every CVT command (R107), with its ranges checked (R108). -/
def convert (ws wd : Nat) (ls ld : Layout) (conv : State → Nat → Word → Word) (s : State) :
    Host.Outcome State Fault Refusal :=
  guardAccess s
    (elemRanges ls (s.reg Reg.SA).toNat (s.reg Reg.SB).toNat ws (cvtCount ws s))
    (elemRanges ld (s.reg Reg.DA).toNat (s.reg Reg.DB).toNat wd (cvtCount ws s))
    (s.setMem (s.mem.writeElems wd (cvtElems ws wd ls ld conv s))).finish

/-- CVT.I16.F32 (R110). -/
def execCvtI16F32 (s : State) : Host.Outcome State Fault Refusal :=
  convert 2 4 .interleaved .interleaved (convToFloat 16) s

/-- CVT.I16.F32P (R111). -/
def execCvtI16F32P (s : State) : Host.Outcome State Fault Refusal :=
  convert 2 4 .interleaved .planar (convToFloat 16) s

/-- CVT.I8.F32 (R112). -/
def execCvtI8F32 (s : State) : Host.Outcome State Fault Refusal :=
  convert 1 4 .interleaved .interleaved (convToFloat 8) s

/-- CVT.I8.F32P (R113). -/
def execCvtI8F32P (s : State) : Host.Outcome State Fault Refusal :=
  convert 1 4 .interleaved .planar (convToFloat 8) s

/-- CVT.F32.I16 (R114). -/
def execCvtF32I16 (s : State) : Host.Outcome State Fault Refusal :=
  convert 4 2 .interleaved .interleaved convToFixed s

/-- CVT.F32P.I16 (R115). -/
def execCvtF32PI16 (s : State) : Host.Outcome State Fault Refusal :=
  convert 4 2 .planar .interleaved convToFixed s

/-- CVT.F32.I8 (R116). -/
def execCvtF32I8 (s : State) : Host.Outcome State Fault Refusal :=
  convert 4 1 .interleaved .interleaved convToFixed s

/-- CVT.F32P.I8 (R117). -/
def execCvtF32PI8 (s : State) : Host.Outcome State Fault Refusal :=
  convert 4 1 .planar .interleaved convToFixed s

/-- CVT.I16P.I16 (R118). -/
def execCvtI16PI16 (s : State) : Host.Outcome State Fault Refusal :=
  convert 2 2 .planar .interleaved convSame s

/-- CVT.I16.I16P (R119). -/
def execCvtI16I16P (s : State) : Host.Outcome State Fault Refusal :=
  convert 2 2 .interleaved .planar convSame s

end Sys2Proof.Machine
end

