-- ==== Sys2Proof/Machine/Dot.lean ====
section
/-! DEFINITION. The two dot products of the filter engine: domain F with every value of the parameter FDOT (43_fir R164,
R165; 00_scope R6), and domain X (R166). -/

namespace Sys2Proof.Machine

/-! ## Accumulators -/

/-- What a dot product needs of its accumulator: the start value, a product, the sum of two parts, and a product added to
a part. -/
structure DotOps (α : Type) where
  start : α
  product : Word → Word → α
  sum : α → α → α
  accumulate : α → Word → Word → α

/-- Binary32, unfused (R164): each product is rounded, then each sum; `nan` is the pattern a NaN takes (U4). -/
def opsUnfused (nan start : Word) : DotOps Word :=
  { start := start, product := fmul nan, sum := fadd nan, accumulate := fun acc h x => fadd nan acc (fmul nan h x) }

/-- Binary32, fused: a product and its sum are rounded once. -/
def opsFused (nan start : Word) : DotOps Word :=
  { start := start, product := fmul nan, sum := fadd nan, accumulate := fun acc h x => ffma nan h x acc }

/-- A value of a wide accumulator: a finite one is a sign and a magnitude in units of 2^-298, of which every product of
binary32 values is a whole number. -/
inductive Wide where
  | nan
  | inf (neg : Bool)
  | fin (neg : Bool) (mag : Nat)
  deriving DecidableEq, Repr

/-- `m` rounded to the nearest number of `bits` significant bits, ties to even. -/
def roundBits (bits m : Nat) : Nat :=
  roundEven m (Nat.log2 m + 1 - bits) * 2 ^ (Nat.log2 m + 1 - bits)

/-- A binary32 value in the wide format; 24 bits are enough to hold it exactly. -/
def Wide.ofWord (bits : Nat) (b : Word) : Wide :=
  if f32IsNaN b then .nan else if f32IsInf b then .inf (f32Neg b)
  else .fin (f32Neg b) (roundBits bits (f32Mag b * 2 ^ 149))

/-- The product of two binary32 values, rounded to the wide format; the invalid cases are those of R13. -/
def Wide.product (bits : Nat) (a b : Word) : Wide :=
  if f32IsNaN a || f32IsNaN b || f32InfTimesZero a b then .nan
  else if f32IsInf a || f32IsInf b then .inf (f32ProductNeg a b)
  else .fin (f32ProductNeg a b) (roundBits bits (f32Mag a * f32Mag b))

/-- A magnitude with its sign. -/
def signedMag (neg : Bool) (mag : Nat) : Int := if neg then -(mag : Int) else mag

/-- The sum of two wide values, rounded to the wide format; the invalid case and the sign of an exact zero are those of
R13 and R165. -/
def Wide.sum (bits : Nat) : Wide → Wide → Wide
  | .nan, _ => .nan
  | _, .nan => .nan
  | .inf n, .inf m => if n = m then .inf n else .nan
  | .inf n, .fin _ _ => .inf n
  | .fin _ _, .inf m => .inf m
  | .fin n a, .fin m b =>
    let z := signedMag n a + signedMag m b
    if z = 0 then .fin (n && m) 0 else .fin (decide (z < 0)) (roundBits bits z.natAbs)

/-- A wide value rounded to binary32 (R13); `nan` is the pattern a NaN takes (U4). -/
def Wide.toWord (nan : Word) : Wide → Word
  | .nan => nan
  | .inf neg => f32Inf neg
  | .fin neg mag => f32Pack neg (roundMag mag 149)

/-- An accumulator of `bits` significand bits. -/
def opsWide (bits : Nat) (start : Word) : DotOps Wide :=
  { start := Wide.ofWord bits start, product := Wide.product bits, sum := Wide.sum bits,
    accumulate := fun acc h x => Wide.sum bits acc (Wide.product bits h x) }

/-! ## Orders -/

/-- Two parts put together, either of which may hold no term. -/
def joinParts {α : Type} (f : α → α → α) : Option α → Option α → Option α
  | none, b => b
  | a, none => a
  | some a, some b => some (f a b)

/-- The terms summed as a tree says; none when the tree has no term. A product added to a part on its left is
accumulated, which tells a fused precision from an unfused one. -/
def SumTree.eval {α : Type} (ops : DotOps α) (terms : List (Word × Word)) : SumTree → Option α
  | .start => some ops.start
  | .tap i => terms[i]?.map fun t => ops.product t.1 t.2
  | .add a (.tap i) =>
    match SumTree.eval ops terms a, terms[i]? with
    | some acc, some t => some (ops.accumulate acc t.1 t.2)
    | none, some t => some (ops.product t.1 t.2)
    | part, none => part
  | .add a b => joinParts ops.sum (SumTree.eval ops terms a) (SumTree.eval ops terms b)

/-- The terms, listed by ascending tap index, summed in the order of FDOT (R164). -/
def dotTerms {α : Type} (ops : DotOps α) (order : TapOrder) (terms : List (Word × Word)) : α :=
  match order with
  | .ascending => terms.foldl (fun acc t => ops.accumulate acc t.1 t.2) ops.start
  | .descending => terms.reverse.foldl (fun acc t => ops.accumulate acc t.1 t.2) ops.start
  | .tree t => (SumTree.eval ops terms t).getD ops.start

/-! ## The dot products -/

/-- Dot product, domain F (R164), for every value of FDOT; `nan` is the pattern a NaN takes (U4, R165). -/
def dotF (p : FDot) (nan : Word) (taps samples : List Word) : Word :=
  match p with
  | .summed order start .unfused => dotTerms (opsUnfused nan start) order (taps.zip samples)
  | .summed order start .fused => dotTerms (opsFused nan start) order (taps.zip samples)
  | .summed order start (.wide bits) => (dotTerms (opsWide bits start) order (taps.zip samples)).toWord nan
  | .other k => Config.otherDot k taps samples

/-- The exact sum of R166, a mathematical integer. -/
def dotSum (taps samples : List Word) : Int :=
  ((taps.zip samples).map fun t => sextLow 16 t.1 * sextLow 16 t.2).sum

/-- Dot product, domain X (R166): `wrap_16(asr(acc, 16))`, in the low half of a cell. -/
def dotX (taps samples : List Word) : Word :=
  (BitVec.ofInt 16 (dotSum taps samples / 2 ^ Config.firNormShift)).setWidth 32

end Sys2Proof.Machine
end

