-- ==== Sys2Proof/Machine/Unpack.lean ====
section
/-! DEFINITION. The 12-bit unpacker U12.F32 (42_unpack12 R130 to R139). -/

namespace Sys2Proof.Machine

/-- The value of a 12-bit two's-complement pattern as a float sample (R132): `fmul(i2f(sext_12 a), 2^-15)`. The product
is of finite values, so the NaN pattern handed to fmul (0) is never its result. -/
def u12Sample (a : Nat) : Word := fmul 0 (i2f (BitVec.ofNat 12 a).toInt) Config.u12Scale

/-- The 12-bit pattern of sample A of a triplet (R131): `b0 + 256 * b1[3:0]`. -/
def tripletA (b0 b1 : Byte) : Nat := b0.toNat + 256 * (b1.toNat % 16)

/-- The 12-bit pattern of sample B of a triplet (R131): `b1[7:4] + 16 * b2`. -/
def tripletB (b1 b2 : Byte) : Nat := b1.toNat / 16 + 16 * b2.toNat

/-- The samples of the whole triplets of a logical stream, and the 0, 1 or 2 bytes left over (R134). -/
def unpackStream : List Byte → List Word × List Byte
  | b0 :: b1 :: b2 :: rest =>
    let r := unpackStream rest
    (u12Sample (tripletA b0 b1) :: u12Sample (tripletB b1 b2) :: r.1, r.2)
  | rest => ([], rest)

/-- PHASE of a carry word (R133). -/
def carryPhase (c : Word) : Nat := wordBits c 0 2

/-- The pending bytes of a carry word (R133): none, PB0, or PB0 and PB1; the bits not meaningful are ignored. -/
def carryPending (c : Word) : List Byte :=
  [BitVec.ofNat 8 (wordBits c 8 8), BitVec.ofNat 8 (wordBits c 16 8)].take (carryPhase c)

/-- The canonical carry word of the bytes left over (R133, R134). -/
def carryWord : List Byte → Word
  | [] => 0
  | [a] => BitVec.ofNat 32 (1 + 256 * a.toNat)
  | a :: b :: _ => BitVec.ofNat 32 (2 + 256 * a.toNat + 65536 * b.toNat)

/-- The bytes `Mem[a], .., Mem[a+n-1]`. -/
def Memory.bytes (m : Memory) (a n : Nat) : List Byte := (List.range n).map fun i => m.read (a + i)

/-- The logical stream of a U12.F32 command (R134): the pending bytes, then the source bytes. -/
def u12Stream (s : State) : List Byte :=
  carryPending (s.reg Reg.CRY) ++ s.mem.bytes (s.reg Reg.SA).toNat (s.reg Reg.LEN).toNat

/-- A list of elements laid out from address `a`, `w` bytes each. -/
def layElems (a w : Nat) (vs : List Word) : List (Nat × Word) := vs.mapIdx fun i v => (a + w * i, v)

/-- U12.F32 (R134); F_BAD_PHASE is raised before any access (R135). -/
def execU12F32 (s : State) : Host.Outcome State Fault Refusal :=
  if carryPhase (s.reg Reg.CRY) = 3 then .next (s.raiseFault .badPhase (encode .u12F32))
  else
    let out := unpackStream (u12Stream s)
    guardAccess s
      [⟨(s.reg Reg.SA).toNat, (s.reg Reg.LEN).toNat, 1⟩]
      [⟨(s.reg Reg.DA).toNat, 8 * ((carryPhase (s.reg Reg.CRY) + (s.reg Reg.LEN).toNat) / 3), 4⟩]
      ((s.setMem (s.mem.writeElems 4 (layElems (s.reg Reg.DA).toNat 4 out.1))).setReg Reg.CRY (carryWord out.2)).finish

end Sys2Proof.Machine
end

