-- ==== Sys2Proof/Machine/Fir.lean ====
section
/-! DEFINITION. The FIR filter engine: FIR.INITF, FIR.INITX, FIR.WORKF, FIR.WORKX, FIR.FREE (43_fir R150 to R178). -/

namespace Sys2Proof.Machine

/-- The element width w of a domain (R150): 4 bytes in F, 2 in X. -/
def Domain.width : Domain → Nat
  | .F => 4
  | .X => 2

/-! ## Creating and destroying a filter -/

/-- The range check of R151: tap count, exponents and block size. -/
def firInRange (l d k m : Nat) : Bool :=
  decide (1 ≤ l) && decide (l ≤ Config.maxTaps) && decide (d ≤ Config.maxDec) && decide (k ≤ Config.maxInt) &&
    decide (2 * l ≤ m)

/-- The working storage a filter needs, in bytes (R151): `(2*L + M * 2^k) * w`. -/
def firNeed (dom : Domain) (l k m : Nat) : Nat := (2 * l + m * 2 ^ k) * dom.width

/-- The context a successful init makes of `f` (R151): taps copied from address `a` of memory (R154) and padded with
zeros (R33), the history in use zeroed (R35), the fields written. History cells not in use keep their content. -/
def firCreate (f : Context) (dom : Domain) (mem : Memory) (a l d k : Nat) (m : Word) : Context :=
  { valid := true, dom := dom, dec := BitVec.ofNat 3 d, int := BitVec.ofNat 2 k, ntaps := BitVec.ofNat 7 l, maxblk := m,
    tap := Vector.ofFn fun i : Fin 64 => if i.val < l then mem.readElem dom.width (a + dom.width * i.val) else 0,
    hist := Vector.ofFn fun i : Fin 128 => if i.val < 2 * l then 0 else f.hist[i] }

/-- An init that ends with an error code (R197): RES is written and nothing else (R155, R198). -/
def firError (s : State) (code : Int) : Host.Outcome State Fault Refusal :=
  .next (s.setReg Reg.RES (BitVec.ofInt 32 code)).finish

/-- The procedure Init(dom) of R151. -/
def firInit (dom : Domain) (c : CtxId) (s : State) : Host.Outcome State Fault Refusal :=
  let t := (s.reg Reg.SA).toNat
  let m := (s.reg Reg.SB).toNat
  let d := (s.reg Reg.DA).toNat
  let k := (s.reg Reg.DB).toNat
  let l := (s.reg Reg.LEN).toNat
  if (s.context c).valid then firError s s.params.errBusy
  else if !firInRange l d k m then firError s s.params.errRange
  else if s.params.ctxCapBytes < firNeed dom l k m then firError s s.params.errNoMem
  else
    guardAccess s [⟨t, dom.width * l, dom.width⟩] []
      ((s.setContext c (firCreate (s.context c) dom s.mem t l d k (s.reg Reg.SB))).setReg Reg.RES 0).finish

/-- FIR.INITF c (R152). -/
def execFirInitF (c : CtxId) (s : State) : Host.Outcome State Fault Refusal := firInit .F c s

/-- FIR.INITX c (R153). -/
def execFirInitX (c : CtxId) (s : State) : Host.Outcome State Fault Refusal := firInit .X c s

/-- How many cells one context has, taps and history together (R33, R34). -/
def Context.cells : Nat := 192

/-- Context `c` while it holds no filter: every field 0 (R173) and the stores unspecified (R36, U7), a free value of its
own in each cell of each context (log entry 10). -/
def Context.freed (tick : Nat) (c : CtxId) : Context :=
  { valid := false, dom := .F, dec := 0, int := 0, ntaps := 0, maxblk := 0,
    tap := Vector.ofFn fun i : Fin 64 => Config.freeWord tick (Context.cells * c.val + i.val),
    hist := Vector.ofFn fun i : Fin 128 => Config.freeWord tick (Context.cells * c.val + 64 + i.val) }

/-- FIR.FREE c (R173). -/
def execFirFree (c : CtxId) (s : State) : Host.Outcome State Fault Refusal :=
  if !(s.context c).valid then .next (s.raiseFault .badCtx (encode (.firFree c)))
  else .next (s.setContext c (Context.freed s.freeTick c)).finish

/-- The dot product of a domain, for output element `o` of the command in state `s`. -/
def firDot (dom : Domain) (s : State) (o : Nat) (taps samples : List Word) : Word :=
  match dom with
  | .F => dotF s.params.fdot (freeNaN s.freeTick o) taps samples
  | .X => dotX taps samples

/-! ## Filtering a block -/

/-- `n` copies of an I/Q pair. -/
def repeatPair (i q : Word) : Nat → List Word
  | 0 => []
  | n + 1 => i :: q :: repeatPair i q n

/-- The expanded block E (R159, R160): every pair of the block repeated `2^k` times. -/
def expandBlock (k : Nat) : List Word → List Word
  | i :: q :: rest => repeatPair i q (2 ^ k) ++ expandBlock k rest
  | _ => []

/-- The input block X (R158): N elements of the domain's width from SA. -/
def firInput (dom : Domain) (s : State) : List Word :=
  (List.range (s.reg Reg.LEN).toNat).map fun i =>
    s.mem.readElem dom.width ((s.reg Reg.SA).toNat + dom.width * i)

/-- The logical stream S of a work command (R159): the history in use, then the expanded block. -/
def firStream (dom : Domain) (f : Context) (s : State) : List Word :=
  f.hist.toList.take (2 * f.ntaps.toNat) ++ expandBlock f.int.toNat (firInput dom s)

/-- The samples the taps meet at pair `p` on channel `ch` (0 = I, 1 = Q), newest first (R161). -/
def firWindow (stream : List Word) (l p ch : Nat) : List Word :=
  (List.range l).map fun i => stream.getD (2 * (p - i) + ch) 0

/-- J, the number of output pairs of a block of `n` samples (R161). -/
def firPairs (f : Context) (n : Nat) : Nat := n * 2 ^ f.int.toNat / 2 ^ (f.dec.toNat + 1)

/-- The output block Y (R161): element `2j + ch` is the dot product at pair `P(j) = L + j * 2^d`. -/
def firOutput (dom : Domain) (f : Context) (s : State) : List Word :=
  (List.range (2 * firPairs f (s.reg Reg.LEN).toNat)).map fun o =>
    firDot dom s o (f.tap.toList.take f.ntaps.toNat)
      (firWindow (firStream dom f s) f.ntaps.toNat (f.ntaps.toNat + o / 2 * 2 ^ f.dec.toNat) (o % 2))

/-- The history after a work command (R169): cells `0..2L-1` hold the last `2L` samples of the stream. -/
def firHistory (f : Context) (stream : List Word) : Vector Word 128 :=
  Vector.ofFn fun i : Fin 128 =>
    if i.val < 2 * f.ntaps.toNat then stream.getD (stream.length - 2 * f.ntaps.toNat + i.val) 0 else f.hist[i]

/-- The last check of R157: N at most MAXBLK, even, and a whole number of decimation groups. -/
def firBlockLenOk (f : Context) (n : Nat) : Bool :=
  decide (n ≤ f.maxblk.toNat) && decide (n % 2 = 0) && decide (n * 2 ^ f.int.toNat % 2 ^ (f.dec.toNat + 1) = 0)

/-- The checks of R157, in order: the fault of the first that fails. -/
def firWorkFault (dom : Domain) (f : Context) (n : Nat) : Option Cause :=
  if !f.valid then some .badCtx
  else if f.dom ≠ dom then some .domain
  else if n < 2 * f.ntaps.toNat then some .shortBlock
  else if !firBlockLenOk f n then some .blockLen
  else none

/-- A work command of domain `dom` on context `c`, whose word is `w` (R157 to R171). -/
def firWork (dom : Domain) (w : Word) (c : CtxId) (s : State) : Host.Outcome State Fault Refusal :=
  let f := s.context c
  let n := (s.reg Reg.LEN).toNat
  match firWorkFault dom f n with
  | some cause => .next (s.raiseFault cause w)
  | none =>
    guardAccess s
      [⟨(s.reg Reg.SA).toNat, dom.width * n, dom.width⟩]
      [⟨(s.reg Reg.DA).toNat, dom.width * (2 * firPairs f n), dom.width⟩]
      (((s.setMem (s.mem.writeElems dom.width (layElems (s.reg Reg.DA).toNat dom.width (firOutput dom f s)))).setContext c
        { f with hist := firHistory f (firStream dom f s) }).setReg Reg.RES
          (BitVec.ofNat 32 (2 * firPairs f n))).finish

/-- FIR.WORKF c (R171). -/
def execFirWorkF (c : CtxId) (s : State) : Host.Outcome State Fault Refusal :=
  firWork .F (encode (.firWorkF c)) c s

/-- FIR.WORKX c (R172). -/
def execFirWorkX (c : CtxId) (s : State) : Host.Outcome State Fault Refusal :=
  firWork .X (encode (.firWorkX c)) c s

end Sys2Proof.Machine
end

