-- ==== Sys2Proof/Machine/Setup.lean ====
section
/-! DEFINITION. SETL and SETH (40_operand_setup R90, R91). -/

namespace Sys2Proof.Machine

/-- SETL rd, imm16 (R90): `x[rd] <- zext_16(imm16)`. -/
def execSetl (rd : Reg) (imm : BitVec 16) (s : State) : Host.Outcome State Fault Refusal :=
  .next (s.setReg rd (imm.setWidth 32)).finish

/-- The value SETH gives a register that held `v` (R91): `imm16 * 65536 + v[15:0]`. -/
def sethValue (imm : BitVec 16) (v : Word) : Word := imm ++ v.setWidth 16

/-- SETH rd, imm16 (R91). -/
def execSeth (rd : Reg) (imm : BitVec 16) (s : State) : Host.Outcome State Fault Refusal :=
  .next (s.setReg rd (sethValue imm (s.reg rd))).finish

end Sys2Proof.Machine
end

