-- ==== Sys2Proof/Machine/Dispatch.lean ====
section
/-! DEFINITION. One arm per command: each calls its meaning. -/

namespace Sys2Proof.Machine

def exec (i : Instr) (s : State) : Host.Outcome State Fault Refusal :=
  match i with
  -- operand setup
  | .setl rd imm => Sys2Proof.Machine.execSetl rd imm s
  | .seth rd imm => Sys2Proof.Machine.execSeth rd imm s
  -- conversions
  | .cvtI16F32 => Sys2Proof.Machine.execCvtI16F32 s
  | .cvtI16F32P => Sys2Proof.Machine.execCvtI16F32P s
  | .cvtI8F32 => Sys2Proof.Machine.execCvtI8F32 s
  | .cvtI8F32P => Sys2Proof.Machine.execCvtI8F32P s
  | .cvtF32I16 => Sys2Proof.Machine.execCvtF32I16 s
  | .cvtF32PI16 => Sys2Proof.Machine.execCvtF32PI16 s
  | .cvtF32I8 => Sys2Proof.Machine.execCvtF32I8 s
  | .cvtF32PI8 => Sys2Proof.Machine.execCvtF32PI8 s
  | .cvtI16PI16 => Sys2Proof.Machine.execCvtI16PI16 s
  | .cvtI16I16P => Sys2Proof.Machine.execCvtI16I16P s
  -- 12-bit unpacker
  | .u12F32 => Sys2Proof.Machine.execU12F32 s
  -- filters
  | .firInitF c => Sys2Proof.Machine.execFirInitF c s
  | .firInitX c => Sys2Proof.Machine.execFirInitX c s
  | .firWorkF c => Sys2Proof.Machine.execFirWorkF c s
  | .firWorkX c => Sys2Proof.Machine.execFirWorkX c s
  | .firFree c => Sys2Proof.Machine.execFirFree c s

end Sys2Proof.Machine
end

