-- ==== Sys2Proof/Machine/Step.lean ====
section
/-! DEFINITION. One step of the block: it takes the next presented word, decodes it and runs it (10_state R24,
30_encoding R79, 60_exceptions R201 and R204). -/

namespace Sys2Proof.Machine

/-- One step. A halted block changes no state (R204); a block that no word is presented to stays idle (R222); an illegal
word raises F_ILLEGAL (R75, R191); any other word is run by `exec`. One step takes one word, the answer is a function of the state, and no word is taken
again: there is no retry (R199). -/
def step (s : State) : Host.Outcome State Fault Refusal :=
  match s.fetch with
  | none => .next s
  | some w =>
    match decode w with
    | .error _ => .next (s.raiseFault .illegal w)
    | .ok i => exec i s

/-- The state with the word `w` (its low `nbits` bits) as the one the block takes next. -/
def State.withFetchWord (s : State) (nbits w : Nat) : State :=
  s.placeWord (BitVec.ofNat 32 (w % 2 ^ nbits))

end Sys2Proof.Machine
end

