-- ==== Sys2Proof/Machine/Flags.lean ====
section
/-! DEFINITION. The status registers as the host reads them: STATUS, FCFG[c], FMAX[c] (10_state R25, R28). The block has
no arithmetic flags (R27), so no command computes one. -/

namespace Sys2Proof.Machine

/-- Bit n of a word from a Bool. -/
def bitAt (b : Bool) (n : Nat) : Nat := if b then 2 ^ n else 0

/-- DOM as a bit: 0 = F, 1 = X (R28). -/
def Domain.bit : Domain → Bool
  | .F => false
  | .X => true

/-- STATUS (R25): HALT bit 0, FCAUSE bits 7..4, CTXV bit 8+c = VALID of context c, every other bit 0. -/
def statusReg (s : State) : Word :=
  BitVec.ofNat 32 (bitAt s.halt 0 + s.fcause.toNat * 2 ^ 4 + bitAt (s.context 0).valid 8 + bitAt (s.context 1).valid 9 +
    bitAt (s.context 2).valid 10 + bitAt (s.context 3).valid 11)

/-- FCFG of a context (R28): VALID bit 0, DOM bit 1, DEC 6..4, INT 9..8, NTAPS 22..16; 0 when VALID = 0. -/
def fcfgReg (f : Context) : Word :=
  if f.valid then
    BitVec.ofNat 32 (1 + bitAt f.dom.bit 1 + f.dec.toNat * 2 ^ 4 + f.int.toNat * 2 ^ 8 + f.ntaps.toNat * 2 ^ 16)
  else 0

/-- FMAX of a context (R28): MAXBLK; 0 when VALID = 0. -/
def fmaxReg (f : Context) : Word := if f.valid then f.maxblk else 0

end Sys2Proof.Machine
end

