-- ==== Sys2Proof/Machine/HostPort.lean ====
section
/-! DEFINITION. What the host can do while the block is idle (10_state R31, 60_exceptions R207): present a command word,
read a register by number, read or write memory, reset. These are moves between steps, not steps. DESIGN CHOICE (log entry
18): no move checks that every presented word has run; a word still in the list is one the host has queued. -/

namespace Sys2Proof.Machine

/-- The host reads register number `n` (R31); it has no side effect (R207). -/
def hostReadReg (n : Nat) (s : State) : Word :=
  match n with
  | 0 => s.reg 0
  | 1 => s.reg 1
  | 2 => s.reg 2
  | 3 => s.reg 3
  | 4 => s.reg 4
  | 5 => s.reg 5
  | 6 => s.reg 6
  | 7 => s.reg 7
  | 8 => statusReg s
  | 9 => s.fcmd
  | 16 => fcfgReg (s.context 0)
  | 17 => fmaxReg (s.context 0)
  | 18 => fcfgReg (s.context 1)
  | 19 => fmaxReg (s.context 1)
  | 20 => fcfgReg (s.context 2)
  | 21 => fmaxReg (s.context 2)
  | 22 => fcfgReg (s.context 3)
  | 23 => fmaxReg (s.context 3)
  | _ => 0

/-- The host presents one more command word (R24, R207); a halted block ignores it (R204). DESIGN CHOICE (log entry 18):
where an earlier word has not run yet the new one is queued behind it and runs in its turn (R207, R230: one at a time). -/
def hostPresent (w : Word) (s : State) : State := if s.halt then s else { s with program := s.program ++ [w] }

/-- The host can reach the byte at `a`: the platform implements it (R57) and the address has 32 bits (R37). DESIGN CHOICE
(log entry 16): no other address is given a byte, whatever MemOK says of it. -/
def hostReaches (a : Nat) (s : State) : Bool := memOK s.params a && decide (a < 2 ^ 32)

/-- The host reads a byte of memory (R207); where it reaches none there is no value (log entry 16). -/
def hostReadByte (a : Nat) (s : State) : Option Byte := if hostReaches a s then some (s.mem.read a) else none

/-- The host writes a byte of memory (R207); where it reaches none nothing changes (log entry 16). DESIGN CHOICE (log
entry 18): with words still queued the write lands before them. -/
def hostWriteByte (a : Nat) (b : Byte) (s : State) : State :=
  if hostReaches a s then s.setMem (s.mem.write a b) else s

/-- The host asserts reset (R220, R221): every register 0, every context without a filter and its stores unspecified
(U7; each cell of each context a free value of its own, log entry 10), memory untouched, the command index 0 and nothing presented (R222). The parameters are the platform's. -/
def hostReset (s : State) : State :=
  { State.reset with ctx := Vector.ofFn (Context.freed s.freeTick), mem := s.mem, params := s.params,
                     freeTick := s.freeTick + 1 }

/-- The host's moves that change state (R207); a read changes nothing. -/
inductive HostMove where
  | present (w : Word)
  | writeByte (a : Nat) (b : Byte)
  | reset
  deriving DecidableEq, Repr

/-- One move of the host, made between two steps, so never during a command (R60 c, R230). DESIGN CHOICE (log entry 18): a
state with words still queued takes the move like any other. -/
def hostMove (m : HostMove) (s : State) : State :=
  match m with
  | .present w => hostPresent w s
  | .writeByte a b => hostWriteByte a b s
  | .reset => hostReset s

end Sys2Proof.Machine
end

