-- ==== Sys2Proof/Safety.lean ====
section
/-! DEFINITION. The terms claims use: which elements of memory a command accesses and when it may (20_memory R52 to
R58), what a command leaves alone, what a fault leaves, and the invariants of the state (10_state R29). Written from the
rules element by element, not from the ranges Machine/ checks. -/

namespace Sys2Proof.Machine

/-! ## The elements a command accesses -/

/-- The elements a command reads and the elements it writes: how many, how wide, and where each lies (R54). -/
structure Access where
  ns : Nat
  ws : Nat
  src : Nat → Nat
  nd : Nat
  wd : Nat
  dst : Nat → Nat

/-- A command that accesses no memory. -/
def Access.none : Access := ⟨0, 1, fun _ => 0, 0, 1, fun _ => 0⟩

/-- One element of width `w` at `a` is aligned (R52), inside the address space (R58) and implemented (R57). -/
abbrev ElemOk (p : Params) (w a : Nat) : Prop :=
  a % w = 0 ∧ a + w ≤ 2 ^ 32 ∧ ∀ j, j < w → memOK p (a + j) = true

/-- Two elements share no byte (R56). -/
abbrev Apart (a w b v : Nat) : Prop := a + w ≤ b ∨ b + v ≤ a

/-- No precondition of R52, R56, R57, R58 is violated. -/
abbrev Access.Ok (p : Params) (x : Access) : Prop :=
  (∀ e, e < x.ns → ElemOk p x.ws (x.src e)) ∧
  (∀ e, e < x.nd → ElemOk p x.wd (x.dst e)) ∧
  (∀ e, e < x.nd → ∀ f, f < x.ns → Apart (x.dst e) x.wd (x.src f) x.ws) ∧
  (∀ e, e < x.nd → ∀ f, f < x.nd → e ≠ f → Apart (x.dst e) x.wd (x.dst f) x.wd)

/-- A byte that lies in no element the command writes. -/
abbrev Access.Outside (x : Access) (a : Nat) : Prop := ∀ e, e < x.nd → a < x.dst e ∨ x.dst e + x.wd ≤ a

/-- A byte that lies in an element the command reads. -/
def Access.Reads (x : Access) (a : Nat) : Prop := ∃ e, e < x.ns ∧ x.src e ≤ a ∧ a < x.src e + x.ws

/-- The form of a CVT command (R54, R100): widths and arrangements of source and destination. -/
structure CvtForm where
  ws : Nat
  wd : Nat
  ls : Layout
  ld : Layout
  deriving DecidableEq, Repr

/-- The tables of R54 and R100. -/
def cvtForm : Instr → Option CvtForm
  | .cvtI16F32 => some ⟨2, 4, .interleaved, .interleaved⟩
  | .cvtI16F32P => some ⟨2, 4, .interleaved, .planar⟩
  | .cvtI8F32 => some ⟨1, 4, .interleaved, .interleaved⟩
  | .cvtI8F32P => some ⟨1, 4, .interleaved, .planar⟩
  | .cvtF32I16 => some ⟨4, 2, .interleaved, .interleaved⟩
  | .cvtF32PI16 => some ⟨4, 2, .planar, .interleaved⟩
  | .cvtF32I8 => some ⟨4, 1, .interleaved, .interleaved⟩
  | .cvtF32PI8 => some ⟨4, 1, .planar, .interleaved⟩
  | .cvtI16PI16 => some ⟨2, 2, .planar, .interleaved⟩
  | .cvtI16I16P => some ⟨2, 2, .interleaved, .planar⟩
  | _ => none

/-- The elements a CVT command of a form accesses (R101, R102, R107). -/
def cvtAccess (f : CvtForm) (s : State) : Access :=
  { ns := (s.reg Reg.LEN).toNat / f.ws, ws := f.ws,
    src := elemAddr f.ls (s.reg Reg.SA).toNat (s.reg Reg.SB).toNat f.ws,
    nd := (s.reg Reg.LEN).toNat / f.ws, wd := f.wd,
    dst := elemAddr f.ld (s.reg Reg.DA).toNat (s.reg Reg.DB).toNat f.wd }

/-- The elements U12.F32 accesses (R134): LEN source bytes, two floats for each whole triplet. -/
def u12Access (s : State) : Access :=
  { ns := (s.reg Reg.LEN).toNat, ws := 1, src := fun e => (s.reg Reg.SA).toNat + e,
    nd := 2 * ((carryPhase (s.reg Reg.CRY) + (s.reg Reg.LEN).toNat) / 3), wd := 4,
    dst := fun e => (s.reg Reg.DA).toNat + 4 * e }

/-- The elements an init accesses when its checks pass (R151, R154): the taps, and nothing is written. -/
def initAccess (dom : Domain) (s : State) : Access :=
  { ns := (s.reg Reg.LEN).toNat, ws := dom.width, src := fun e => (s.reg Reg.SA).toNat + dom.width * e,
    nd := 0, wd := 1, dst := fun _ => 0 }

/-- The elements a work command accesses when its checks pass (R158, R170): N samples in, `(N * 2^k) >> d` out. -/
def workAccess (dom : Domain) (f : Context) (s : State) : Access :=
  { ns := (s.reg Reg.LEN).toNat, ws := dom.width, src := fun e => (s.reg Reg.SA).toNat + dom.width * e,
    nd := (s.reg Reg.LEN).toNat * 2 ^ f.int.toNat / 2 ^ f.dec.toNat, wd := dom.width,
    dst := fun e => (s.reg Reg.DA).toNat + dom.width * e }

/-- The three checks of R151 all pass. -/
abbrev InitChecksPass (dom : Domain) (c : CtxId) (s : State) : Prop :=
  (s.context c).valid = false ∧ (1 ≤ (s.reg Reg.LEN).toNat ∧ (s.reg Reg.LEN).toNat ≤ 64) ∧
  (s.reg Reg.DA).toNat ≤ 6 ∧ (s.reg Reg.DB).toNat ≤ 2 ∧ 2 * (s.reg Reg.LEN).toNat ≤ (s.reg Reg.SB).toNat ∧
  (2 * (s.reg Reg.LEN).toNat + (s.reg Reg.SB).toNat * 2 ^ (s.reg Reg.DB).toNat) * dom.width ≤ s.params.ctxCapBytes

/-- The four checks of R157 all pass, for `n` samples. -/
abbrev WorkChecksPass (dom : Domain) (f : Context) (n : Nat) : Prop :=
  f.valid = true ∧ f.dom = dom ∧ 2 * f.ntaps.toNat ≤ n ∧
  (n ≤ f.maxblk.toNat ∧ n % 2 = 0 ∧ n * 2 ^ f.int.toNat % 2 ^ (f.dec.toNat + 1) = 0)

/-- What a command accesses in state `s` (R38, R54). A command that faults or returns an error code accesses nothing
(R203, R155). -/
def accessOf (i : Instr) (s : State) : Access :=
  match i, cvtForm i with
  | _, some f => cvtAccess f s
  | .u12F32, _ => if carryPhase (s.reg Reg.CRY) = 3 then Access.none else u12Access s
  | .firInitF c, _ => if InitChecksPass .F c s then initAccess .F s else Access.none
  | .firInitX c, _ => if InitChecksPass .X c s then initAccess .X s else Access.none
  | .firWorkF c, _ =>
    if WorkChecksPass .F (s.context c) (s.reg Reg.LEN).toNat then workAccess .F (s.context c) s else Access.none
  | .firWorkX c, _ =>
    if WorkChecksPass .X (s.context c) (s.reg Reg.LEN).toNat then workAccess .X (s.context c) s else Access.none
  | _, _ => Access.none

/-- The elements `dst 0 .. dst (nd-1)` hold the values `val`, little-endian, and every byte outside them is as before. -/
def Stored (m m' : Memory) (x : Access) (val : Nat → Nat) : Prop :=
  (∀ e, e < x.nd → m'.readN (x.dst e) x.wd = val e) ∧ ∀ a, x.Outside a → m'.read a = m.read a

/-! ## The streams of U12.F32 and of a filter, indexed -/

/-- Byte `j` of the logical stream of U12.F32 as a number (R133, R134): pending bytes PB0, PB1 first, then the source. -/
def u12Byte (s : State) (j : Nat) : Nat :=
  if j < carryPhase (s.reg Reg.CRY) then wordBits (s.reg Reg.CRY) (8 + 8 * j) 8
  else (s.mem.read ((s.reg Reg.SA).toNat + (j - carryPhase (s.reg Reg.CRY)))).toNat

/-- `sext_12` of a 12-bit pattern (R8). -/
def sext12 (u : Nat) : Int := if u < 2 ^ 11 then u else (u : Int) - 2 ^ 12

/-- The value of output sample `e` of U12.F32 before scaling (R131, R132): sample A of triplet `e / 2` for even `e`,
sample B for odd `e`. -/
def u12Value (s : State) (e : Nat) : Int :=
  let b := fun i => u12Byte s (3 * (e / 2) + i)
  if e % 2 = 0 then sext12 (b 0 + 256 * (b 1 % 16)) else sext12 (b 1 / 16 + 16 * b 2)

/-- The carry U12.F32 leaves (R134). -/
def u12CarryOut (s : State) : Nat :=
  let len := carryPhase (s.reg Reg.CRY) + (s.reg Reg.LEN).toNat
  let g := len / 3
  if len % 3 = 0 then 0
  else if len % 3 = 1 then 1 + 256 * u12Byte s (3 * g)
  else 2 + 256 * u12Byte s (3 * g) + 65536 * u12Byte s (3 * g + 1)

/-- Input sample `i` of a work command (R158). -/
def inputAt (dom : Domain) (s : State) (i : Nat) : Word :=
  s.mem.readElem dom.width ((s.reg Reg.SA).toNat + dom.width * i)

/-- Sample `j` of the logical stream S of a work command (R159, R160): the history, then the block with each pair
repeated `2^k` times. -/
def streamAt (dom : Domain) (f : Context) (s : State) (j : Nat) : Word :=
  if j < 2 * f.ntaps.toNat then f.hist.toList.getD j 0
  else inputAt dom s (2 * ((j - 2 * f.ntaps.toNat) / 2 / 2 ^ f.int.toNat) + (j - 2 * f.ntaps.toNat) % 2)

/-- The sample tap `i` meets for output element `o` (R161): pair `P(o/2) - i` of the stream, channel `o % 2`. -/
def tapSample (dom : Domain) (f : Context) (s : State) (o i : Nat) : Word :=
  streamAt dom f s (2 * (f.ntaps.toNat + o / 2 * 2 ^ f.dec.toNat - i) + o % 2)

/-- Tap `i` of a context. -/
def tapAt (f : Context) (i : Nat) : Word := f.tap.toList.getD i 0

/-- The tree that adds taps 0 .. n-1 one by one to the start value. -/
def ascendingTree : Nat → SumTree
  | 0 => .start
  | n + 1 => .add (ascendingTree n) (.tap n)

/-- The init command of a domain (R152, R153). -/
def initInstr : Domain → CtxId → Instr
  | .F, c => .firInitF c
  | .X, c => .firInitX c

/-- The work command of a domain (R171, R172). -/
def workInstr : Domain → CtxId → Instr
  | .F, c => .firWorkF c
  | .X, c => .firWorkX c

/-- The binary32 pattern of 2^p, for p in -149..127: a normal value from -126 on, a subnormal one below (R12). -/
def pow2Pattern (p : Int) : Word :=
  BitVec.ofNat 32 (if -126 ≤ p then (127 + p).toNat * 2 ^ 23 else 2 ^ (p + 149).toNat)

/-- A stream unpacked in pieces (R138): for each piece one U12.F32 with LEN the piece's length, the carry taken from the
one before, SA advanced by the piece and DA by 8 bytes for each pair written (R136 d). -/
def unpackPieces : List Nat → State → Option State
  | [], s => some s
  | n :: rest, s =>
    match exec .u12F32 (s.setReg Reg.LEN (BitVec.ofNat 32 n)) with
    | .next t => unpackPieces rest ((t.setReg Reg.SA (s.reg Reg.SA + BitVec.ofNat 32 n)).setReg Reg.DA
        (s.reg Reg.DA + BitVec.ofNat 32 (8 * ((carryPhase (s.reg Reg.CRY) + n) / 3))))
    | _ => none

/-! ## What a command leaves alone -/

/-- A function on states applied to the next state of an outcome. -/
def mapNext (g : State → State) : Host.Outcome State Fault Refusal → Host.Outcome State Fault Refusal
  | .next t => .next (g t)
  | .fault r => .fault r
  | .refused r => .refused r

/-- Every byte of memory reads as before. -/
def SameMem (s t : State) : Prop := ∀ a, t.mem.read a = s.mem.read a

/-- Every operand register not in the list holds its value (R22). -/
def SameRegsBut (rs : List Reg) (s t : State) : Prop := ∀ r, r ∉ rs → t.reg r = s.reg r

/-- Every filter context not in the list is as before, fields, taps and history (R32). -/
def SameCtxBut (cs : List CtxId) (s t : State) : Prop := ∀ c, c ∉ cs → t.context c = s.context c

/-- What every completed command leaves: STATUS.HALT, FCAUSE and FCMD as they were, the host's list and the parameters
too, and the command index advanced by 1 (R24, R25, R26). -/
def Completed (s t : State) : Prop :=
  t.halt = s.halt ∧ t.fcause = s.fcause ∧ t.fcmd = s.fcmd ∧ t.program = s.program ∧ t.params = s.params ∧
  t.cmdIndex = s.cmdIndex + 1

/-- What a fault leaves (R202, R203): HALT set, the code in FCAUSE, the word in FCMD, and nothing else changed. -/
def FaultTaken (s t : State) (code : BitVec 4) (w : Word) : Prop :=
  t.halt = true ∧ t.fcause = code ∧ t.fcmd = w ∧ t.x = s.x ∧ t.ctx = s.ctx ∧ t.mem = s.mem ∧ t.program = s.program ∧
  t.params = s.params ∧ t.cmdIndex = s.cmdIndex ∧ t.freeTick = s.freeTick

/-- The context a command names (R71). -/
def namedCtx : Instr → List CtxId
  | .firInitF c | .firInitX c | .firWorkF c | .firWorkX c | .firFree c => [c]
  | _ => []

/-- The operand registers a command writes (R22). -/
def writtenRegs : Instr → List Reg
  | .setl rd _ | .seth rd _ => [rd]
  | .u12F32 => [Reg.CRY]
  | .firInitF _ | .firInitX _ | .firWorkF _ | .firWorkX _ => [Reg.RES]
  | _ => []

/-! ## Invariants -/

/-- A context is well formed: the legal values of R28 and R29 when VALID = 1, with zero padding taps (R33) and, in
domain X, 16-bit cells (R33, R34); every field 0 when VALID = 0. -/
abbrev Context.Inv (f : Context) : Prop :=
  if f.valid then
    (1 ≤ f.ntaps.toNat ∧ f.ntaps.toNat ≤ 64) ∧ f.dec.toNat ≤ 6 ∧ f.int.toNat ≤ 2 ∧
    2 * f.ntaps.toNat ≤ f.maxblk.toNat ∧
    (∀ i : Fin 64, f.ntaps.toNat ≤ i.val → f.tap[i] = 0) ∧
    (f.dom = .X → (∀ i : Fin 64, f.tap[i].toNat < 2 ^ 16) ∧
      ∀ i : Fin 128, i.val < 2 * f.ntaps.toNat → f.hist[i].toNat < 2 ^ 16)
  else f.dom = .F ∧ f.dec = 0 ∧ f.int = 0 ∧ f.ntaps = 0 ∧ f.maxblk = 0

/-- The storage a valid context needs fits (R151). -/
abbrev Context.Fits (p : Params) (f : Context) : Prop :=
  f.valid = true → (2 * f.ntaps.toNat + f.maxblk.toNat * 2 ^ f.int.toNat) * f.dom.width ≤ p.ctxCapBytes

/-- The record of a fault is well formed (R25, R26, R190): 0 while not halted; while halted a cause 1..6, and cause 1
exactly for a word that is no command. -/
abbrev State.FaultRecordOk (s : State) : Prop :=
  if s.halt then (1 ≤ s.fcause.toNat ∧ s.fcause.toNat ≤ 6) ∧ (s.fcause = 1 ↔ legalWord s.fcmd = false)
  else s.fcause = 0 ∧ s.fcmd = 0

/-- The invariant of the machine: memory in canonical form and inside the address space (R37), the fault record well
formed, every context well formed and fitting. -/
abbrev State.Inv (s : State) : Prop :=
  s.mem.wf = true ∧ (∀ c ∈ s.mem, c.1 < 2 ^ 32) ∧ s.FaultRecordOk ∧
  ∀ c : CtxId, (s.context c).Inv ∧ (s.context c).Fits s.params

end Sys2Proof.Machine
end

