-- ==== Sys2Proof/Certificates/Slice0/Obligations.lean ====
section
/-! DEFINITION. The statements about the machine, for the provers. Each follows the rules of spec/ its docstring cites;
`s.mem.wf` and `Context.Inv` are premises only where a state no run reaches could differ (StepKeepsInvariant states that
every step keeps them). -/

open Sys2Proof Sys2Proof.Machine

/-! ## Command words -/

/-- R71 to R74: the decoder gives back every command from its word, every field at every value. -/
def Obligations.DecodeOfEncodeIsTheCommand : Prop :=
  ∀ i : Instr, decode (encode i) = .ok i

/-- R75 ("exactly one command"), R202 (FCMD holds the command word): a legal word is the word of the command it decodes
to, so no bit of it is ignored. -/
def Obligations.EncodeOfDecodeIsTheWord : Prop :=
  ∀ (w : Word) (i : Instr), decode w = .ok i → encode i = w

/-- R73: a word is a command exactly when (w AND mask) = match for that command's row, and a word whose opcode is not in
the table is illegal. -/
def Obligations.DecodeFollowsMatchAndMask : Prop :=
  ∀ w : Word,
    (∀ r ∈ opcodeMap, (r.matchesWord w = true ↔ ∃ i : Instr, decode w = .ok i ∧ i.mnemonic = r.mnemonic)) ∧
    (opcodeAssigned w = false → ∃ e, decode w = .error e)

/-- R75: no word is two commands. -/
def Obligations.OpcodeRowsExclusive : Prop :=
  ∀ w : Word, ∀ r ∈ opcodeMap, ∀ q ∈ opcodeMap, r.matchesWord w = true → q.matchesWord w = true → r = q

/-- R75: a word is a command exactly when none of the three clauses makes it illegal, and presenting an illegal word
raises F_ILLEGAL (code 1) and changes nothing else. -/
def Obligations.IllegalWordsFault : Prop :=
  ∀ w : Word, ((∃ i : Instr, decode w = .ok i) ↔ legalWord w = true) ∧
    ∀ s : State, s.halt = false → s.program[s.cmdIndex]? = some w → legalWord w = false →
      ∃ t, step s = .next t ∧ FaultTaken s t 1 w

/-- Section 2.1 of 95_test_vectors and R77: words written out from the formats decode to the commands they stand for. -/
def Obligations.SampleWordsDecode : Prop :=
  decode 0x01400100 = .ok (.setl Reg.LEN 0x0100) ∧ decode 0x02503F80 = .ok (.seth Reg.SCL 0x3F80) ∧
  decode 0x10000000 = .ok .cvtI16F32 ∧ decode 0x19000000 = .ok .cvtI16I16P ∧ decode 0x20000000 = .ok .u12F32 ∧
  decode 0x30030000 = .ok (.firInitF 3) ∧ decode 0x33020000 = .ok (.firWorkX 2) ∧ decode 0x34000000 = .ok (.firFree 0) ∧
  decode 0x00000000 = .error .unassignedOpcode ∧ decode 0x01800000 = .error .reservedBitSet ∧
  decode 0x20030000 = .error .ctxNotZero

/-! ## The step -/

/-- R24, R79: when the presented word at the command index decodes to a command, the step is that command's meaning and
nothing around it. -/
def Obligations.StepRunsTheDecodedCommand : Prop :=
  ∀ (s : State) (w : Word) (i : Instr), s.halt = false → s.program[s.cmdIndex]? = some w → decode w = .ok i →
    step s = exec i s

/-- R204: while HALT = 1 a word presented is not decoded, not executed, changes no state (FCAUSE and FCMD among it) and
raises no fault; the host still reads every register and all of memory. -/
def Obligations.HaltedBlockIgnoresWords : Prop :=
  ∀ (s : State) (w : Word), s.halt = true →
    hostPresent w s = s ∧ step s = .next s ∧ step (s.placeWord w) = .next (s.placeWord w) ∧
    (∀ r : Reg, hostReadReg r.val s = s.reg r) ∧ hostReadReg 8 s = statusReg s ∧ hostReadReg 9 s = s.fcmd ∧
    (∀ c : CtxId, hostReadReg (16 + 2 * c.val) s = fcfgReg (s.context c) ∧
      hostReadReg (17 + 2 * c.val) s = fmaxReg (s.context c)) ∧
    ∀ a, memOK s.params a = true → a < 2 ^ 32 → hostReadByte a s = some (s.mem.read a)

/-- R221: no step and no move of the host but reset leaves the halted state; reset leaves it and destroys every filter
context. -/
def Obligations.OnlyResetLeavesHalt : Prop :=
  ∀ s : State, s.halt = true →
    (∀ t, step s = .next t → t.halt = true) ∧ (∀ m : HostMove, m ≠ .reset → (hostMove m s).halt = true) ∧
    (hostMove .reset s).halt = false ∧ ∀ c : CtxId, ((hostMove .reset s).context c).valid = false

/-- R24, R59: a word presented to an idle block is the word it takes next, and the step runs it. -/
def Obligations.PresentedWordRunsNext : Prop :=
  ∀ (s : State) (w : Word) (i : Instr), s.halt = false → s.cmdIndex = s.program.length → decode w = .ok i →
    step (hostPresent w s) = exec i (hostPresent w s)

/-- R220: what reset leaves, from any state: every operand register, STATUS, FCMD, FCFG and FMAX is 0, no context is
valid, the command index is 0, memory is untouched. -/
def Obligations.ResetClearsAllButMemory : Prop :=
  ∀ s : State, (∀ n, hostReadReg n (hostReset s) = 0) ∧ (∀ r : Reg, (hostReset s).reg r = 0) ∧
    (∀ c : CtxId, ((hostReset s).context c).valid = false) ∧ (hostReset s).mem = s.mem ∧ (hostReset s).cmdIndex = 0

/-- R220, R222: the machine right after reset reads 0 in every register and is idle. That an idle block's step answers
the same state is the model's own convention (log entry 1). -/
def Obligations.StateAfterReset : Prop :=
  (∀ n, hostReadReg n State.reset = 0) ∧ State.reset.cmdIndex = 0 ∧ State.reset.halt = false ∧
    step State.reset = .next State.reset

/-! ## Operand setup -/

/-- R90, R92: SETL gives rd the immediate, zero-extended, and changes nothing else. -/
def Obligations.SetlLoadsZeroExtended : Prop :=
  ∀ (rd : Reg) (imm : BitVec 16) (s : State), ∃ t, exec (.setl rd imm) s = .next t ∧
    (t.reg rd).toNat = imm.toNat ∧ SameRegsBut [rd] s t ∧ SameCtxBut [] s t ∧ SameMem s t ∧ Completed s t

/-- R91, R92: SETH gives bits 31..16 of rd the immediate, keeps bits 15..0, and changes nothing else. -/
def Obligations.SethSetsHighKeepsLow : Prop :=
  ∀ (rd : Reg) (imm : BitVec 16) (s : State), ∃ t, exec (.seth rd imm) s = .next t ∧
    wordBits (t.reg rd) 16 16 = imm.toNat ∧ wordBits (t.reg rd) 0 16 = wordBits (s.reg rd) 0 16 ∧
    SameRegsBut [rd] s t ∧ SameCtxBut [] s t ∧ SameMem s t ∧ Completed s t

/-- R78: LI expands to SETL then SETH; after them x[rd] is the 32-bit constant and no other register has changed. -/
def Obligations.LoadImmediatePairLoadsConstant : Prop :=
  ∀ (rd : Reg) (imm : Word) (s : State), ∃ lo hi : BitVec 16,
    expandLI rd imm = [.setl rd lo, .seth rd hi] ∧ lo.toNat = wordBits imm 0 16 ∧ hi.toNat = wordBits imm 16 16 ∧
    ∃ t u, exec (.setl rd lo) s = .next t ∧ exec (.seth rd hi) t = .next u ∧ u.reg rd = imm ∧ SameRegsBut [rd] s u

/-! ## Conversions -/

/-- R103, R110 to R113 (CVT.I16.F32, CVT.I16.F32P, CVT.I8.F32, CVT.I8.F32P): each of the LEN div w_s elements is sign
extended, cast and multiplied by SCL, and stored at its place; nothing else changes. The NaN patterns `nan` stand for the
payload U4 leaves open. -/
def Obligations.FixedToFloatConverts : Prop :=
  ∀ (i : Instr) (bits : Nat) (f : CvtForm),
    (i, bits, f) ∈ ([(.cvtI16F32, 16, ⟨2, 4, .interleaved, .interleaved⟩), (.cvtI16F32P, 16, ⟨2, 4, .interleaved, .planar⟩),
      (.cvtI8F32, 8, ⟨1, 4, .interleaved, .interleaved⟩), (.cvtI8F32P, 8, ⟨1, 4, .interleaved, .planar⟩)] :
        List (Instr × Nat × CvtForm)) →
    ∀ s : State, s.mem.wf = true → (cvtAccess f s).Ok s.params →
      ∃ t, exec i s = .next t ∧
        (∃ nan : Nat → Word, (∀ e, f32IsNaN (nan e) = true) ∧
          Stored s.mem t.mem (cvtAccess f s) fun e =>
            (fmul (nan e) (i2f (sextLow bits (s.mem.readElem f.ws ((cvtAccess f s).src e)))) (s.reg Reg.SCL)).toNat) ∧
        SameRegsBut [] s t ∧ SameCtxBut [] s t ∧ Completed s t

/-- R104, R114 to R117 (CVT.F32.I16, CVT.F32P.I16, CVT.F32.I8, CVT.F32P.I8): each element is multiplied by SCL, cast by
f2i, and its low bits are stored, without saturation; nothing else changes. `free` stands for the element U1 leaves open,
`nan` for the payload U4 leaves open. -/
def Obligations.FloatToFixedConverts : Prop :=
  ∀ (i : Instr) (f : CvtForm),
    (i, f) ∈ ([(.cvtF32I16, ⟨4, 2, .interleaved, .interleaved⟩), (.cvtF32PI16, ⟨4, 2, .planar, .interleaved⟩),
      (.cvtF32I8, ⟨4, 1, .interleaved, .interleaved⟩), (.cvtF32PI8, ⟨4, 1, .planar, .interleaved⟩)] :
        List (Instr × CvtForm)) →
    ∀ s : State, s.mem.wf = true → (cvtAccess f s).Ok s.params →
      ∃ t, exec i s = .next t ∧
        (∃ nan free : Nat → Word, (∀ e, f32IsNaN (nan e) = true) ∧
          Stored s.mem t.mem (cvtAccess f s) fun e =>
            (f2i (free e) s.params.f2iRound
              (fmul (nan e) (s.mem.readElem 4 ((cvtAccess f s).src e)) (s.reg Reg.SCL))).toNat % 2 ^ (8 * f.wd)) ∧
        SameRegsBut [] s t ∧ SameCtxBut [] s t ∧ Completed s t

/-- R105, R118, R119 (CVT.I16P.I16, CVT.I16.I16P): each element arrives bit for bit; nothing else changes. -/
def Obligations.ReshuffleMovesElements : Prop :=
  ∀ (i : Instr) (f : CvtForm),
    (i, f) ∈ ([(.cvtI16PI16, ⟨2, 2, .planar, .interleaved⟩), (.cvtI16I16P, ⟨2, 2, .interleaved, .planar⟩)] :
      List (Instr × CvtForm)) →
    ∀ s : State, s.mem.wf = true → (cvtAccess f s).Ok s.params →
      ∃ t, exec i s = .next t ∧
        Stored s.mem t.mem (cvtAccess f s) (fun e => s.mem.readN ((cvtAccess f s).src e) 2) ∧
        SameRegsBut [] s t ∧ SameCtxBut [] s t ∧ Completed s t

/-- R118, R119 ("the inverse of rule R118 for the same n"): 16-bit samples taken apart by CVT.I16.I16P and put together
again by CVT.I16P.I16, from the planes just written to a third place, are the original samples. -/
def Obligations.ReshuffleThereAndBack : Prop :=
  ∀ (s t u : State) (back : Word), s.mem.wf = true → exec .cvtI16I16P s = .next t →
    exec .cvtI16PI16 (((t.setReg Reg.SA (s.reg Reg.DA)).setReg Reg.SB (s.reg Reg.DB)).setReg Reg.DA back) = .next u →
    ∀ e, e < (s.reg Reg.LEN).toNat / 2 →
      u.mem.readN (back.toNat + 2 * e) 2 = s.mem.readN ((s.reg Reg.SA).toNat + 2 * e) 2

/-! ## Binary32 arithmetic -/

/-- R13: the product of two finite values has the product's sign; it is an infinity exactly when the exact product
reaches the rounding threshold of overflow; otherwise no finite value is nearer to the exact product, and between two
equally near ones it is the even one. (Units: `f32Units` counts 2^-149, so the exact product counts 2^-298.) -/
def Obligations.ProductCorrectlyRounded : Prop :=
  ∀ nan a b : Word, f32IsFinite a = true → f32IsFinite b = true →
    let r := fmul nan a b
    let exact := f32Units a * f32Units b
    f32Neg r = xor (f32Neg a) (f32Neg b) ∧
    (f32IsInf r = true ↔ (2 ^ 25 - 1) * 2 ^ 252 * 2 ^ 149 ≤ |exact|) ∧
    (f32IsInf r = false → f32IsFinite r = true ∧ ∀ c : Word, f32IsFinite c = true →
      |f32Units r * 2 ^ 149 - exact| ≤ |f32Units c * 2 ^ 149 - exact| ∧
      (|f32Units r * 2 ^ 149 - exact| = |f32Units c * 2 ^ 149 - exact| → f32Units c ≠ f32Units r → f32Frac r % 2 = 0))

/-- R13, R165: the sum of two finite values is rounded in the same way; an exactly zero sum is +0.0 unless both terms are
negative. -/
def Obligations.SumCorrectlyRounded : Prop :=
  ∀ nan a b : Word, f32IsFinite a = true → f32IsFinite b = true →
    let r := fadd nan a b
    let exact := f32Units a + f32Units b
    (exact = 0 → r = if f32Neg a && f32Neg b then 0x80000000 else 0) ∧
    (f32IsInf r = true ↔ (2 ^ 25 - 1) * 2 ^ 252 ≤ |exact|) ∧
    (f32IsInf r = true → f32Neg r = decide (exact < 0)) ∧
    (f32IsInf r = false → f32IsFinite r = true ∧ ∀ c : Word, f32IsFinite c = true →
      |f32Units r - exact| ≤ |f32Units c - exact| ∧
      (|f32Units r - exact| = |f32Units c - exact| → f32Units c ≠ f32Units r → f32Frac r % 2 = 0))

/-- R13: fmul and fadd give a NaN exactly for a NaN operand, infinity times zero, and infinity minus infinity. -/
def Obligations.NaNResultsExactlyWhenInvalid : Prop :=
  ∀ nan a b : Word, f32IsNaN nan = true →
    (f32IsNaN (fmul nan a b) = true ↔
      f32IsNaN a = true ∨ f32IsNaN b = true ∨ (f32IsInf a = true ∧ f32IsFinite b = true ∧ f32Units b = 0) ∨
        (f32IsInf b = true ∧ f32IsFinite a = true ∧ f32Units a = 0)) ∧
    (f32IsNaN (fadd nan a b) = true ↔
      f32IsNaN a = true ∨ f32IsNaN b = true ∨ (f32IsInf a = true ∧ f32IsInf b = true ∧ f32Neg a ≠ f32Neg b))

/-- R13: `i2f(z)` for |z| < 2^24 is the binary32 value equal to z. -/
def Obligations.IntegersConvertExactly : Prop :=
  ∀ z : Int, |z| < 2 ^ 24 → f32IsFinite (i2f z) = true ∧ f32Units (i2f z) = z * 2 ^ 149

/-- R14: `f2i(t)` is `trunc(t)` for a finite t whose truncation is in the 32-bit signed range. -/
def Obligations.FloatTruncatesTowardZero : Prop :=
  ∀ free t : Word, f32IsFinite t = true →
    -2 ^ 31 ≤ (f32Units t).tdiv (2 ^ 149) → (f32Units t).tdiv (2 ^ 149) ≤ 2 ^ 31 - 1 →
      (f2i free .towardZero t).toInt = (f32Units t).tdiv (2 ^ 149)

/-- R120: a 16-bit or 8-bit value converted with scale 2^p and back with scale 2^-p, p in -100..100, is unchanged, under
either setting of F2I_ROUND. -/
def Obligations.FixedFloatFixedRoundTrip : Prop :=
  ∀ (n : Nat) (p : Int) (raw nan free : Word) (mode : F2IRound), n = 8 ∨ n = 16 → -100 ≤ p → p ≤ 100 →
    (floatToFixed free mode (pow2Pattern (-p)) (fixedToFloat nan n (pow2Pattern p) raw)).setWidth n = raw.setWidth n

/-- R121: a finite float f whose product with the scale 2^p lies inside the destination range comes back, through scale
2^-p, within one quantization step 2^-p of f, for every p at which both scales are binary32 values (both sides are
multiplied by 2^(p+127) to stay in whole units of 2^-149). -/
def Obligations.FloatFixedFloatRoundTrip : Prop :=
  ∀ (n : Nat) (p : Int) (f nan free : Word), n = 8 ∨ n = 16 → -127 ≤ p → p ≤ 127 → f32IsFinite f = true →
    -2 ^ (n - 1) * 2 ^ 276 ≤ f32Units f * 2 ^ (p + 127).toNat → f32Units f * 2 ^ (p + 127).toNat < 2 ^ (n - 1) * 2 ^ 276 →
    let back := fixedToFloat nan n (pow2Pattern (-p)) (floatToFixed free .towardZero (pow2Pattern p) f)
    f32IsFinite back = true ∧ |f32Units back - f32Units f| * 2 ^ (p + 127).toNat < 2 ^ 276

/-! ## The 12-bit unpacker -/

/-- R131, R132, R133, R134: U12.F32 writes, for each whole triplet of pending and source bytes, two finite floats equal to
A / 32768 and B / 32768, leaves the rest in CRY in canonical form, and changes nothing else. -/
def Obligations.UnpackerDecodesTriplets : Prop :=
  ∀ s : State, s.mem.wf = true → carryPhase (s.reg Reg.CRY) ≠ 3 → (u12Access s).Ok s.params →
    ∃ t, exec .u12F32 s = .next t ∧
      (∃ val : Nat → Word, Stored s.mem t.mem (u12Access s) (fun e => (val e).toNat) ∧
        ∀ e, e < (u12Access s).nd → f32IsFinite (val e) = true ∧ f32Units (val e) = u12Value s e * 2 ^ 134 ∧
          (u12Value s e = 0 → val e = 0)) ∧
      (t.reg Reg.CRY).toNat = u12CarryOut s ∧ SameRegsBut [Reg.CRY] s t ∧ SameCtxBut [] s t ∧ Completed s t

/-- R135: with PHASE = 3 U12.F32 raises F_BAD_PHASE (code 3) and halts the block, whatever memory holds or lacks:
nothing is read or written and CRY keeps its value. U12.F32 itself never leaves PHASE = 3. -/
def Obligations.InvalidPhaseFaults : Prop :=
  ∀ s : State,
    (carryPhase (s.reg Reg.CRY) = 3 → ∃ t, exec .u12F32 s = .next t ∧ FaultTaken s t 3 0x20000000) ∧
    (carryPhase (s.reg Reg.CRY) ≠ 3 → ∀ t, exec .u12F32 s = .next t → carryPhase (t.reg Reg.CRY) ≠ 3)

/-- R138: a stream unpacked by one command, or cut at any byte boundaries into one or more commands, each taking the carry
the one before it left and each with SA and DA advanced (R136 d), gives the same memory and the same final carry. -/
def Obligations.UnpackerSplitInvariance : Prop :=
  ∀ (s t : State) (pieces : List Nat), s.mem.wf = true → carryPhase (s.reg Reg.CRY) ≠ 3 → pieces ≠ [] →
    (s.reg Reg.LEN).toNat = pieces.sum → exec .u12F32 s = .next t →
      ∃ u, unpackPieces pieces s = some u ∧ u.mem = t.mem ∧ u.reg Reg.CRY = t.reg Reg.CRY

/-- R139: U12.F32 keeps no state in the block but CRY, and its result depends only on CRY, LEN and the source bytes: two machines that agree on those, whatever
else they hold and wherever their buffers lie, decode the same samples and the same carry. -/
def Obligations.UnpackerHasNoHiddenState : Prop :=
  ∀ s s' t t' : State, s.mem.wf = true → s'.mem.wf = true → carryPhase (s.reg Reg.CRY) ≠ 3 →
    s'.reg Reg.CRY = s.reg Reg.CRY → s'.reg Reg.LEN = s.reg Reg.LEN →
    (∀ j, j < (s.reg Reg.LEN).toNat → s'.mem.read ((s'.reg Reg.SA).toNat + j) = s.mem.read ((s.reg Reg.SA).toNat + j)) →
    exec .u12F32 s = .next t → exec .u12F32 s' = .next t' →
      t'.reg Reg.CRY = t.reg Reg.CRY ∧ SameRegsBut [Reg.CRY] s t ∧ SameCtxBut [] s t ∧ (u12Access s').nd = (u12Access s).nd ∧
      ∀ e, e < (u12Access s).nd → t'.mem.readN ((u12Access s').dst e) 4 = t.mem.readN ((u12Access s).dst e) 4

/-! ## Filters -/

/-- R151 to R154, R33, R35 (FIR.INITF, FIR.INITX): when the checks pass, the context is created with the operands as its
fields, the taps copied bit for bit and padded with zeros, the history in use zeroed, and RES = 0; nothing else changes. -/
def Obligations.InitCreatesFilter : Prop :=
  ∀ (dom : Domain) (c : CtxId) (s : State), InitChecksPass dom c s → (initAccess dom s).Ok s.params →
    ∃ t, exec (initInstr dom c) s = .next t ∧
      (t.context c).valid = true ∧ (t.context c).dom = dom ∧ (t.context c).dec.toNat = (s.reg Reg.DA).toNat ∧
      (t.context c).int.toNat = (s.reg Reg.DB).toNat ∧ (t.context c).ntaps.toNat = (s.reg Reg.LEN).toNat ∧
      (t.context c).maxblk = s.reg Reg.SB ∧
      (∀ i : Fin 64, (t.context c).tap[i].toNat =
        if i.val < (s.reg Reg.LEN).toNat then s.mem.readN ((s.reg Reg.SA).toNat + dom.width * i.val) dom.width else 0) ∧
      (∀ i : Fin 128, i.val < 2 * (s.reg Reg.LEN).toNat → (t.context c).hist[i] = 0) ∧
      t.reg Reg.RES = 0 ∧ SameRegsBut [Reg.RES] s t ∧ SameCtxBut [c] s t ∧ SameMem s t ∧ Completed s t

/-- R151, R155, R198, R201: an init that cannot create the filter writes ERR_BUSY, ERR_RANGE or ERR_NOMEM, the first that
applies, to RES and changes nothing else. -/
def Obligations.InitErrorLeavesOnlyRes : Prop :=
  ∀ (dom : Domain) (c : CtxId) (s : State) (code : Int),
    ((s.context c).valid = true ∧ code = s.params.errBusy) ∨
    ((s.context c).valid = false ∧
      ((s.reg Reg.LEN).toNat < 1 ∨ 64 < (s.reg Reg.LEN).toNat ∨ 6 < (s.reg Reg.DA).toNat ∨ 2 < (s.reg Reg.DB).toNat ∨
        (s.reg Reg.SB).toNat < 2 * (s.reg Reg.LEN).toNat) ∧ code = s.params.errRange) ∨
    ((s.context c).valid = false ∧ (1 ≤ (s.reg Reg.LEN).toNat ∧ (s.reg Reg.LEN).toNat ≤ 64) ∧
      (s.reg Reg.DA).toNat ≤ 6 ∧ (s.reg Reg.DB).toNat ≤ 2 ∧ 2 * (s.reg Reg.LEN).toNat ≤ (s.reg Reg.SB).toNat ∧
      s.params.ctxCapBytes <
        (2 * (s.reg Reg.LEN).toNat + (s.reg Reg.SB).toNat * 2 ^ (s.reg Reg.DB).toNat) * dom.width ∧
      code = s.params.errNoMem) →
    ∃ t, exec (initInstr dom c) s = .next t ∧ t.reg Reg.RES = BitVec.ofInt 32 code ∧
      SameRegsBut [Reg.RES] s t ∧ t.ctx = s.ctx ∧ t.mem = s.mem ∧ Completed s t

/-- R197: the patterns of the three error codes at the defaults of R6, as FIR.INITF leaves them in RES. -/
def Obligations.DefaultErrorPatterns : Prop :=
  BitVec.ofInt 32 Params.default.errBusy = 0xFFFFFFF0 ∧ BitVec.ofInt 32 Params.default.errRange = 0xFFFFFFEA ∧
  BitVec.ofInt 32 Params.default.errNoMem = 0xFFFFFFF4 ∧ Params.default.errorsOk = true

/-- R173, R194: FIR.FREE of a valid context leaves it with every field 0 and changes nothing else; of an invalid one it
raises F_BAD_CTX (code 4). -/
def Obligations.FreeDestroysFilter : Prop :=
  ∀ (c : CtxId) (s : State),
    ((s.context c).valid = true → ∃ t, exec (.firFree c) s = .next t ∧ (t.context c).valid = false ∧
      (t.context c).dom = .F ∧ (t.context c).dec = 0 ∧ (t.context c).int = 0 ∧ (t.context c).ntaps = 0 ∧
      (t.context c).maxblk = 0 ∧ SameRegsBut [] s t ∧ SameCtxBut [c] s t ∧ SameMem s t ∧ Completed s t) ∧
    ((s.context c).valid = false → ∃ t, exec (.firFree c) s = .next t ∧
      FaultTaken s t 4 (BitVec.ofNat 32 (0x34000000 + 65536 * c.val)))

/-- R157, R201 to R203 (FIR.WORKF, FIR.WORKX): F_BAD_CTX (4), F_DOMAIN (5), F_SHORT_BLOCK (2), F_BLOCK_LEN (6), the first
whose condition holds, and nothing but the fault record changes. -/
def Obligations.WorkFaultsInOrder : Prop :=
  ∀ (dom : Domain) (c : CtxId) (s : State) (code : BitVec 4),
    (if (s.context c).valid = false then code = 4
     else if (s.context c).dom ≠ dom then code = 5
     else if (s.reg Reg.LEN).toNat < 2 * (s.context c).ntaps.toNat then code = 2
     else code = 6 ∧ ((s.context c).maxblk.toNat < (s.reg Reg.LEN).toNat ∨ (s.reg Reg.LEN).toNat % 2 = 1 ∨
       (s.reg Reg.LEN).toNat * 2 ^ (s.context c).int.toNat % 2 ^ ((s.context c).dec.toNat + 1) ≠ 0)) →
    ∃ t, exec (workInstr dom c) s = .next t ∧
      FaultTaken s t code (BitVec.ofNat 32 ((match dom with | .F => 0x32000000 | .X => 0x33000000) + 65536 * c.val))

/-- R158 to R161, R166, R169, R170, R172: FIR.WORKX writes `(N * 2^k) >> d` samples, each the low 16 bits of the exact sum
of tap times sample shifted right by 16, rewrites the history with the last 2L samples of the stream, puts the count in
RES, and changes nothing else. -/
def Obligations.FixedPointFilterWorks : Prop :=
  ∀ (c : CtxId) (s : State), s.mem.wf = true → (s.context c).Inv →
    WorkChecksPass .X (s.context c) (s.reg Reg.LEN).toNat → (workAccess .X (s.context c) s).Ok s.params →
    ∃ t, exec (.firWorkX c) s = .next t ∧
      Stored s.mem t.mem (workAccess .X (s.context c) s) (fun o =>
        ((∑ i ∈ Finset.range (s.context c).ntaps.toNat,
          sextLow 16 (tapAt (s.context c) i) * sextLow 16 (tapSample .X (s.context c) s o i)) / 2 ^ 16 % 2 ^ 16).toNat) ∧
      t.context c = { s.context c with hist := (t.context c).hist } ∧
      (∀ i : Fin 128, i.val < 2 * (s.context c).ntaps.toNat → (t.context c).hist[i] =
        streamAt .X (s.context c) s ((s.reg Reg.LEN).toNat * 2 ^ (s.context c).int.toNat + i.val)) ∧
      (∀ i : Fin 128, 2 * (s.context c).ntaps.toNat ≤ i.val → (t.context c).hist[i] = (s.context c).hist[i]) ∧
      (t.reg Reg.RES).toNat = (s.reg Reg.LEN).toNat * 2 ^ (s.context c).int.toNat / 2 ^ (s.context c).dec.toNat ∧
      SameRegsBut [Reg.RES] s t ∧ SameCtxBut [c] s t ∧ Completed s t

/-- R158 to R161, R164, R169 to R171, at the default of FDOT: FIR.WORKF does the same with the sum taken from +0.0 by
ascending tap index, each product and each sum rounded to binary32. `nan` stands for the payload U4 leaves open. -/
def Obligations.FloatFilterWorks : Prop :=
  ∀ (c : CtxId) (s : State), s.mem.wf = true → (s.context c).Inv → s.params.fdot = FDot.default →
    WorkChecksPass .F (s.context c) (s.reg Reg.LEN).toNat → (workAccess .F (s.context c) s).Ok s.params →
    ∃ t, exec (.firWorkF c) s = .next t ∧
      (∃ nan : Nat → Word, (∀ o, f32IsNaN (nan o) = true) ∧
        Stored s.mem t.mem (workAccess .F (s.context c) s) fun o =>
          ((List.range (s.context c).ntaps.toNat).foldl (fun acc i =>
            fadd (nan o) acc (fmul (nan o) (tapAt (s.context c) i) (tapSample .F (s.context c) s o i))) 0).toNat) ∧
      t.context c = { s.context c with hist := (t.context c).hist } ∧
      (∀ i : Fin 128, i.val < 2 * (s.context c).ntaps.toNat → (t.context c).hist[i] =
        streamAt .F (s.context c) s ((s.reg Reg.LEN).toNat * 2 ^ (s.context c).int.toNat + i.val)) ∧
      (∀ i : Fin 128, 2 * (s.context c).ntaps.toNat ≤ i.val → (t.context c).hist[i] = (s.context c).hist[i]) ∧
      (t.reg Reg.RES).toNat = (s.reg Reg.LEN).toNat * 2 ^ (s.context c).int.toNat / 2 ^ (s.context c).dec.toNat ∧
      SameRegsBut [Reg.RES] s t ∧ SameCtxBut [c] s t ∧ Completed s t

/-- R6, R164 (FDOT): summing by the tree that adds the taps one by one to the start value, from tap 0 on, is the ascending
order, for every start value and precision. How a tree is summed is the model's choice (log entry 12). -/
def Obligations.TreeOrderCoversAscending : Prop :=
  ∀ (nan start : Word) (p : DotPrecision) (taps samples : List Word), (taps.zip samples).length ≤ 64 →
    dotF (.summed (.tree (ascendingTree 64)) start p) nan taps samples = dotF (.summed .ascending start p) nan taps samples

/-- R6, R164 (FDOT): an accumulator wide enough to hold every sum of 64 products exactly (1024 bits) gives, in either
order, the exact sum of finite terms rounded once to binary32. What the precision `wide` is, is the model's choice (log
entry 12). -/
def Obligations.WideAccumulatorRoundsOnce : Prop :=
  ∀ (order : TapOrder) (bits : Nat) (nan : Word) (taps samples : List Word), order = .ascending ∨ order = .descending →
    1024 ≤ bits → (taps.zip samples).length ≤ 64 →
    (∀ t ∈ taps.zip samples, f32IsFinite t.1 = true ∧ f32IsFinite t.2 = true) →
    let r := dotF (.summed order 0 (.wide bits)) nan taps samples
    let exact := ((taps.zip samples).map fun t : Word × Word => f32Units t.1 * f32Units t.2).sum
    (f32IsInf r = true ↔ (2 ^ 25 - 1) * 2 ^ 252 * 2 ^ 149 ≤ |exact|) ∧
    (f32IsInf r = true → f32Neg r = decide (exact < 0)) ∧
    (f32IsInf r = false → f32IsFinite r = true ∧ ∀ c : Word, f32IsFinite c = true →
      |f32Units r * 2 ^ 149 - exact| ≤ |f32Units c * 2 ^ 149 - exact| ∧
      (|f32Units r * 2 ^ 149 - exact| = |f32Units c * 2 ^ 149 - exact| → f32Units c ≠ f32Units r → f32Frac r % 2 = 0))

/-- R160: expansion repeats each I/Q pair 2^k times, bit for bit. -/
def Obligations.ExpansionRepeatsPairs : Prop :=
  ∀ (k : Nat) (x : List Word), x.length % 2 = 0 →
    (expandBlock k x).length = x.length * 2 ^ k ∧
    ∀ m r ch, m < x.length / 2 → r < 2 ^ k → ch < 2 → (expandBlock k x)[2 * (m * 2 ^ k + r) + ch]? = x[2 * m + ch]?

/-- R168: bits 31..16 of the exact sum are those of the sum kept in any accumulator of n bits, n at least 32, that
wraps. -/
def Obligations.AccumulatorWidthUnobservable : Prop :=
  ∀ (n : Nat) (taps samples : List Word), 32 ≤ n →
    (dotX taps samples).toNat =
      (((taps.zip samples).map fun t : Word × Word => BitVec.ofInt n (sextLow 16 t.1 * sextLow 16 t.2)).foldl (· + ·)
        0).toNat / 2 ^ 16 % 2 ^ 16

/-- R174 in domain X: a block cut in two, each part passing the checks, gives the same memory, the same history and the
same number of samples as the uncut block. -/
def Obligations.FixedPointHistoryContinuity : Prop :=
  ∀ (c : CtxId) (s t : State) (n1 n2 : Nat), s.mem.wf = true → (s.context c).Inv →
    (s.reg Reg.LEN).toNat = n1 + n2 → WorkChecksPass .X (s.context c) (n1 + n2) →
    WorkChecksPass .X (s.context c) n1 → WorkChecksPass .X (s.context c) n2 → exec (.firWorkX c) s = .next t →
      ∃ t1 t2, exec (.firWorkX c) (s.setReg Reg.LEN (BitVec.ofNat 32 n1)) = .next t1 ∧
        exec (.firWorkX c) (((t1.setReg Reg.SA (s.reg Reg.SA + BitVec.ofNat 32 (2 * n1))).setReg Reg.DA
          (s.reg Reg.DA + 2 * t1.reg Reg.RES)).setReg Reg.LEN (BitVec.ofNat 32 n2)) = .next t2 ∧
        t2.mem = t.mem ∧ t2.context c = t.context c ∧ t1.reg Reg.RES + t2.reg Reg.RES = t.reg Reg.RES

/-- R174 in domain F: the same, bit for bit, for every output sample that is not a NaN (a NaN is a NaN in both, U4). -/
def Obligations.FloatHistoryContinuity : Prop :=
  ∀ (c : CtxId) (s t : State) (n1 n2 : Nat), s.mem.wf = true → (s.context c).Inv → s.params.fdot = FDot.default →
    (s.reg Reg.LEN).toNat = n1 + n2 → WorkChecksPass .F (s.context c) (n1 + n2) →
    WorkChecksPass .F (s.context c) n1 → WorkChecksPass .F (s.context c) n2 → exec (.firWorkF c) s = .next t →
      ∃ t1 t2, exec (.firWorkF c) (s.setReg Reg.LEN (BitVec.ofNat 32 n1)) = .next t1 ∧
        exec (.firWorkF c) (((t1.setReg Reg.SA (s.reg Reg.SA + BitVec.ofNat 32 (4 * n1))).setReg Reg.DA
          (s.reg Reg.DA + 4 * t1.reg Reg.RES)).setReg Reg.LEN (BitVec.ofNat 32 n2)) = .next t2 ∧
        (∀ o, o < (workAccess .F (s.context c) s).nd →
          t2.mem.readElem 4 ((s.reg Reg.DA).toNat + 4 * o) = t.mem.readElem 4 ((s.reg Reg.DA).toNat + 4 * o) ∨
          (f32IsNaN (t2.mem.readElem 4 ((s.reg Reg.DA).toNat + 4 * o)) = true ∧
            f32IsNaN (t.mem.readElem 4 ((s.reg Reg.DA).toNat + 4 * o)) = true)) ∧
        t2.context c = t.context c ∧ t1.reg Reg.RES + t2.reg Reg.RES = t.reg Reg.RES

/-- R178: an impulse filter in domain F (tap 0 = 1.0, every other tap 0, d = k = 0) passes every finite block through a
finite history with no delay; a -0.0 input gives +0.0. -/
def Obligations.ImpulseFilterPassesThrough : Prop :=
  ∀ (c : CtxId) (s t : State), s.mem.wf = true → (s.context c).Inv → s.params.fdot = FDot.default →
    WorkChecksPass .F (s.context c) (s.reg Reg.LEN).toNat → (s.context c).dec = 0 → (s.context c).int = 0 →
    tapAt (s.context c) 0 = 0x3F800000 → (∀ i, 1 ≤ i → i < 64 → tapAt (s.context c) i = 0) →
    (∀ j, j < 2 * (s.context c).ntaps.toNat + (s.reg Reg.LEN).toNat →
      f32IsFinite (streamAt .F (s.context c) s j) = true) →
    exec (.firWorkF c) s = .next t →
      t.reg Reg.RES = s.reg Reg.LEN ∧
      ∀ o, o < (s.reg Reg.LEN).toNat → t.mem.readElem 4 ((s.reg Reg.DA).toNat + 4 * o) =
        if inputAt .F s o = 0x80000000 then 0 else inputAt .F s o

/-! ## The registers the host reads -/

/-- R25: STATUS holds HALT in bit 0, FCAUSE in bits 7..4, VALID of context c in bit 8+c, and 0 elsewhere. -/
def Obligations.StatusLayout : Prop :=
  ∀ s : State, wordBits (statusReg s) 0 1 = (if s.halt then 1 else 0) ∧ wordBits (statusReg s) 1 3 = 0 ∧
    wordBits (statusReg s) 4 4 = s.fcause.toNat ∧
    (∀ c : CtxId, wordBits (statusReg s) (8 + c.val) 1 = if (s.context c).valid then 1 else 0) ∧
    wordBits (statusReg s) 12 20 = 0

/-- R28: FCFG and FMAX hold the fields of a valid context at their places, 0 elsewhere, and 0 for an invalid one. -/
def Obligations.FilterRegisterLayout : Prop :=
  ∀ f : Context,
    (f.valid = true → wordBits (fcfgReg f) 0 1 = 1 ∧ wordBits (fcfgReg f) 1 1 = (if f.dom = .X then 1 else 0) ∧
      wordBits (fcfgReg f) 2 2 = 0 ∧ wordBits (fcfgReg f) 4 3 = f.dec.toNat ∧ wordBits (fcfgReg f) 7 1 = 0 ∧
      wordBits (fcfgReg f) 8 2 = f.int.toNat ∧ wordBits (fcfgReg f) 10 6 = 0 ∧
      wordBits (fcfgReg f) 16 7 = f.ntaps.toNat ∧ wordBits (fcfgReg f) 23 9 = 0 ∧ fmaxReg f = f.maxblk) ∧
    (f.valid = false → fcfgReg f = 0 ∧ fmaxReg f = 0)

/-- R31: which number the host reads which register by; every other number reads 0; no move of the host but reset
changes what any number reads. -/
def Obligations.HostPortNumbers : Prop :=
  ∀ s : State, (∀ r : Reg, hostReadReg r.val s = s.reg r) ∧ hostReadReg 8 s = statusReg s ∧ hostReadReg 9 s = s.fcmd ∧
    (∀ c : CtxId, hostReadReg (16 + 2 * c.val) s = fcfgReg (s.context c) ∧
      hostReadReg (17 + 2 * c.val) s = fmaxReg (s.context c)) ∧
    (∀ n, 10 ≤ n ∧ n < 16 ∨ 24 ≤ n → hostReadReg n s = 0) ∧
    ∀ (m : HostMove) (n : Nat), m ≠ .reset → hostReadReg n (hostMove m s) = hostReadReg n s

/-! ## Rules over all commands -/

/-- R201 (3), R52, R56 to R58: a command answers a next state exactly when no element it accesses is misaligned, past
2^32, unimplemented or overlapping; a command that faults or returns an error code accesses none. -/
def Obligations.CompletesExactlyWhenAccessible : Prop :=
  ∀ (i : Instr) (s : State), (∃ t, exec i s = .next t) ↔ (accessOf i s).Ok s.params

/-- R53, R56, R57, R58: a command that stops names what is wrong: an unimplemented byte it accesses, or a misaligned, an
overlapping or an overflowing element. -/
def Obligations.StopsNameTheirCause : Prop :=
  ∀ (i : Instr) (s : State),
    (∀ r, exec i s = .fault r → ∃ a, r = .unimplementedMemory a ∧ memOK s.params a = false ∧
      ((accessOf i s).Reads a ∨ ¬ (accessOf i s).Outside a)) ∧
    (∀ r, exec i s = .refused r →
      (r = .addressOverflow ∧ ((∃ e, e < (accessOf i s).ns ∧ 2 ^ 32 < (accessOf i s).src e + (accessOf i s).ws) ∨
        ∃ e, e < (accessOf i s).nd ∧ 2 ^ 32 < (accessOf i s).dst e + (accessOf i s).wd)) ∨
      (r = .misaligned ∧ ((∃ e, e < (accessOf i s).ns ∧ (accessOf i s).src e % (accessOf i s).ws ≠ 0) ∨
        ∃ e, e < (accessOf i s).nd ∧ (accessOf i s).dst e % (accessOf i s).wd ≠ 0)) ∨
      (r = .overlap ∧ ¬ ((∀ e, e < (accessOf i s).nd → ∀ f, f < (accessOf i s).ns →
          Apart ((accessOf i s).dst e) (accessOf i s).wd ((accessOf i s).src f) (accessOf i s).ws) ∧
        (∀ e, e < (accessOf i s).nd → ∀ f, f < (accessOf i s).nd → e ≠ f →
          Apart ((accessOf i s).dst e) (accessOf i s).wd ((accessOf i s).dst f) (accessOf i s).wd))))

/-- R22: only the named writes to operand registers exist. -/
def Obligations.OnlyNamedRegistersWritten : Prop :=
  ∀ (i : Instr) (s t : State), exec i s = .next t → SameRegsBut (writtenRegs i) s t

/-- R203: a step that runs a presented word either completes a command, leaving HALT, FCAUSE and FCMD as they were, or
takes a fault of cause 1..6, which writes HALT, FCAUSE and FCMD (the word) and changes nothing else. -/
def Obligations.FaultsArePrecise : Prop :=
  ∀ (s t : State) (w : Word), s.halt = false → s.program[s.cmdIndex]? = some w → step s = .next t →
    Completed s t ∨ ∃ code : BitVec 4, 1 ≤ code.toNat ∧ code.toNat ≤ 6 ∧ FaultTaken s t code w

/-- R199: a command is run once and either succeeds, or shows that the host broke its contract: a fault of cause 1..6,
after which nothing is tried again, or a violated precondition of R52, R56, R57, R58, on which there is no next state. No
cause stands for a capability mismatch. -/
def Obligations.CommandsSucceedOrAreViolations : Prop :=
  (∀ cause : Cause, 1 ≤ cause.code.toNat ∧ cause.code.toNat ≤ 6) ∧
  ∀ (s : State) (w : Word), s.halt = false → s.program[s.cmdIndex]? = some w →
    (∃ t, step s = .next t ∧ Completed s t) ∨
    (∃ (t : State) (cause : Cause), step s = .next t ∧ FaultTaken s t cause.code w ∧ step t = .next t) ∨
    ∃ i, decode w = .ok i ∧ ¬ (accessOf i s).Ok s.params ∧ ∀ t, step s ≠ .next t

/-- R55: the only bytes of memory a command changes are those of its destination elements. -/
def Obligations.MemoryChangesOnlyAtDestination : Prop :=
  ∀ (i : Instr) (s t : State), s.mem.wf = true → exec i s = .next t →
    ∀ a, (accessOf i s).Outside a → t.mem.read a = s.mem.read a

/-- R55, R38: the only bytes of memory a command depends on are those of its source elements: with any other memory that
agrees on them it completes too, with the same registers, contexts and destination elements. -/
def Obligations.MemoryReadOnlyAtSource : Prop :=
  ∀ (i : Instr) (s t : State) (m : Memory), s.mem.wf = true → m.wf = true →
    (∀ a, (accessOf i s).Reads a → m.read a = s.mem.read a) → exec i s = .next t →
      ∃ t', exec i (s.setMem m) = .next t' ∧ t'.x = t.x ∧ t'.ctx = t.ctx ∧ t'.halt = t.halt ∧ t'.fcause = t.fcause ∧
        t'.fcmd = t.fcmd ∧ t'.cmdIndex = t.cmdIndex ∧
        ∀ e, e < (accessOf i s).nd →
          t'.mem.readN ((accessOf i s).dst e) (accessOf i s).wd = t.mem.readN ((accessOf i s).dst e) (accessOf i s).wd

/-- R32, R209: a command reads and writes no field, tap or history of a context it does not name: replacing such a
context beforehand is the same as replacing it afterwards. -/
def Obligations.ContextsShareNothing : Prop :=
  ∀ (i : Instr) (s : State) (d : CtxId) (g : Context), d ∉ namedCtx i →
    exec i (s.setContext d g) = mapNext (fun t => t.setContext d g) (exec i s)

/-- R29, R33, R34, R37, R190: every step keeps the invariant: memory canonical and inside the address space, the fault
record well formed, every context legal and within its storage. -/
def Obligations.StepKeepsInvariant : Prop :=
  ∀ s t : State, s.Inv → step s = .next t → t.Inv

/-- R220: the invariant holds right after reset. -/
def Obligations.ResetMeetsInvariant : Prop := State.reset.Inv

/-- R207: every move of the host keeps the invariant. -/
def Obligations.HostKeepsInvariant : Prop :=
  ∀ (m : HostMove) (s : State), s.Inv → (hostMove m s).Inv
end

