-- ==== Sys2Proof/Laws/State.lean ====
section
/-! SUPPORT. One lemma per field of State per update, and the accessors over the updates. -/

namespace Sys2Proof.Machine

variable (s : State)

/-! ### setReg -/

@[simp] theorem State.setReg_x (r : Reg) (v : Word) : (s.setReg r v).x = s.x.set r v := rfl
@[simp] theorem State.setReg_halt (r : Reg) (v : Word) : (s.setReg r v).halt = s.halt := rfl
@[simp] theorem State.setReg_fcause (r : Reg) (v : Word) : (s.setReg r v).fcause = s.fcause := rfl
@[simp] theorem State.setReg_fcmd (r : Reg) (v : Word) : (s.setReg r v).fcmd = s.fcmd := rfl
@[simp] theorem State.setReg_ctx (r : Reg) (v : Word) : (s.setReg r v).ctx = s.ctx := rfl
@[simp] theorem State.setReg_mem (r : Reg) (v : Word) : (s.setReg r v).mem = s.mem := rfl
@[simp] theorem State.setReg_program (r : Reg) (v : Word) : (s.setReg r v).program = s.program := rfl
@[simp] theorem State.setReg_cmdIndex (r : Reg) (v : Word) : (s.setReg r v).cmdIndex = s.cmdIndex := rfl
@[simp] theorem State.setReg_params (r : Reg) (v : Word) : (s.setReg r v).params = s.params := rfl
@[simp] theorem State.setReg_freeTick (r : Reg) (v : Word) : (s.setReg r v).freeTick = s.freeTick := rfl

/-! ### setContext -/

@[simp] theorem State.setContext_x (c : CtxId) (f : Context) : (s.setContext c f).x = s.x := rfl
@[simp] theorem State.setContext_halt (c : CtxId) (f : Context) : (s.setContext c f).halt = s.halt := rfl
@[simp] theorem State.setContext_fcause (c : CtxId) (f : Context) : (s.setContext c f).fcause = s.fcause := rfl
@[simp] theorem State.setContext_fcmd (c : CtxId) (f : Context) : (s.setContext c f).fcmd = s.fcmd := rfl
@[simp] theorem State.setContext_ctx (c : CtxId) (f : Context) : (s.setContext c f).ctx = s.ctx.set c f := rfl
@[simp] theorem State.setContext_mem (c : CtxId) (f : Context) : (s.setContext c f).mem = s.mem := rfl
@[simp] theorem State.setContext_program (c : CtxId) (f : Context) : (s.setContext c f).program = s.program := rfl
@[simp] theorem State.setContext_cmdIndex (c : CtxId) (f : Context) : (s.setContext c f).cmdIndex = s.cmdIndex := rfl
@[simp] theorem State.setContext_params (c : CtxId) (f : Context) : (s.setContext c f).params = s.params := rfl
@[simp] theorem State.setContext_freeTick (c : CtxId) (f : Context) : (s.setContext c f).freeTick = s.freeTick := rfl

/-! ### setMem -/

@[simp] theorem State.setMem_x (m : Memory) : (s.setMem m).x = s.x := rfl
@[simp] theorem State.setMem_halt (m : Memory) : (s.setMem m).halt = s.halt := rfl
@[simp] theorem State.setMem_fcause (m : Memory) : (s.setMem m).fcause = s.fcause := rfl
@[simp] theorem State.setMem_fcmd (m : Memory) : (s.setMem m).fcmd = s.fcmd := rfl
@[simp] theorem State.setMem_ctx (m : Memory) : (s.setMem m).ctx = s.ctx := rfl
@[simp] theorem State.setMem_mem (m : Memory) : (s.setMem m).mem = m := rfl
@[simp] theorem State.setMem_program (m : Memory) : (s.setMem m).program = s.program := rfl
@[simp] theorem State.setMem_cmdIndex (m : Memory) : (s.setMem m).cmdIndex = s.cmdIndex := rfl
@[simp] theorem State.setMem_params (m : Memory) : (s.setMem m).params = s.params := rfl
@[simp] theorem State.setMem_freeTick (m : Memory) : (s.setMem m).freeTick = s.freeTick := rfl

/-! ### finish -/

@[simp] theorem State.finish_x : s.finish.x = s.x := rfl
@[simp] theorem State.finish_halt : s.finish.halt = s.halt := rfl
@[simp] theorem State.finish_fcause : s.finish.fcause = s.fcause := rfl
@[simp] theorem State.finish_fcmd : s.finish.fcmd = s.fcmd := rfl
@[simp] theorem State.finish_ctx : s.finish.ctx = s.ctx := rfl
@[simp] theorem State.finish_mem : s.finish.mem = s.mem := rfl
@[simp] theorem State.finish_program : s.finish.program = s.program := rfl
@[simp] theorem State.finish_cmdIndex : s.finish.cmdIndex = s.cmdIndex + 1 := rfl
@[simp] theorem State.finish_params : s.finish.params = s.params := rfl
@[simp] theorem State.finish_freeTick : s.finish.freeTick = s.freeTick + 1 := rfl

/-! ### raiseFault -/

@[simp] theorem State.raiseFault_x (f : Cause) (w : Word) : (s.raiseFault f w).x = s.x := rfl
@[simp] theorem State.raiseFault_halt (f : Cause) (w : Word) : (s.raiseFault f w).halt = true := rfl
@[simp] theorem State.raiseFault_fcause (f : Cause) (w : Word) : (s.raiseFault f w).fcause = f.code := rfl
@[simp] theorem State.raiseFault_fcmd (f : Cause) (w : Word) : (s.raiseFault f w).fcmd = w := rfl
@[simp] theorem State.raiseFault_ctx (f : Cause) (w : Word) : (s.raiseFault f w).ctx = s.ctx := rfl
@[simp] theorem State.raiseFault_mem (f : Cause) (w : Word) : (s.raiseFault f w).mem = s.mem := rfl
@[simp] theorem State.raiseFault_program (f : Cause) (w : Word) : (s.raiseFault f w).program = s.program := rfl
@[simp] theorem State.raiseFault_cmdIndex (f : Cause) (w : Word) : (s.raiseFault f w).cmdIndex = s.cmdIndex := rfl
@[simp] theorem State.raiseFault_params (f : Cause) (w : Word) : (s.raiseFault f w).params = s.params := rfl
@[simp] theorem State.raiseFault_freeTick (f : Cause) (w : Word) : (s.raiseFault f w).freeTick = s.freeTick := rfl

/-! ### placeWord -/

@[simp] theorem State.placeWord_x (w : Word) : (s.placeWord w).x = s.x := rfl
@[simp] theorem State.placeWord_halt (w : Word) : (s.placeWord w).halt = s.halt := rfl
@[simp] theorem State.placeWord_fcause (w : Word) : (s.placeWord w).fcause = s.fcause := rfl
@[simp] theorem State.placeWord_fcmd (w : Word) : (s.placeWord w).fcmd = s.fcmd := rfl
@[simp] theorem State.placeWord_ctx (w : Word) : (s.placeWord w).ctx = s.ctx := rfl
@[simp] theorem State.placeWord_mem (w : Word) : (s.placeWord w).mem = s.mem := rfl
@[simp] theorem State.placeWord_program (w : Word) : (s.placeWord w).program = placeAt s.program s.cmdIndex w := rfl
@[simp] theorem State.placeWord_cmdIndex (w : Word) : (s.placeWord w).cmdIndex = s.cmdIndex := rfl
@[simp] theorem State.placeWord_params (w : Word) : (s.placeWord w).params = s.params := rfl
@[simp] theorem State.placeWord_freeTick (w : Word) : (s.placeWord w).freeTick = s.freeTick := rfl

/-! ### Registers and contexts through the updates -/

@[simp] theorem State.reg_setReg_same (r : Reg) (v : Word) : (s.setReg r v).reg r = v := by
  simp [State.reg]

theorem State.reg_setReg_ne {r q : Reg} (v : Word) (h : q ≠ r) : (s.setReg r v).reg q = s.reg q := by
  simp [State.reg, Fin.val_ne_of_ne (Ne.symm h)]

@[simp] theorem State.reg_setContext (c : CtxId) (f : Context) (q : Reg) : (s.setContext c f).reg q = s.reg q := rfl
@[simp] theorem State.reg_setMem (m : Memory) (q : Reg) : (s.setMem m).reg q = s.reg q := rfl
@[simp] theorem State.reg_finish (q : Reg) : s.finish.reg q = s.reg q := rfl
@[simp] theorem State.reg_raiseFault (f : Cause) (w : Word) (q : Reg) : (s.raiseFault f w).reg q = s.reg q := rfl
@[simp] theorem State.reg_placeWord (w : Word) (q : Reg) : (s.placeWord w).reg q = s.reg q := rfl

@[simp] theorem State.context_setContext_same (c : CtxId) (f : Context) : (s.setContext c f).context c = f := by
  simp [State.context]

theorem State.context_setContext_ne {c d : CtxId} (f : Context) (h : d ≠ c) :
    (s.setContext c f).context d = s.context d := by
  simp [State.context, Fin.val_ne_of_ne (Ne.symm h)]

@[simp] theorem State.context_setReg (r : Reg) (v : Word) (d : CtxId) : (s.setReg r v).context d = s.context d := rfl
@[simp] theorem State.context_setMem (m : Memory) (d : CtxId) : (s.setMem m).context d = s.context d := rfl
@[simp] theorem State.context_finish (d : CtxId) : s.finish.context d = s.context d := rfl
@[simp] theorem State.context_raiseFault (f : Cause) (w : Word) (d : CtxId) :
    (s.raiseFault f w).context d = s.context d := rfl
@[simp] theorem State.context_placeWord (w : Word) (d : CtxId) : (s.placeWord w).context d = s.context d := rfl

/-- The word placed is the one the block takes next, unless it is halted. -/
theorem placeAt_getElem? (l : List Word) (n : Nat) (w : Word) : (placeAt l n w)[n]? = some w := by
  induction n generalizing l with
  | zero => cases l <;> simp [placeAt]
  | succ n ih => cases l <;> simp [placeAt, ih]

theorem State.fetch_placeWord (w : Word) : (s.placeWord w).fetch = if s.halt then none else some w := by
  simp [State.fetch, placeAt_getElem?]

end Sys2Proof.Machine
end

