-- ==== Sys2Proof/Laws/Access.lean ====
section
/-! SUPPORT. What guardAccess can answer, and that the ranges it checks say the same as the elements Safety.lean names. -/

namespace Sys2Proof.Machine

/-! ### guardAccess -/

/-- A range meets the rules R58, R52 and R57. -/
def ByteRange.Ok (p : Params) (r : ByteRange) : Prop :=
  r.base + r.len ≤ 2 ^ 32 ∧ (0 < r.len → r.base % r.width = 0) ∧
    ∀ a, r.base ≤ a → a < r.base + r.len → memOK p a = true

/-- No precondition of a command with these ranges is violated. -/
def RangesOk (p : Params) (srcs dsts : List ByteRange) : Prop :=
  (∀ r ∈ srcs ++ dsts, r.Ok p) ∧ anyOverlap srcs dsts = false

theorem firstHole_eq_none_iff (p : Params) (r : ByteRange) :
    firstHole p r = none ↔ ∀ a, r.base ≤ a → a < r.base + r.len → memOK p a = true := by
  simp only [firstHole, List.find?_eq_none, List.mem_map, List.mem_range, Bool.not_eq_true', Bool.not_eq_false,
    forall_exists_index, and_imp, forall_apply_eq_imp_iff₂]
  constructor
  · intro h a h1 h2
    have := h (a - r.base) (by omega)
    rwa [show r.base + (a - r.base) = a by omega] at this
  · intro h i hi
    exact h _ (by omega) (by omega)

theorem firstHole_eq_some {p : Params} {r : ByteRange} {a : Nat} (h : firstHole p r = some a) :
    r.base ≤ a ∧ a < r.base + r.len ∧ memOK p a = false := by
  have h1 := List.find?_some h
  have h2 := List.mem_of_find?_eq_some h
  simp only [List.mem_map, List.mem_range] at h2
  obtain ⟨i, hi, rfl⟩ := h2
  exact ⟨by omega, by omega, by simpa using h1⟩

/-- Everything guardAccess can answer: the state, when no precondition is violated, or one of the four stops. -/
theorem guardAccess_cases (s : State) (srcs dsts : List ByteRange) (t : State) :
    (guardAccess s srcs dsts t = .next t ∧ RangesOk s.params srcs dsts) ∨
    (∃ r ∈ [Refusal.addressOverflow, .misaligned, .overlap], guardAccess s srcs dsts t = .refused r ∧
      ¬ RangesOk s.params srcs dsts) ∨
    (∃ a, guardAccess s srcs dsts t = .fault (.unimplementedMemory a) ∧ memOK s.params a = false ∧
      (∃ r ∈ srcs ++ dsts, r.base ≤ a ∧ a < r.base + r.len) ∧ ¬ RangesOk s.params srcs dsts) := by
  unfold guardAccess
  split
  · next h =>
    refine .inr (.inl ⟨_, by simp, rfl, fun ⟨hr, _⟩ => ?_⟩)
    obtain ⟨r, hr', hp⟩ := List.any_eq_true.1 h
    have := (hr r hr').1
    simp [ByteRange.pastEnd] at hp
    omega
  · next h1 =>
    split
    · next h =>
      refine .inr (.inl ⟨_, by simp, rfl, fun ⟨hr, _⟩ => ?_⟩)
      obtain ⟨r, hr', hp⟩ := List.any_eq_true.1 h
      simp only [ByteRange.misaligned, Bool.and_eq_true, decide_eq_true_eq] at hp
      exact hp.2 ((hr r hr').2.1 hp.1)
    · next h2 =>
      split
      · next h => exact .inr (.inl ⟨_, by simp, rfl, fun ⟨_, ho⟩ => by simp [h] at ho⟩)
      · next h3 =>
        split
        · next a h =>
          obtain ⟨r, hr, ha⟩ := List.exists_of_findSome?_eq_some h
          have hole := firstHole_eq_some ha
          refine .inr (.inr ⟨a, rfl, hole.2.2, ⟨r, hr, hole.1, hole.2.1⟩, fun ⟨hr', _⟩ => ?_⟩)
          have := (hr' r hr).2.2 a hole.1 hole.2.1
          simp [hole.2.2] at this
        · next h =>
          refine .inl ⟨rfl, fun r hr => ⟨?_, ?_, ?_⟩, by simpa using h3⟩
          · by_contra hc
            exact h1 (List.any_eq_true.2 ⟨r, hr, by simp [ByteRange.pastEnd]; omega⟩)
          · intro hl
            by_contra hc
            exact h2 (List.any_eq_true.2 ⟨r, hr, by simp [ByteRange.misaligned, hl, hc]⟩)
          · exact (firstHole_eq_none_iff _ _).1 (List.findSome?_eq_none_iff.1 h r hr)

/-- guardAccess answers a next state exactly when no precondition is violated, and then it is the state handed to it. -/
theorem guardAccess_eq_next_iff (s : State) (srcs dsts : List ByteRange) (t t' : State) :
    guardAccess s srcs dsts t = .next t' ↔ t' = t ∧ RangesOk s.params srcs dsts := by
  rcases guardAccess_cases s srcs dsts t with ⟨h, hr⟩ | ⟨r, -, h, hr⟩ | ⟨a, h, -, -, hr⟩
  · simp [h, hr, eq_comm]
  · simp [h, hr]
  · simp [h, hr]

/-! ### Overlap -/

theorem anyOverlap_eq_false_iff (srcs dsts : List ByteRange) :
    anyOverlap srcs dsts = false ↔
      (∀ d ∈ dsts, ∀ q ∈ srcs, d.meets q = false) ∧ dsts.Pairwise fun d e => d.meets e = false := by
  induction dsts with
  | nil => simp [anyOverlap]
  | cons d ds ih =>
    simp only [anyOverlap, Bool.or_eq_false_iff, ih, List.pairwise_cons, List.mem_cons, forall_eq_or_imp,
      List.any_eq_false, Bool.not_eq_true]
    tauto

/-! ### One array of elements -/

theorem mul_succ_le {w e n : Nat} (h : e < n) : w * e + w ≤ w * n := by
  calc w * e + w = w * (e + 1) := by ring
    _ ≤ w * n := Nat.mul_le_mul_left w h

/-- The range of an array is in order exactly when each of its elements is. -/
theorem arrayRange_ok_iff (p : Params) {a w n : Nat} (ha : a ≤ 2 ^ 32) (hw : 0 < w) :
    (ByteRange.mk a (w * n) w).Ok p ↔ ∀ e, e < n → ElemOk p w (a + w * e) := by
  simp only [ByteRange.Ok]
  constructor
  · rintro ⟨h1, h2, h3⟩ e he
    have := mul_succ_le (w := w) he
    exact ⟨by simpa using h2 (by omega), by omega, fun j hj => h3 _ (by omega) (by omega)⟩
  · intro h
    refine ⟨?_, ?_, ?_⟩
    · cases n with
      | zero => simpa using ha
      | succ n =>
        have := (h n (by omega)).2.1
        rw [Nat.mul_succ]
        omega
    · intro hl
      have hn : 0 < n := Nat.pos_of_mul_pos_left hl
      simpa using (h 0 hn).1
    · intro x h1 h2
      have hdiv : (x - a) / w < n := by
        rw [Nat.div_lt_iff_lt_mul hw, mul_comm]
        omega
      have := (h _ hdiv).2.2 ((x - a) % w) (Nat.mod_lt _ hw)
      have hx := Nat.div_add_mod (x - a) w
      rwa [show a + w * ((x - a) / w) + (x - a) % w = x by omega] at this

/-- Two arrays share no byte exactly when no element of one shares a byte with an element of the other. -/
theorem arrayRange_meets_eq_false_iff {a w n b v m : Nat} (hw : 0 < w) (hv : 0 < v) :
    (ByteRange.mk a (w * n) w).meets ⟨b, v * m, v⟩ = false ↔
      ∀ e, e < n → ∀ f, f < m → Apart (a + w * e) w (b + v * f) v := by
  simp only [ByteRange.meets, Bool.and_eq_false_iff, decide_eq_false_iff_not]
  constructor
  · intro h e he f hf
    have h1 := mul_succ_le (w := w) he
    have h2 := mul_succ_le (w := v) hf
    have h3 : 0 < w * n := by omega
    have h4 : 0 < v * m := by omega
    unfold Apart
    omega
  · intro h
    by_contra hc
    simp only [not_or, not_not] at hc
    obtain ⟨⟨⟨hn, hm⟩, h1⟩, h2⟩ := hc
    set x := max a b with hx
    have hxa : (x - a) / w < n := by rw [Nat.div_lt_iff_lt_mul hw, mul_comm]; omega
    have hxb : (x - b) / v < m := by rw [Nat.div_lt_iff_lt_mul hv, mul_comm]; omega
    have := h _ hxa _ hxb
    have d1 := Nat.div_add_mod (x - a) w
    have d2 := Nat.div_add_mod (x - b) v
    have m1 := Nat.mod_lt (x - a) hw
    have m2 := Nat.mod_lt (x - b) hv
    unfold Apart at this
    omega

/-! ### Layouts -/

/-- The arrays of a layout: base and number of elements (R102). -/
def layoutArrays (l : Layout) (a b n : Nat) : List (Nat × Nat) :=
  match l with
  | .interleaved => [(a, n)]
  | .planar => [(a, (n + 1) / 2), (b, n / 2)]

theorem elemRanges_eq (l : Layout) (a b w n : Nat) :
    elemRanges l a b w n = (layoutArrays l a b n).map fun r => ⟨r.1, w * r.2, w⟩ := by
  cases l <;> rfl

/-- What holds of every element of a layout holds of every element of its arrays, and the other way round. -/
theorem forall_elemAddr_iff (l : Layout) (a b w n : Nat) (P : Nat → Prop) :
    (∀ e, e < n → P (elemAddr l a b w e)) ↔ ∀ r ∈ layoutArrays l a b n, ∀ i, i < r.2 → P (r.1 + w * i) := by
  cases l with
  | interleaved => simp [elemAddr, layoutArrays]
  | planar =>
    simp only [elemAddr, layoutArrays, List.mem_cons, List.not_mem_nil, or_false, forall_eq_or_imp, forall_eq]
    constructor
    · intro h
      refine ⟨fun i hi => ?_, fun i hi => ?_⟩
      · have := h (2 * i) (by omega)
        rwa [if_pos (by omega), show 2 * i / 2 = i by omega] at this
      · have := h (2 * i + 1) (by omega)
        rwa [if_neg (by omega), show (2 * i + 1) / 2 = i by omega] at this
    · rintro ⟨h1, h2⟩ e he
      split
      · exact h1 _ (by omega)
      · exact h2 _ (by omega)

theorem layoutArrays_base_le {l : Layout} {a b n : Nat} (ha : a ≤ 2 ^ 32) (hb : b ≤ 2 ^ 32) :
    ∀ r ∈ layoutArrays l a b n, r.1 ≤ 2 ^ 32 := by
  cases l <;> simp_all [layoutArrays]

theorem elemRanges_ok_iff (p : Params) (l : Layout) {a b w n : Nat} (ha : a ≤ 2 ^ 32) (hb : b ≤ 2 ^ 32) (hw : 0 < w) :
    (∀ r ∈ elemRanges l a b w n, r.Ok p) ↔ ∀ e, e < n → ElemOk p w (elemAddr l a b w e) := by
  rw [forall_elemAddr_iff, elemRanges_eq]
  simp only [List.mem_map, forall_exists_index, and_imp, forall_apply_eq_imp_iff₂]
  exact forall₂_congr fun r hr => arrayRange_ok_iff p (layoutArrays_base_le ha hb r hr) hw

theorem elemRanges_apart_iff (l l' : Layout) {a b w n a' b' v m : Nat} (hw : 0 < w) (hv : 0 < v) :
    (∀ d ∈ elemRanges l a b w n, ∀ q ∈ elemRanges l' a' b' v m, d.meets q = false) ↔
      ∀ e, e < n → ∀ f, f < m → Apart (elemAddr l a b w e) w (elemAddr l' a' b' v f) v := by
  rw [forall_elemAddr_iff l a b w n fun x => ∀ f, f < m → Apart x w (elemAddr l' a' b' v f) v]
  have inner : ∀ x, (∀ f, f < m → Apart x w (elemAddr l' a' b' v f) v) ↔
      ∀ q ∈ layoutArrays l' a' b' m, ∀ j, j < q.2 → Apart x w (q.1 + v * j) v :=
    fun x => forall_elemAddr_iff l' a' b' v m fun y => Apart x w y v
  simp only [inner, elemRanges_eq, List.mem_map, forall_exists_index, and_imp, forall_apply_eq_imp_iff₂,
    arrayRange_meets_eq_false_iff hw hv]
  exact ⟨fun h r hr i hi q hq j hj => h r hr q hq i hi j hj, fun h r hr q hq i hi j hj => h r hr i hi q hq j hj⟩

/-- The destination arrays of a layout share no byte exactly when its elements are apart from each other. -/
theorem elemRanges_pairwise_iff (l : Layout) {a b w n : Nat} (hw : 0 < w) :
    ((elemRanges l a b w n).Pairwise fun d e => d.meets e = false) ↔
      ∀ e, e < n → ∀ f, f < n → e ≠ f → Apart (elemAddr l a b w e) w (elemAddr l a b w f) w := by
  have within : ∀ c i j : Nat, i ≠ j → Apart (c + w * i) w (c + w * j) w := by
    intro c i j hij
    rcases Nat.lt_or_gt_of_ne hij with h | h
    · have := mul_succ_le (w := w) h
      exact .inl (by omega)
    · have := mul_succ_le (w := w) h
      exact .inr (by omega)
  cases l with
  | interleaved =>
    simp only [elemRanges, List.pairwise_singleton, elemAddr, true_iff]
    exact fun e _ f _ hef => within a e f hef
  | planar =>
    simp only [elemRanges, List.pairwise_cons, List.mem_singleton, forall_eq, List.not_mem_nil, false_imp_iff,
      implies_true, List.Pairwise.nil, and_true, arrayRange_meets_eq_false_iff hw hw, elemAddr]
    constructor
    · intro h e he f hf hef
      by_cases h1 : e % 2 = 0 <;> by_cases h2 : f % 2 = 0 <;> simp only [h1, h2, if_true, if_false]
      · exact within _ _ _ (by omega)
      · exact h _ (by omega) _ (by omega)
      · exact (h (f / 2) (by omega) (e / 2) (by omega)).symm
      · exact within _ _ _ (by omega)
    · intro h e he f hf
      have := h (2 * e) (by omega) (2 * f + 1) (by omega) (by omega)
      rwa [if_pos (by omega), if_neg (by omega), show 2 * e / 2 = e by omega, show (2 * f + 1) / 2 = f by omega] at this

end Sys2Proof.Machine
end

