-- ==== Sys2Proof/Laws/Dot.lean ====
section
/-! SUPPORT. What the float dot product is at the default of FDOT and in a wide accumulator. -/

namespace Sys2Proof.Machine

/-- At the default of FDOT the dot product is the loop of R164. -/
theorem dotF_default (nan : Word) (taps samples : List Word) :
    dotF FDot.default nan taps samples =
      (taps.zip samples).foldl (fun acc t => fadd nan acc (fmul nan t.1 t.2)) 0 := rfl

/-- A number that has no more than `bits` bits is kept. -/
theorem roundBits_of_lt {bits m : Nat} (h : m < 2 ^ bits) : roundBits bits m = m := by
  obtain rfl | hm := Nat.eq_zero_or_pos m
  · simp [roundBits, roundEven]
  · have hlog : Nat.log2 m + 1 - bits = 0 := by
      have := (Nat.log2_lt hm.ne').mpr h
      omega
    simp [roundBits, hlog, roundEven, Nat.mod_one]

theorem signedMag_natAbs (z : Int) : signedMag (decide (z < 0)) z.natAbs = z := by
  simp only [signedMag, decide_eq_true_eq]
  split <;> omega

/-- The sum of two finite wide values is their exact sum where the format can hold it. -/
theorem Wide.sum_fin_of_lt {bits : Nat} {n m : Bool} {a b : Nat}
    (h : (signedMag n a + signedMag m b).natAbs < 2 ^ bits) :
    ∃ neg mag, Wide.sum bits (.fin n a) (.fin m b) = .fin neg mag ∧
      signedMag neg mag = signedMag n a + signedMag m b := by
  simp only [Wide.sum]
  split
  · next hz => exact ⟨_, _, rfl, by rw [hz]; cases n && m <;> rfl⟩
  · refine ⟨_, _, rfl, ?_⟩
    rw [roundBits_of_lt h]
    exact signedMag_natAbs _

/-- The start value +0.0 is zero in every format. -/
theorem Wide.ofWord_zero (bits : Nat) : Wide.ofWord bits 0 = .fin false 0 := by
  have h : roundBits bits 0 = 0 := roundBits_of_lt (by positivity)
  rw [Wide.ofWord, if_neg (by decide), if_neg (by decide)]
  change Wide.fin false (roundBits bits (0 * 2 ^ 149)) = _
  rw [Nat.zero_mul, h]

end Sys2Proof.Machine
end

