-- ==== Sys2Proof/Laws/Memory.lean ====
section
/-! SUPPORT. What the memory operations do: a read after a write, and the canonical form. -/

namespace Sys2Proof.Machine

/-! ### One byte -/

theorem Memory.read_putFront (a : Nat) (b : Byte) (t : Memory) (q : Nat) (ht : q = a → t.read q = Memory.unlisted) :
    (Memory.putFront a b t).read q = if a = q then b else t.read q := by
  unfold Memory.putFront
  split
  · split <;> simp_all
  · simp [Memory.read]

theorem Memory.wfFrom_mono {lo lo' : Nat} (h : lo ≤ lo') {m : Memory} (hm : Memory.wfFrom lo' m = true) :
    Memory.wfFrom lo m = true := by
  cases m with
  | nil => rfl
  | cons c t =>
    obtain ⟨k, v⟩ := c
    simp only [Memory.wfFrom, Bool.and_eq_true, decide_eq_true_eq] at hm ⊢
    exact ⟨⟨by omega, hm.1.2⟩, hm.2⟩

/-- Below the first address a canonical list can hold, nothing is listed. -/
theorem Memory.read_below {lo : Nat} {m : Memory} (hm : Memory.wfFrom lo m = true) {a : Nat} (h : a < lo) :
    m.read a = Memory.unlisted := by
  induction m generalizing lo with
  | nil => rfl
  | cons c t ih =>
    obtain ⟨k, v⟩ := c
    simp only [Memory.wfFrom, Bool.and_eq_true, decide_eq_true_eq] at hm
    have hk : k ≠ a := by omega
    simpa [Memory.read, hk] using ih hm.2 (by omega)

theorem Memory.read_write_from {lo : Nat} {m : Memory} (hm : Memory.wfFrom lo m = true) (a : Nat) (b : Byte) (q : Nat) :
    (m.write a b).read q = if a = q then b else m.read q := by
  induction m generalizing lo with
  | nil => simpa [Memory.write, Memory.read] using Memory.read_putFront a b [] q (fun _ => rfl)
  | cons c t ih =>
    obtain ⟨k, v⟩ := c
    have hm' := hm
    simp only [Memory.wfFrom, Bool.and_eq_true, decide_eq_true_eq] at hm'
    unfold Memory.write
    split
    · by_cases hkq : k = q
      · have : a ≠ q := by omega
        simp [Memory.read, hkq, this]
      · simp [Memory.read, hkq, ih hm'.2]
    · split
      · next h =>
        rw [Memory.read_putFront a b t q (fun hq => Memory.read_below hm'.2 (by omega))]
        subst h
        by_cases hkq : k = q <;> simp [Memory.read, hkq]
      · rw [Memory.read_putFront]
        intro hq
        have hk : k ≠ q := by omega
        simpa [Memory.read, hk] using Memory.read_below hm'.2 (a := q) (by omega)

/-- A read after a write of one byte (the basic law of R51). -/
theorem Memory.read_write {m : Memory} (hm : m.wf = true) (a : Nat) (b : Byte) (q : Nat) :
    (m.write a b).read q = if a = q then b else m.read q :=
  Memory.read_write_from hm a b q

theorem Memory.wfFrom_putFront {lo a : Nat} (h : lo ≤ a) {b : Byte} {t : Memory} (ht : Memory.wfFrom (a + 1) t = true) :
    Memory.wfFrom lo (Memory.putFront a b t) = true := by
  unfold Memory.putFront
  split
  · exact Memory.wfFrom_mono (by omega) ht
  · simp_all [Memory.wfFrom]

theorem Memory.wfFrom_write {lo : Nat} {m : Memory} (hm : Memory.wfFrom lo m = true) {a : Nat} (h : lo ≤ a) (b : Byte) :
    Memory.wfFrom lo (m.write a b) = true := by
  induction m generalizing lo with
  | nil => exact Memory.wfFrom_putFront h rfl
  | cons c t ih =>
    obtain ⟨k, v⟩ := c
    have hm' := hm
    simp only [Memory.wfFrom, Bool.and_eq_true, decide_eq_true_eq] at hm'
    unfold Memory.write
    split
    · simp only [Memory.wfFrom, Bool.and_eq_true, decide_eq_true_eq]
      exact ⟨hm'.1, ih hm'.2 (by omega)⟩
    · split
      · next h2 => subst h2; exact Memory.wfFrom_putFront h hm'.2
      · refine Memory.wfFrom_putFront h ?_
        simp only [Memory.wfFrom, Bool.and_eq_true, decide_eq_true_eq]
        exact ⟨⟨by omega, hm'.1.2⟩, hm'.2⟩

/-- A write of one byte keeps the canonical form. -/
theorem Memory.wf_write {m : Memory} (hm : m.wf = true) (a : Nat) (b : Byte) : (m.write a b).wf = true :=
  Memory.wfFrom_write hm (Nat.zero_le a) b

theorem Memory.mem_putFront {a : Nat} {b : Byte} {t : Memory} {c : Host.Cell} (h : c ∈ Memory.putFront a b t) :
    c.1 = a ∨ c ∈ t := by
  unfold Memory.putFront at h
  split at h
  · exact .inr h
  · rcases List.mem_cons.1 h with h | h
    · exact .inl (by rw [h])
    · exact .inr h

/-- A write lists no address but its own. -/
theorem Memory.mem_write {m : Memory} {a : Nat} {b : Byte} {c : Host.Cell} (h : c ∈ m.write a b) : c.1 = a ∨ c ∈ m := by
  induction m with
  | nil => exact Memory.mem_putFront h
  | cons d t ih =>
    obtain ⟨k, v⟩ := d
    unfold Memory.write at h
    split at h
    · rcases List.mem_cons.1 h with h | h
      · exact .inr (by simp [h])
      · exact (ih h).imp id (List.mem_cons_of_mem _)
    · split at h
      · exact (Memory.mem_putFront h).imp id (List.mem_cons_of_mem _)
      · exact Memory.mem_putFront h

/-! ### Canonical memories that read alike are equal -/

theorem Memory.read_of_wfFrom_head {lo k : Nat} {v : Byte} {t : Memory} (h : Memory.wfFrom lo ((k, v) :: t) = true) :
    lo ≤ k ∧ v ≠ Memory.unlisted ∧ Memory.wfFrom (k + 1) t = true := by
  simpa [Memory.wfFrom, and_assoc] using h

theorem Memory.eq_of_read_from {lo : Nat} {m m' : Memory} (hm : Memory.wfFrom lo m = true) (hm' : Memory.wfFrom lo m' = true)
    (h : ∀ a, m.read a = m'.read a) : m = m' := by
  induction m generalizing lo m' with
  | nil =>
    cases m' with
    | nil => rfl
    | cons c t =>
      obtain ⟨k, v⟩ := c
      have := h k
      simp [Memory.read] at this
      exact absurd this.symm (Memory.read_of_wfFrom_head hm').2.1
  | cons c t ih =>
    obtain ⟨k, v⟩ := c
    obtain ⟨-, hv, ht⟩ := Memory.read_of_wfFrom_head hm
    cases m' with
    | nil =>
      have := h k
      simp [Memory.read] at this
      exact absurd this hv
    | cons c' t' =>
      obtain ⟨k', v'⟩ := c'
      obtain ⟨-, hv', ht'⟩ := Memory.read_of_wfFrom_head hm'
      have hk : k = k' := by
        rcases Nat.lt_trichotomy k k' with hlt | heq | hgt
        · have := h k
          simp [Memory.read, show k' ≠ k by omega, Memory.read_below ht' (a := k) (by omega)] at this
          exact absurd this hv
        · exact heq
        · have := h k'
          simp [Memory.read, show k ≠ k' by omega, Memory.read_below ht (a := k') (by omega)] at this
          exact absurd this.symm hv'
      subst hk
      have hvv : v = v' := by simpa [Memory.read] using h k
      subst hvv
      rw [ih ht ht' fun a => ?_]
      by_cases hka : k = a
      · subst hka
        rw [Memory.read_below ht (by omega), Memory.read_below ht' (by omega)]
      · simpa [Memory.read, hka] using h a

/-- Two canonical memories that read alike at every address are the same data. -/
theorem Memory.eq_of_read {m m' : Memory} (hm : m.wf = true) (hm' : m'.wf = true) (h : ∀ a, m.read a = m'.read a) :
    m = m' :=
  Memory.eq_of_read_from hm hm' h

/-! ### Several bytes -/

theorem Memory.wf_writeN {m : Memory} (hm : m.wf = true) (a n v : Nat) : (m.writeN a n v).wf = true := by
  induction n generalizing m a v with
  | zero => exact hm
  | succ n ih => exact ih (Memory.wf_write hm a _) (a + 1) (v / 256)

theorem Memory.mem_writeN {m : Memory} {a n v : Nat} {c : Host.Cell} (h : c ∈ m.writeN a n v) :
    (a ≤ c.1 ∧ c.1 < a + n) ∨ c ∈ m := by
  induction n generalizing m a v with
  | zero => exact .inr h
  | succ n ih =>
    rcases ih h with h | h
    · exact .inl (by omega)
    · exact (Memory.mem_write h).imp (by omega) id

/-- A byte outside a multi-byte write is as before. -/
theorem Memory.read_writeN_outside {m : Memory} (hm : m.wf = true) (a n v q : Nat) (h : q < a ∨ a + n ≤ q) :
    (m.writeN a n v).read q = m.read q := by
  induction n generalizing m a v with
  | zero => rfl
  | succ n ih =>
    have := ih (Memory.wf_write hm a (BitVec.ofNat 8 v)) (a + 1) (v / 256) (by omega)
    rw [Memory.writeN, this, Memory.read_write hm, if_neg (by omega)]

/-- Byte `i` of a multi-byte write (R51). -/
theorem Memory.read_writeN_inside {m : Memory} (hm : m.wf = true) (a n v i : Nat) (h : i < n) :
    (m.writeN a n v).read (a + i) = BitVec.ofNat 8 (v / 256 ^ i) := by
  induction n generalizing m a v i with
  | zero => omega
  | succ n ih =>
    rw [Memory.writeN]
    cases i with
    | zero =>
      rw [Memory.read_writeN_outside (Memory.wf_write hm a _) _ _ _ _ (by omega), Memory.read_write hm]
      simp
    | succ i =>
      have := ih (Memory.wf_write hm a (BitVec.ofNat 8 v)) (a + 1) (v / 256) i (by omega)
      rw [show a + (i + 1) = a + 1 + i by omega, this, Nat.div_div_eq_div_mul, pow_succ, mul_comm]

/-- A multi-byte read depends only on the bytes it reads. -/
theorem Memory.readN_congr {m m' : Memory} {a n : Nat} (h : ∀ i, i < n → m.read (a + i) = m'.read (a + i)) :
    m.readN a n = m'.readN a n := by
  induction n generalizing a with
  | zero => rfl
  | succ n ih =>
    have h0 := h 0 (by omega)
    have := ih (a := a + 1) fun i hi => by
      have := h (i + 1) (by omega)
      rwa [show a + (i + 1) = a + 1 + i by omega] at this
    simp only [Nat.add_zero] at h0
    simp [Memory.readN, h0, this]

/-- A multi-byte read is less than 256^n. -/
theorem Memory.readN_lt (m : Memory) (a n : Nat) : m.readN a n < 256 ^ n := by
  induction n generalizing a with
  | zero => simp [Memory.readN]
  | succ n ih =>
    have h := ih (a + 1)
    have hb := (m.read a).isLt
    rw [Memory.readN, pow_succ]
    omega

/-- MemRead after MemWrite of the same element gives `wrap_(8n)(v)` (R51). -/
theorem Memory.readN_writeN {m : Memory} (hm : m.wf = true) (a n v : Nat) : (m.writeN a n v).readN a n = v % 256 ^ n := by
  induction n generalizing m a v with
  | zero => simp [Memory.readN, Nat.mod_one]
  | succ n ih =>
    have h0 : (m.writeN a (n + 1) v).read a = BitVec.ofNat 8 v := by
      simpa using Memory.read_writeN_inside hm a (n + 1) v 0 (by omega)
    rw [Memory.readN, h0, Memory.writeN, ih (Memory.wf_write hm a _), BitVec.toNat_ofNat,
      show 256 ^ (n + 1) = 256 * 256 ^ n from pow_succ' 256 n, Nat.mod_mul]

/-! ### Lists of elements -/

@[simp] theorem Memory.writeElems_nil (m : Memory) (w : Nat) : m.writeElems w [] = m := rfl

@[simp] theorem Memory.writeElems_cons (m : Memory) (w : Nat) (e : Nat × Word) (es : List (Nat × Word)) :
    m.writeElems w (e :: es) = (m.writeN e.1 w e.2.toNat).writeElems w es := rfl

theorem Memory.wf_writeElems {m : Memory} (hm : m.wf = true) (w : Nat) (es : List (Nat × Word)) :
    (m.writeElems w es).wf = true := by
  induction es generalizing m with
  | nil => exact hm
  | cons e es ih => exact ih (Memory.wf_writeN hm _ _ _)

theorem Memory.mem_writeElems {m : Memory} {w : Nat} {es : List (Nat × Word)} {c : Host.Cell}
    (h : c ∈ m.writeElems w es) : (∃ e ∈ es, e.1 ≤ c.1 ∧ c.1 < e.1 + w) ∨ c ∈ m := by
  induction es generalizing m with
  | nil => exact .inr h
  | cons e es ih =>
    rcases ih h with ⟨e', he', h'⟩ | h
    · exact .inl ⟨e', List.mem_cons_of_mem _ he', h'⟩
    · exact (Memory.mem_writeN h).imp (fun h => ⟨e, List.mem_cons_self, h⟩) id

/-- A byte outside every element written is as before. -/
theorem Memory.read_writeElems_outside {m : Memory} (hm : m.wf = true) (w : Nat) (es : List (Nat × Word)) (q : Nat)
    (h : ∀ e ∈ es, q < e.1 ∨ e.1 + w ≤ q) : (m.writeElems w es).read q = m.read q := by
  induction es generalizing m with
  | nil => rfl
  | cons e es ih =>
    rw [Memory.writeElems_cons, ih (Memory.wf_writeN hm _ _ _) fun e' he' => h e' (List.mem_cons_of_mem _ he'),
      Memory.read_writeN_outside hm _ _ _ _ (h e List.mem_cons_self)]

/-- Each element of a list of elements that are apart holds the low bytes of its value. -/
theorem Memory.readN_writeElems {m : Memory} (hm : m.wf = true) (w : Nat) (es : List (Nat × Word))
    (hp : es.Pairwise fun e f => e.1 + w ≤ f.1 ∨ f.1 + w ≤ e.1) (e : Nat × Word) (he : e ∈ es) :
    (m.writeElems w es).readN e.1 w = e.2.toNat % 256 ^ w := by
  induction es generalizing m with
  | nil => simp at he
  | cons d es ih =>
    rw [List.pairwise_cons] at hp
    rw [Memory.writeElems_cons]
    rcases List.mem_cons.1 he with rfl | he
    · rw [← Memory.readN_writeN hm e.1 w e.2.toNat]
      refine Memory.readN_congr fun i hi => ?_
      refine Memory.read_writeElems_outside (Memory.wf_writeN hm _ _ _) w es _ fun f hf => ?_
      have := hp.1 f hf
      omega
    · exact ih (Memory.wf_writeN hm _ _ _) hp.2 he

end Sys2Proof.Machine
end

