-- ==== Sys2Proof/Laws/Exec.lean ====
section
/-! SUPPORT. Every command in one form: `exec` is guardAccess over the ranges of the command, answering one explicit
state (`resultOf`), which for a fault or an error code has no range to check. So what a command can do is said once. -/

namespace Sys2Proof.Machine

@[simp] theorem guardAccess_nil (s t : State) : guardAccess s [] [] t = .next t := by
  simp [guardAccess, anyOverlap]

/-! ### The shared parts of the results -/

/-- The memory with elements written. -/
def writeResult (s : State) (w : Nat) (es : List (Nat × Word)) : State := s.setMem (s.mem.writeElems w es)

/-- What a CVT command with this form answers. -/
def cvtResult (ws wd : Nat) (ls ld : Layout) (conv : State → Nat → Word → Word) (s : State) : State :=
  (writeResult s wd (cvtElems ws wd ls ld conv s)).finish

/-- What U12.F32 answers when the phase is valid. -/
def u12Result (s : State) : State :=
  ((writeResult s 4 (layElems (s.reg Reg.DA).toNat 4 (unpackStream (u12Stream s)).1)).setReg Reg.CRY
    (carryWord (unpackStream (u12Stream s)).2)).finish

/-- What an init answers when its checks pass. -/
def initResult (dom : Domain) (c : CtxId) (s : State) : State :=
  ((s.setContext c (firCreate (s.context c) dom s.mem (s.reg Reg.SA).toNat (s.reg Reg.LEN).toNat (s.reg Reg.DA).toNat
    (s.reg Reg.DB).toNat (s.reg Reg.SB))).setReg Reg.RES 0).finish

/-- What an init answers when a check fails. -/
def initError (s : State) (code : Int) : State := (s.setReg Reg.RES (BitVec.ofInt 32 code)).finish

/-- What a work command answers when its checks pass. -/
def workResult (dom : Domain) (c : CtxId) (s : State) : State :=
  (((writeResult s dom.width (layElems (s.reg Reg.DA).toNat dom.width (firOutput dom (s.context c) s))).setContext c
    { s.context c with hist := firHistory (s.context c) (firStream dom (s.context c) s) }).setReg Reg.RES
      (BitVec.ofNat 32 (2 * firPairs (s.context c) (s.reg Reg.LEN).toNat))).finish

/-! ### The checks of the commands, as the propositions of Safety.lean -/

/-- The range check of an init as a proposition (R151). -/
theorem firInRange_iff (l d k m : Nat) :
    firInRange l d k m = true ↔ (1 ≤ l ∧ l ≤ 64) ∧ d ≤ 6 ∧ k ≤ 2 ∧ 2 * l ≤ m := by
  simp only [firInRange, Bool.and_eq_true, decide_eq_true_eq, and_assoc]
  rfl

/-- The three outcomes of the checks of an init, in order (R151). -/
theorem firInit_cases (dom : Domain) (c : CtxId) (s : State) :
    (InitChecksPass dom c s ∧ firInit dom c s =
      guardAccess s [⟨(s.reg Reg.SA).toNat, dom.width * (s.reg Reg.LEN).toNat, dom.width⟩] [] (initResult dom c s)) ∨
    (¬ InitChecksPass dom c s ∧ ∃ code : Int, firInit dom c s = .next (initError s code) ∧
      (((s.context c).valid = true ∧ code = s.params.errBusy) ∨
        ((s.context c).valid = false ∧ firInRange (s.reg Reg.LEN).toNat (s.reg Reg.DA).toNat (s.reg Reg.DB).toNat
          (s.reg Reg.SB).toNat = false ∧ code = s.params.errRange) ∨
        ((s.context c).valid = false ∧ firInRange (s.reg Reg.LEN).toNat (s.reg Reg.DA).toNat (s.reg Reg.DB).toNat
          (s.reg Reg.SB).toNat = true ∧ s.params.ctxCapBytes < firNeed dom (s.reg Reg.LEN).toNat (s.reg Reg.DB).toNat
            (s.reg Reg.SB).toNat ∧ code = s.params.errNoMem))) := by
  unfold firInit
  by_cases hv : (s.context c).valid = true
  · exact .inr ⟨by simp [InitChecksPass, hv], s.params.errBusy, by simp [hv, firError, initError], .inl ⟨hv, rfl⟩⟩
  · rw [Bool.not_eq_true] at hv
    by_cases hr : firInRange (s.reg Reg.LEN).toNat (s.reg Reg.DA).toNat (s.reg Reg.DB).toNat (s.reg Reg.SB).toNat = true
    · by_cases hm : s.params.ctxCapBytes < firNeed dom (s.reg Reg.LEN).toNat (s.reg Reg.DB).toNat (s.reg Reg.SB).toNat
      · refine .inr ⟨?_, s.params.errNoMem, by simp [hv, hr, hm, firError, initError], .inr (.inr ⟨hv, hr, hm, rfl⟩)⟩
        simp only [firNeed] at hm
        intro h
        have := h.2.2.2.2.2
        omega
      · refine .inl ⟨?_, by simp [hv, hr, hm, initResult]⟩
        have hr' := (firInRange_iff _ _ _ _).1 hr
        simp only [firNeed] at hm
        exact ⟨hv, hr'.1, hr'.2.1, hr'.2.2.1, hr'.2.2.2, by omega⟩
    · rw [Bool.not_eq_true] at hr
      refine .inr ⟨?_, s.params.errRange, by simp [hv, hr, firError, initError], .inr (.inl ⟨hv, hr, rfl⟩)⟩
      intro h
      have := (firInRange_iff _ _ _ _).2 ⟨h.2.1, h.2.2.1, h.2.2.2.1, h.2.2.2.2.1⟩
      simp [hr] at this

/-- The checks of a work command pass exactly when no cause is found (R157). -/
theorem firWorkFault_eq_none_iff (dom : Domain) (f : Context) (n : Nat) :
    firWorkFault dom f n = none ↔ WorkChecksPass dom f n := by
  unfold firWorkFault WorkChecksPass
  by_cases hv : f.valid = true
  · by_cases hd : f.dom = dom
    · by_cases hs : n < 2 * f.ntaps.toNat
      · simp [hv, hd, hs]
      · simp [hv, hd, hs, firBlockLenOk, and_assoc]
        omega
    · simp [hv, hd]
  · simp [hv]

/-- A cause found by the checks of a work command is not F_ILLEGAL or F_BAD_PHASE. -/
theorem firWorkFault_some {dom : Domain} {f : Context} {n : Nat} {k : Cause} (h : firWorkFault dom f n = some k) :
    k = .badCtx ∨ k = .domain ∨ k = .shortBlock ∨ k = .blockLen := by
  unfold firWorkFault at h
  grind

theorem firWork_of_pass {dom : Domain} {c : CtxId} {s : State}
    (h : WorkChecksPass dom (s.context c) (s.reg Reg.LEN).toNat) (w : Word) :
    firWork dom w c s = guardAccess s
      [⟨(s.reg Reg.SA).toNat, dom.width * (s.reg Reg.LEN).toNat, dom.width⟩]
      [⟨(s.reg Reg.DA).toNat, dom.width * (2 * firPairs (s.context c) (s.reg Reg.LEN).toNat), dom.width⟩]
      (workResult dom c s) := by
  simp only [firWork, (firWorkFault_eq_none_iff _ _ _).2 h]
  rfl

theorem firWork_of_fault {dom : Domain} {c : CtxId} {s : State} {k : Cause}
    (h : firWorkFault dom (s.context c) (s.reg Reg.LEN).toNat = some k) (w : Word) :
    firWork dom w c s = .next (s.raiseFault k w) := by
  simp only [firWork, h]

/-- Under the checks, twice the number of output pairs is `(N * 2^k) >> d` (R161). -/
theorem two_mul_firPairs {dom : Domain} {f : Context} {n : Nat} (h : WorkChecksPass dom f n) :
    2 * firPairs f n = n * 2 ^ f.int.toNat / 2 ^ f.dec.toNat := by
  obtain ⟨q, hq⟩ := Nat.dvd_of_mod_eq_zero h.2.2.2.2.2
  have h2 : 0 < 2 ^ f.dec.toNat := by positivity
  rw [firPairs, hq, Nat.mul_div_cancel_left _ (by positivity), pow_succ, mul_assoc, Nat.mul_div_cancel_left _ h2]

/-! ### One form for every command -/

/-- The ranges a command reads. -/
def srcRanges (i : Instr) (s : State) : List ByteRange :=
  match i, cvtForm i with
  | _, some f => elemRanges f.ls (s.reg Reg.SA).toNat (s.reg Reg.SB).toNat f.ws ((s.reg Reg.LEN).toNat / f.ws)
  | .u12F32, _ => if carryPhase (s.reg Reg.CRY) = 3 then [] else [⟨(s.reg Reg.SA).toNat, (s.reg Reg.LEN).toNat, 1⟩]
  | .firInitF c, _ => if InitChecksPass .F c s then [⟨(s.reg Reg.SA).toNat, 4 * (s.reg Reg.LEN).toNat, 4⟩] else []
  | .firInitX c, _ => if InitChecksPass .X c s then [⟨(s.reg Reg.SA).toNat, 2 * (s.reg Reg.LEN).toNat, 2⟩] else []
  | .firWorkF c, _ =>
    if WorkChecksPass .F (s.context c) (s.reg Reg.LEN).toNat then
      [⟨(s.reg Reg.SA).toNat, 4 * (s.reg Reg.LEN).toNat, 4⟩] else []
  | .firWorkX c, _ =>
    if WorkChecksPass .X (s.context c) (s.reg Reg.LEN).toNat then
      [⟨(s.reg Reg.SA).toNat, 2 * (s.reg Reg.LEN).toNat, 2⟩] else []
  | _, _ => []

/-- The ranges a command writes. -/
def dstRanges (i : Instr) (s : State) : List ByteRange :=
  match i, cvtForm i with
  | _, some f => elemRanges f.ld (s.reg Reg.DA).toNat (s.reg Reg.DB).toNat f.wd ((s.reg Reg.LEN).toNat / f.ws)
  | .u12F32, _ =>
    if carryPhase (s.reg Reg.CRY) = 3 then []
    else [⟨(s.reg Reg.DA).toNat, 8 * ((carryPhase (s.reg Reg.CRY) + (s.reg Reg.LEN).toNat) / 3), 4⟩]
  | .firWorkF c, _ =>
    if WorkChecksPass .F (s.context c) (s.reg Reg.LEN).toNat then
      [⟨(s.reg Reg.DA).toNat, 4 * (2 * firPairs (s.context c) (s.reg Reg.LEN).toNat), 4⟩] else []
  | .firWorkX c, _ =>
    if WorkChecksPass .X (s.context c) (s.reg Reg.LEN).toNat then
      [⟨(s.reg Reg.DA).toNat, 2 * (2 * firPairs (s.context c) (s.reg Reg.LEN).toNat), 2⟩] else []
  | _, _ => []

/-- The state a work command answers, fault or not. -/
def workAnswer (dom : Domain) (w : Word) (c : CtxId) (s : State) : State :=
  match firWorkFault dom (s.context c) (s.reg Reg.LEN).toNat with
  | some k => s.raiseFault k w
  | none => workResult dom c s

/-- The state an init answers, error code or not. -/
def initAnswer (dom : Domain) (c : CtxId) (s : State) : State :=
  if (s.context c).valid then initError s s.params.errBusy
  else if !firInRange (s.reg Reg.LEN).toNat (s.reg Reg.DA).toNat (s.reg Reg.DB).toNat (s.reg Reg.SB).toNat then
    initError s s.params.errRange
  else if s.params.ctxCapBytes < firNeed dom (s.reg Reg.LEN).toNat (s.reg Reg.DB).toNat (s.reg Reg.SB).toNat then
    initError s s.params.errNoMem
  else initResult dom c s

/-- The one state a command answers when no precondition of R52 to R58 is violated. -/
def resultOf (i : Instr) (s : State) : State :=
  match i with
  | .setl rd imm => (s.setReg rd (imm.setWidth 32)).finish
  | .seth rd imm => (s.setReg rd (sethValue imm (s.reg rd))).finish
  | .cvtI16F32 => cvtResult 2 4 .interleaved .interleaved (convToFloat 16) s
  | .cvtI16F32P => cvtResult 2 4 .interleaved .planar (convToFloat 16) s
  | .cvtI8F32 => cvtResult 1 4 .interleaved .interleaved (convToFloat 8) s
  | .cvtI8F32P => cvtResult 1 4 .interleaved .planar (convToFloat 8) s
  | .cvtF32I16 => cvtResult 4 2 .interleaved .interleaved convToFixed s
  | .cvtF32PI16 => cvtResult 4 2 .planar .interleaved convToFixed s
  | .cvtF32I8 => cvtResult 4 1 .interleaved .interleaved convToFixed s
  | .cvtF32PI8 => cvtResult 4 1 .planar .interleaved convToFixed s
  | .cvtI16PI16 => cvtResult 2 2 .planar .interleaved convSame s
  | .cvtI16I16P => cvtResult 2 2 .interleaved .planar convSame s
  | .u12F32 => if carryPhase (s.reg Reg.CRY) = 3 then s.raiseFault .badPhase (encode .u12F32) else u12Result s
  | .firInitF c => initAnswer .F c s
  | .firInitX c => initAnswer .X c s
  | .firWorkF c => workAnswer .F (encode (.firWorkF c)) c s
  | .firWorkX c => workAnswer .X (encode (.firWorkX c)) c s
  | .firFree c =>
    if !(s.context c).valid then s.raiseFault .badCtx (encode (.firFree c))
    else (s.setContext c (Context.freed s.freeTick c)).finish

theorem firInit_eq_guard (dom : Domain) (c : CtxId) (s : State) :
    firInit dom c s = guardAccess s
      (if InitChecksPass dom c s then [⟨(s.reg Reg.SA).toNat, dom.width * (s.reg Reg.LEN).toNat, dom.width⟩] else []) []
      (initAnswer dom c s) := by
  rcases firInit_cases dom c s with ⟨h, he⟩ | ⟨h, code, he, hc⟩
  · have ha : initAnswer dom c s = initResult dom c s := by
      have h1 := (firInRange_iff _ _ _ _).2 ⟨h.2.1, h.2.2.1, h.2.2.2.1, h.2.2.2.2.1⟩
      have h2 : ¬ s.params.ctxCapBytes < firNeed dom (s.reg Reg.LEN).toNat (s.reg Reg.DB).toNat (s.reg Reg.SB).toNat := by
        have := h.2.2.2.2.2
        simp only [firNeed]
        omega
      simp [initAnswer, h.1, h1, h2]
    rw [he, if_pos h, ha]
  · rw [he, if_neg h, guardAccess_nil]
    rcases hc with ⟨h1, rfl⟩ | ⟨h1, h2, rfl⟩ | ⟨h1, h2, h3, rfl⟩ <;> simp [initAnswer, *]

theorem firWork_eq_guard (dom : Domain) (w : Word) (c : CtxId) (s : State) :
    firWork dom w c s = guardAccess s
      (if WorkChecksPass dom (s.context c) (s.reg Reg.LEN).toNat then
        [⟨(s.reg Reg.SA).toNat, dom.width * (s.reg Reg.LEN).toNat, dom.width⟩] else [])
      (if WorkChecksPass dom (s.context c) (s.reg Reg.LEN).toNat then
        [⟨(s.reg Reg.DA).toNat, dom.width * (2 * firPairs (s.context c) (s.reg Reg.LEN).toNat), dom.width⟩] else [])
      (workAnswer dom w c s) := by
  rcases hf : firWorkFault dom (s.context c) (s.reg Reg.LEN).toNat with _ | k
  · have hp := (firWorkFault_eq_none_iff _ _ _).1 hf
    rw [firWork_of_pass hp, if_pos hp, if_pos hp]
    simp [workAnswer, hf]
  · have hp : ¬ WorkChecksPass dom (s.context c) (s.reg Reg.LEN).toNat := by
      rw [← firWorkFault_eq_none_iff, hf]
      simp
    rw [firWork_of_fault hf, if_neg hp, if_neg hp, guardAccess_nil]
    simp [workAnswer, hf]

/-- Every command is guardAccess over its ranges, answering `resultOf`. -/
theorem exec_eq_guard (i : Instr) (s : State) :
    exec i s = guardAccess s (srcRanges i s) (dstRanges i s) (resultOf i s) := by
  cases i with
  | setl rd imm => exact (guardAccess_nil _ _).symm
  | seth rd imm => exact (guardAccess_nil _ _).symm
  | u12F32 =>
    by_cases h : carryPhase (s.reg Reg.CRY) = 3 <;>
      simp [exec, execU12F32, srcRanges, dstRanges, resultOf, cvtForm, h, u12Result, writeResult]
  | firInitF c => exact firInit_eq_guard .F c s
  | firInitX c => exact firInit_eq_guard .X c s
  | firWorkF c => exact firWork_eq_guard .F _ c s
  | firWorkX c => exact firWork_eq_guard .X _ c s
  | firFree c =>
    by_cases h : (s.context c).valid = true <;>
      simp [exec, execFirFree, srcRanges, dstRanges, resultOf, cvtForm, h]
  | _ => rfl

/-- The ranges of a command are in order exactly when the elements it accesses are. -/
theorem rangesOk_iff (i : Instr) (s : State) :
    RangesOk s.params (srcRanges i s) (dstRanges i s) ↔ (accessOf i s).Ok s.params := by
  have hr : ∀ r : Reg, (s.reg r).toNat ≤ 2 ^ 32 := fun r => (s.reg r).isLt.le
  have hnone : RangesOk s.params [] [] ↔ Access.none.Ok s.params := by
    simp [RangesOk, anyOverlap, Access.none, Access.Ok]
  have single : ∀ (l l' : Layout) (a b w n a' b' v m : Nat), a ≤ 2 ^ 32 → b ≤ 2 ^ 32 → a' ≤ 2 ^ 32 → b' ≤ 2 ^ 32 →
      0 < w → 0 < v →
      (RangesOk s.params (elemRanges l a b w n) (elemRanges l' a' b' v m) ↔
        Access.Ok s.params ⟨n, w, elemAddr l a b w, m, v, elemAddr l' a' b' v⟩) := by
    intro l l' a b w n a' b' v m ha hb ha' hb' hw hv
    simp only [RangesOk, List.mem_append, or_imp, forall_and, anyOverlap_eq_false_iff, Access.Ok,
      elemRanges_ok_iff s.params l ha hb hw, elemRanges_ok_iff s.params l' ha' hb' hv,
      elemRanges_apart_iff l' l hv hw, elemRanges_pairwise_iff l' hv, and_assoc]
  have hcvt : ∀ f : CvtForm, 0 < f.ws → 0 < f.wd →
      (RangesOk s.params
        (elemRanges f.ls (s.reg Reg.SA).toNat (s.reg Reg.SB).toNat f.ws ((s.reg Reg.LEN).toNat / f.ws))
        (elemRanges f.ld (s.reg Reg.DA).toNat (s.reg Reg.DB).toNat f.wd ((s.reg Reg.LEN).toNat / f.ws)) ↔
        (cvtAccess f s).Ok s.params) :=
    fun f hw hv => single _ _ _ _ _ _ _ _ _ _ (hr _) (hr _) (hr _) (hr _) hw hv
  have hinit : ∀ dom : Domain, RangesOk s.params
      [⟨(s.reg Reg.SA).toNat, dom.width * (s.reg Reg.LEN).toNat, dom.width⟩] [] ↔ (initAccess dom s).Ok s.params := by
    intro dom
    have hw : 0 < dom.width := by cases dom <;> simp [Domain.width]
    simp only [RangesOk, List.mem_append, List.mem_singleton, List.not_mem_nil, or_false, forall_eq,
      anyOverlap, and_true, Access.Ok, initAccess, Nat.not_lt_zero, false_imp_iff, implies_true]
    exact arrayRange_ok_iff _ (hr _) hw
  have hwork : ∀ (dom : Domain) (c : CtxId), WorkChecksPass dom (s.context c) (s.reg Reg.LEN).toNat →
      (RangesOk s.params [⟨(s.reg Reg.SA).toNat, dom.width * (s.reg Reg.LEN).toNat, dom.width⟩]
        [⟨(s.reg Reg.DA).toNat, dom.width * (2 * firPairs (s.context c) (s.reg Reg.LEN).toNat), dom.width⟩] ↔
        (workAccess dom (s.context c) s).Ok s.params) := by
    intro dom c h
    have hw : 0 < dom.width := by cases dom <;> simp [Domain.width]
    have := single .interleaved .interleaved (s.reg Reg.SA).toNat 0 dom.width (s.reg Reg.LEN).toNat
      (s.reg Reg.DA).toNat 0 dom.width (2 * firPairs (s.context c) (s.reg Reg.LEN).toNat) (hr _) (by norm_num) (hr _)
      (by norm_num) hw hw
    rw [two_mul_firPairs h] at this ⊢
    exact this
  cases i with
  | u12F32 =>
    by_cases h : carryPhase (s.reg Reg.CRY) = 3
    · simpa [srcRanges, dstRanges, accessOf, cvtForm, h] using hnone
    · have := single .interleaved .interleaved (s.reg Reg.SA).toNat 0 1 (s.reg Reg.LEN).toNat
        (s.reg Reg.DA).toNat 0 4 (2 * ((carryPhase (s.reg Reg.CRY) + (s.reg Reg.LEN).toNat) / 3)) (hr _) (by norm_num)
        (hr _) (by norm_num) (by norm_num) (by norm_num)
      simp only [elemRanges, one_mul, ← mul_assoc] at this
      simp only [srcRanges, dstRanges, accessOf, cvtForm, h, if_false]
      refine Iff.trans this ?_
      simp only [Access.Ok, u12Access, elemAddr, one_mul]
  | firInitF c =>
    by_cases h : InitChecksPass .F c s
    · have := hinit .F
      unfold srcRanges dstRanges accessOf
      simp only [cvtForm]
      rwa [if_pos h, if_pos h]
    · unfold srcRanges dstRanges accessOf
      simp only [cvtForm]
      rwa [if_neg h, if_neg h]
  | firInitX c =>
    by_cases h : InitChecksPass .X c s
    · have := hinit .X
      unfold srcRanges dstRanges accessOf
      simp only [cvtForm]
      rwa [if_pos h, if_pos h]
    · unfold srcRanges dstRanges accessOf
      simp only [cvtForm]
      rwa [if_neg h, if_neg h]
  | firWorkF c =>
    by_cases h : WorkChecksPass .F (s.context c) (s.reg Reg.LEN).toNat
    · have := hwork .F c h
      unfold srcRanges dstRanges accessOf
      simp only [cvtForm]
      rwa [if_pos h, if_pos h, if_pos h]
    · unfold srcRanges dstRanges accessOf
      simp only [cvtForm]
      rwa [if_neg h, if_neg h, if_neg h]
  | firWorkX c =>
    by_cases h : WorkChecksPass .X (s.context c) (s.reg Reg.LEN).toNat
    · have := hwork .X c h
      unfold srcRanges dstRanges accessOf
      simp only [cvtForm]
      rwa [if_pos h, if_pos h, if_pos h]
    · unfold srcRanges dstRanges accessOf
      simp only [cvtForm]
      rwa [if_neg h, if_neg h, if_neg h]
  | setl rd imm => exact hnone
  | seth rd imm => exact hnone
  | firFree c => exact hnone
  | cvtI16F32 => exact hcvt ⟨2, 4, .interleaved, .interleaved⟩ (by decide) (by decide)
  | cvtI16F32P => exact hcvt ⟨2, 4, .interleaved, .planar⟩ (by decide) (by decide)
  | cvtI8F32 => exact hcvt ⟨1, 4, .interleaved, .interleaved⟩ (by decide) (by decide)
  | cvtI8F32P => exact hcvt ⟨1, 4, .interleaved, .planar⟩ (by decide) (by decide)
  | cvtF32I16 => exact hcvt ⟨4, 2, .interleaved, .interleaved⟩ (by decide) (by decide)
  | cvtF32PI16 => exact hcvt ⟨4, 2, .planar, .interleaved⟩ (by decide) (by decide)
  | cvtF32I8 => exact hcvt ⟨4, 1, .interleaved, .interleaved⟩ (by decide) (by decide)
  | cvtF32PI8 => exact hcvt ⟨4, 1, .planar, .interleaved⟩ (by decide) (by decide)
  | cvtI16PI16 => exact hcvt ⟨2, 2, .planar, .interleaved⟩ (by decide) (by decide)
  | cvtI16I16P => exact hcvt ⟨2, 2, .interleaved, .planar⟩ (by decide) (by decide)

/-- What a command that answers a next state has done. -/
theorem exec_eq_next {i : Instr} {s t : State} (h : exec i s = .next t) :
    t = resultOf i s ∧ (accessOf i s).Ok s.params := by
  rw [exec_eq_guard, guardAccess_eq_next_iff, rangesOk_iff] at h
  exact h

/-- When a command answers a next state, and which. -/
theorem exec_of_ok {i : Instr} {s : State} (h : (accessOf i s).Ok s.params) : exec i s = .next (resultOf i s) := by
  rw [exec_eq_guard, guardAccess_eq_next_iff, rangesOk_iff]
  exact ⟨rfl, h⟩

end Sys2Proof.Machine
end

