-- ==== Sys2Proof/Laws/Stored.lean ====
section
/-! SUPPORT. What writing a list of elements leaves in memory, in the terms of Safety.lean, and the lists the commands
write. -/

namespace Sys2Proof.Machine

/-- Elements apart from each other, written in order, each hold the low bytes of their value; every other byte is as
before. -/
theorem stored_writeElems {m : Memory} (hm : m.wf = true) (x : Access) (v : Nat → Word)
    (hp : ∀ e, e < x.nd → ∀ f, f < x.nd → e ≠ f → Apart (x.dst e) x.wd (x.dst f) x.wd) :
    Stored m (m.writeElems x.wd ((List.range x.nd).map fun e => (x.dst e, v e))) x fun e => (v e).toNat % 256 ^ x.wd := by
  constructor
  · intro e he
    refine Memory.readN_writeElems hm x.wd _ ?_ (x.dst e, v e) (List.mem_map.2 ⟨e, by simpa using he, rfl⟩)
    rw [List.pairwise_map]
    exact (List.nodup_range (n := x.nd)).imp_of_mem fun ha hb hne =>
      hp _ (List.mem_range.1 ha) _ (List.mem_range.1 hb) hne
  · intro a ha
    refine Memory.read_writeElems_outside hm x.wd _ a fun e he => ?_
    obtain ⟨i, hi, rfl⟩ := List.mem_map.1 he
    exact ha i (List.mem_range.1 hi)

theorem Stored.congr {m m' : Memory} {x : Access} {v v' : Nat → Nat} (h : Stored m m' x v) (hv : ∀ e, v e = v' e) :
    Stored m m' x v' := by
  have : v = v' := funext hv
  rwa [← this]

/-- An element read is the number MemRead gives (R51). -/
theorem Memory.readElem_toNat (m : Memory) (w a : Nat) (h : w ≤ 4) : (m.readElem w a).toNat = m.readN a w := by
  have h1 := Memory.readN_lt m a w
  have h2 : 256 ^ w ≤ 256 ^ 4 := Nat.pow_le_pow_right (by norm_num) h
  simp only [Memory.readElem, BitVec.toNat_ofNat]
  omega

/-- What a CVT command leaves in memory: every destination element holds the low bytes of its converted source. -/
theorem cvtResult_stored {f : CvtForm} {s : State} (hm : s.mem.wf = true) (hok : (cvtAccess f s).Ok s.params)
    (conv : State → Nat → Word → Word) :
    Stored s.mem (cvtResult f.ws f.wd f.ls f.ld conv s).mem (cvtAccess f s) fun e =>
      (conv s e (s.mem.readElem f.ws ((cvtAccess f s).src e))).toNat % 256 ^ f.wd :=
  stored_writeElems hm (cvtAccess f s) (fun e => conv s e (s.mem.readElem f.ws ((cvtAccess f s).src e))) hok.2.2.2

/-- A list laid out from an address, as a list over its indices. -/
theorem layElems_eq (a w : Nat) (vs : List Word) :
    layElems a w vs = (List.range vs.length).map fun i => (a + w * i, vs.getD i 0) := by
  refine List.ext_getElem (by simp [layElems]) fun i h1 h2 => ?_
  have : i < vs.length := by simpa [layElems] using h1
  simp [layElems, this]

@[simp] theorem length_firOutput (dom : Domain) (f : Context) (s : State) :
    (firOutput dom f s).length = 2 * firPairs f (s.reg Reg.LEN).toNat := by
  simp [firOutput]

/-! ### The logical stream of U12.F32 -/

theorem length_unpackStream (l : List Byte) : (unpackStream l).1.length = 2 * (l.length / 3) := by
  fun_induction unpackStream l with
  | case1 b0 b1 b2 rest r ih =>
    simp only [List.length_cons, r, ih]
    omega
  | case2 rest h =>
    rcases rest with _ | ⟨a, _ | ⟨b, _ | ⟨c, t⟩⟩⟩
    · simp
    · simp
    · simp
    · exact absurd rfl (h a b c t)

/-- The bytes left over are those after the last whole triplet. -/
theorem unpackStream_rest (l : List Byte) : (unpackStream l).2 = l.drop (3 * (l.length / 3)) := by
  fun_induction unpackStream l with
  | case1 b0 b1 b2 rest r ih =>
    have : 3 * ((rest.length + 1 + 1 + 1) / 3) = 3 * (rest.length / 3) + 3 := by omega
    simp only [r, ih, List.length_cons, this, List.drop_succ_cons]
  | case2 rest h =>
    rcases rest with _ | ⟨a, _ | ⟨b, _ | ⟨c, t⟩⟩⟩
    · simp
    · simp
    · simp
    · exact absurd rfl (h a b c t)

/-- Output sample `e` of a stream: sample A or B of triplet `e / 2` (R131). -/
theorem unpackStream_getElem (l : List Byte) (e : Nat) (h : e < 2 * (l.length / 3)) :
    (unpackStream l).1[e]? = some (u12Sample
      (if e % 2 = 0 then tripletA (l.getD (3 * (e / 2)) 0) (l.getD (3 * (e / 2) + 1) 0)
        else tripletB (l.getD (3 * (e / 2) + 1) 0) (l.getD (3 * (e / 2) + 2) 0))) := by
  induction l using unpackStream.induct generalizing e with
  | case1 b0 b1 b2 rest ih =>
    rw [unpackStream]
    match e with
    | 0 => simp
    | 1 => simp
    | e + 2 =>
      have h' : e < 2 * (rest.length / 3) := by simp only [List.length_cons] at h; omega
      have := ih e h'
      simp only [List.getElem?_cons_succ, this, Nat.add_mod_right, show (e + 2) / 2 = e / 2 + 1 by omega,
        show 3 * (e / 2 + 1) = 3 * (e / 2) + 1 + 1 + 1 by omega, List.getD_cons_succ]
  | case2 rest hne =>
    rcases rest with _ | ⟨a, _ | ⟨b, _ | ⟨c, t⟩⟩⟩
    · simp at h
    · simp at h
    · simp at h
    · exact absurd rfl (hne a b c t)

theorem carryPhase_lt (c : Word) : carryPhase c < 4 := Nat.mod_lt _ (by norm_num)

theorem length_carryPending {c : Word} (h : carryPhase c ≠ 3) : (carryPending c).length = carryPhase c := by
  have := carryPhase_lt c
  simp only [carryPending, List.length_take, List.length_cons, List.length_nil]
  omega

theorem length_u12Stream {s : State} (h : carryPhase (s.reg Reg.CRY) ≠ 3) :
    (u12Stream s).length = carryPhase (s.reg Reg.CRY) + (s.reg Reg.LEN).toNat := by
  simp [u12Stream, length_carryPending h, Memory.bytes]

/-- The logical stream, byte by byte. -/
theorem u12Stream_getD {s : State} (h : carryPhase (s.reg Reg.CRY) ≠ 3) {j : Nat}
    (hj : j < carryPhase (s.reg Reg.CRY) + (s.reg Reg.LEN).toNat) : ((u12Stream s).getD j 0).toNat = u12Byte s j := by
  have hp := length_carryPending h
  have hlt := carryPhase_lt (s.reg Reg.CRY)
  unfold u12Stream u12Byte
  split
  · next h1 =>
    rw [List.getD_append _ _ _ _ (by omega)]
    have hb : ∀ k, wordBits (s.reg Reg.CRY) k 8 < 256 := fun k => Nat.mod_lt _ (by norm_num)
    have : j = 0 ∨ j = 1 := by omega
    rcases this with rfl | rfl
    · simp [carryPending, List.getD_eq_getElem?_getD, h1, Nat.mod_eq_of_lt (hb 8)]
    · simp [carryPending, List.getD_eq_getElem?_getD, h1, Nat.mod_eq_of_lt (hb 16)]
  · next h1 =>
    rw [List.getD_append_right _ _ _ _ (by omega), hp]
    have : j - carryPhase (s.reg Reg.CRY) < (s.reg Reg.LEN).toNat := by omega
    simp [Memory.bytes, List.getD_eq_getElem?_getD, this]

/-! ### The expanded block -/

theorem length_repeatPair (i q : Word) (n : Nat) : (repeatPair i q n).length = 2 * n := by
  induction n with
  | zero => rfl
  | succ n ih => simp only [repeatPair, List.length_cons, ih]; omega

theorem repeatPair_getElem (i q : Word) (n r ch : Nat) (hr : r < n) (hc : ch < 2) :
    (repeatPair i q n)[2 * r + ch]? = some (if ch = 0 then i else q) := by
  induction n generalizing r with
  | zero => omega
  | succ n ih =>
    cases r with
    | zero =>
      have : ch = 0 ∨ ch = 1 := by omega
      rcases this with rfl | rfl <;> simp [repeatPair]
    | succ r =>
      rw [show 2 * (r + 1) + ch = 2 * r + ch + 1 + 1 by omega]
      simpa [repeatPair] using ih r (by omega)

theorem length_expandBlock (k : Nat) (x : List Word) : (expandBlock k x).length = 2 * (x.length / 2 * 2 ^ k) := by
  fun_induction expandBlock k x with
  | case1 i q rest ih =>
    rw [List.length_append, length_repeatPair, ih, List.length_cons, List.length_cons,
      show (rest.length + 1 + 1) / 2 = rest.length / 2 + 1 by omega]
    ring
  | case2 x h =>
    rcases x with _ | ⟨a, _ | ⟨b, t⟩⟩
    · simp
    · simp
    · exact absurd rfl (h a b t)

/-- Sample `j` of the expanded block of an even block is that of its pair (R160). -/
theorem expandBlock_getElem (k : Nat) (x : List Word) (j : Nat) (hj : j < 2 * (x.length / 2 * 2 ^ k)) :
    (expandBlock k x)[j]? = x[2 * (j / 2 / 2 ^ k) + j % 2]? := by
  fun_induction expandBlock k x generalizing j with
  | case1 i q rest ih =>
    have hk : 0 < 2 ^ k := by positivity
    by_cases h : j < 2 * 2 ^ k
    · rw [List.getElem?_append_left (by rw [length_repeatPair]; exact h)]
      have hq : j / 2 / 2 ^ k = 0 := Nat.div_eq_of_lt (by omega)
      have := repeatPair_getElem i q (2 ^ k) (j / 2) (j % 2) (by omega) (by omega)
      rw [show 2 * (j / 2) + j % 2 = j by omega] at this
      rw [this, hq]
      have : j % 2 = 0 ∨ j % 2 = 1 := by omega
      rcases this with h2 | h2 <;> simp [h2]
    · rw [List.getElem?_append_right (by rw [length_repeatPair]; omega), length_repeatPair, ih]
      · have h1 : (j - 2 * 2 ^ k) / 2 = j / 2 - 2 ^ k := by omega
        have h2 : (j / 2 - 2 ^ k) / 2 ^ k = j / 2 / 2 ^ k - 1 := by
          simpa using Nat.sub_mul_div (j / 2) (2 ^ k) 1
        have h3 : 1 ≤ j / 2 / 2 ^ k := (Nat.one_le_div_iff hk).2 (by omega)
        have h4 : (j - 2 * 2 ^ k) % 2 = j % 2 := by omega
        rw [h1, h2, h4]
        conv_rhs => rw [show 2 * (j / 2 / 2 ^ k) + j % 2 = 2 * (j / 2 / 2 ^ k - 1) + j % 2 + 1 + 1 by omega]
        simp
      · have : (rest.length + 1 + 1) / 2 = rest.length / 2 + 1 := by omega
        rw [List.length_cons, List.length_cons, this, add_mul] at hj
        omega
  | case2 x h =>
    rcases x with _ | ⟨a, _ | ⟨b, t⟩⟩
    · simp at hj
    · simp at hj
    · exact absurd rfl (h a b t)

end Sys2Proof.Machine
end

