-- ==== Sys2Proof/Laws/Fir.lean ====
section
/-! SUPPORT. The logical stream of a work command by index, and what a work command leaves in memory and history. -/

namespace Sys2Proof.Machine

theorem Context.Inv.valid {f : Context} (h : f.Inv) (hv : f.valid = true) :
    (1 ≤ f.ntaps.toNat ∧ f.ntaps.toNat ≤ 64) ∧ f.dec.toNat ≤ 6 ∧ f.int.toNat ≤ 2 ∧ 2 * f.ntaps.toNat ≤ f.maxblk.toNat ∧
    (∀ i : Fin 64, f.ntaps.toNat ≤ i.val → f.tap[i] = 0) ∧
    (f.dom = .X → (∀ i : Fin 64, f.tap[i].toNat < 2 ^ 16) ∧
      ∀ i : Fin 128, i.val < 2 * f.ntaps.toNat → f.hist[i].toNat < 2 ^ 16) := by
  unfold Context.Inv at h
  rwa [if_pos hv] at h

theorem length_firInput (dom : Domain) (s : State) : (firInput dom s).length = (s.reg Reg.LEN).toNat := by
  simp [firInput]

theorem firInput_getElem? (dom : Domain) (s : State) (i : Nat) (h : i < (s.reg Reg.LEN).toNat) :
    (firInput dom s)[i]? = some (inputAt dom s i) := by
  simp [firInput, inputAt, h]

/-- S has `2L + N * 2^k` samples (R159). -/
theorem length_firStream {dom : Domain} {f : Context} {s : State} (hL : f.ntaps.toNat ≤ 64)
    (hN : (s.reg Reg.LEN).toNat % 2 = 0) :
    (firStream dom f s).length = 2 * f.ntaps.toNat + (s.reg Reg.LEN).toNat * 2 ^ f.int.toNat := by
  rw [firStream, List.length_append, length_expandBlock, length_firInput, List.length_take, Vector.length_toList,
    ← mul_assoc, show 2 * ((s.reg Reg.LEN).toNat / 2) = (s.reg Reg.LEN).toNat by omega]
  omega

/-- Sample `j` of the stream (R159, R160). -/
theorem firStream_getD {dom : Domain} {f : Context} {s : State} (hL : f.ntaps.toNat ≤ 64)
    (hN : (s.reg Reg.LEN).toNat % 2 = 0) {j : Nat}
    (hj : j < 2 * f.ntaps.toNat + (s.reg Reg.LEN).toNat * 2 ^ f.int.toNat) :
    (firStream dom f s).getD j 0 = streamAt dom f s j := by
  have hl : (f.hist.toList.take (2 * f.ntaps.toNat)).length = 2 * f.ntaps.toNat := by
    rw [List.length_take, Vector.length_toList]
    omega
  unfold firStream streamAt
  split
  · next h =>
    rw [List.getD_append _ _ _ _ (by omega), List.getD_eq_getElem?_getD, List.getD_eq_getElem?_getD,
      List.getElem?_take_of_lt h]
  · next h =>
    rw [List.getD_append_right _ _ _ _ (by omega), hl]
    have hx : 2 * ((firInput dom s).length / 2 * 2 ^ f.int.toNat) = (s.reg Reg.LEN).toNat * 2 ^ f.int.toNat := by
      rw [length_firInput, ← mul_assoc, show 2 * ((s.reg Reg.LEN).toNat / 2) = (s.reg Reg.LEN).toNat by omega]
    have hi : 2 * ((j - 2 * f.ntaps.toNat) / 2 / 2 ^ f.int.toNat) + (j - 2 * f.ntaps.toNat) % 2 <
        (s.reg Reg.LEN).toNat := by
      have h1 : (j - 2 * f.ntaps.toNat) / 2 / 2 ^ f.int.toNat < (s.reg Reg.LEN).toNat / 2 := by
        rw [Nat.div_lt_iff_lt_mul (by positivity)]
        have h2 : (s.reg Reg.LEN).toNat * 2 ^ f.int.toNat = 2 * ((s.reg Reg.LEN).toNat / 2 * 2 ^ f.int.toNat) := by
          rw [← mul_assoc, show 2 * ((s.reg Reg.LEN).toNat / 2) = (s.reg Reg.LEN).toNat by omega]
        omega
      omega
    rw [List.getD_eq_getElem?_getD, expandBlock_getElem _ _ _ (by omega), firInput_getElem? _ _ _ hi, Option.getD_some]

/-- Every sample an output meets lies in the stream (R161: "every index is inside S"). -/
theorem tapSample_index_lt {dom : Domain} {f : Context} {n : Nat} (h : WorkChecksPass dom f n) {o i : Nat}
    (ho : o < n * 2 ^ f.int.toNat / 2 ^ f.dec.toNat) :
    2 * (f.ntaps.toNat + o / 2 * 2 ^ f.dec.toNat - i) + o % 2 < 2 * f.ntaps.toNat + n * 2 ^ f.int.toNat := by
  obtain ⟨q, hq⟩ := Nat.dvd_of_mod_eq_zero h.2.2.2.2.2
  have h2 : 0 < 2 ^ f.dec.toNat := by positivity
  have e1 : n * 2 ^ f.int.toNat = 2 * (q * 2 ^ f.dec.toNat) := by rw [hq, pow_succ]; ring
  have e2 : n * 2 ^ f.int.toNat / 2 ^ f.dec.toNat = 2 * q := by
    rw [e1, ← mul_assoc, Nat.mul_div_cancel _ h2]
  rw [e2] at ho
  have h3 : (o / 2 + 1) * 2 ^ f.dec.toNat ≤ q * 2 ^ f.dec.toNat := Nat.mul_le_mul_right _ (by omega)
  rw [add_mul, one_mul] at h3
  have : o % 2 < 2 := Nat.mod_lt _ (by norm_num)
  omega

/-- The taps in use, each with the sample it meets (R161). -/
theorem firTerms_eq {dom : Domain} {f : Context} {s : State} (h : WorkChecksPass dom f (s.reg Reg.LEN).toNat)
    (hL : f.ntaps.toNat ≤ 64) {o : Nat} (ho : o < (s.reg Reg.LEN).toNat * 2 ^ f.int.toNat / 2 ^ f.dec.toNat) :
    (f.tap.toList.take f.ntaps.toNat).zip
      (firWindow (firStream dom f s) f.ntaps.toNat (f.ntaps.toNat + o / 2 * 2 ^ f.dec.toNat) (o % 2)) =
    (List.range f.ntaps.toNat).map fun i => (tapAt f i, tapSample dom f s o i) := by
  refine List.ext_getElem (by simp [firWindow, hL]) fun i h1 h2 => ?_
  have hi : i < f.ntaps.toNat := by simpa using h2
  have hs := firStream_getD (dom := dom) (f := f) (s := s) hL h.2.2.2.2.1 (tapSample_index_lt h (i := i) ho)
  simp only [List.getElem_zip, List.getElem_map, List.getElem_range, firWindow, List.getElem_take, tapSample, hs, tapAt]
  simp [List.getD_eq_getElem?_getD, show i < 64 by omega]

/-- Output element `o` of a work command in its checks (R161): the dot product over the taps in use. -/
theorem firOutput_getD {dom : Domain} {f : Context} {s : State} (h : WorkChecksPass dom f (s.reg Reg.LEN).toNat) {o : Nat}
    (ho : o < (s.reg Reg.LEN).toNat * 2 ^ f.int.toNat / 2 ^ f.dec.toNat) :
    (firOutput dom f s).getD o 0 = firDot dom s o (f.tap.toList.take f.ntaps.toNat)
      (firWindow (firStream dom f s) f.ntaps.toNat (f.ntaps.toNat + o / 2 * 2 ^ f.dec.toNat) (o % 2)) := by
  have : o < 2 * firPairs f (s.reg Reg.LEN).toNat := by rw [two_mul_firPairs h]; exact ho
  simp [firOutput, List.getD_eq_getElem?_getD, this]

/-- What a work command that passes its checks leaves in memory (R170). -/
theorem workResult_stored {dom : Domain} {c : CtxId} {s : State} (hm : s.mem.wf = true)
    (h : WorkChecksPass dom (s.context c) (s.reg Reg.LEN).toNat) (hok : (workAccess dom (s.context c) s).Ok s.params) :
    Stored s.mem (workResult dom c s).mem (workAccess dom (s.context c) s) fun o =>
      ((firOutput dom (s.context c) s).getD o 0).toNat % 256 ^ dom.width := by
  have := stored_writeElems hm (workAccess dom (s.context c) s) (fun o => (firOutput dom (s.context c) s).getD o 0)
    hok.2.2.2
  have e : (workResult dom c s).mem = s.mem.writeElems dom.width
      (layElems (s.reg Reg.DA).toNat dom.width (firOutput dom (s.context c) s)) := rfl
  rw [e, layElems_eq, length_firOutput, two_mul_firPairs h]
  exact this

/-- The history a work command leaves (R169). -/
theorem firHistory_get {dom : Domain} {f : Context} {s : State} (hL : f.ntaps.toNat ≤ 64)
    (hN : (s.reg Reg.LEN).toNat % 2 = 0) (i : Fin 128) :
    (firHistory f (firStream dom f s))[i] =
      if i.val < 2 * f.ntaps.toNat then streamAt dom f s ((s.reg Reg.LEN).toNat * 2 ^ f.int.toNat + i.val)
      else f.hist[i] := by
  simp only [firHistory, Fin.getElem_fin, Vector.getElem_ofFn]
  split
  · next hi =>
    rw [length_firStream hL hN, firStream_getD hL hN (by omega)]
    congr 1
    omega
  · rfl

end Sys2Proof.Machine
end

