-- ==== Sys2Proof/Laws/Float.lean ====
section
/-! SUPPORT. The pieces of binary32 arithmetic: fields of a packed pattern, the value a rounding answers, and the cases
where nothing is lost. -/

namespace Sys2Proof.Machine

/-! ### Patterns -/

theorem f32Pack_toNat {neg : Bool} {p : Nat} (h : p < 2 ^ 31) :
    (f32Pack neg p).toNat = if neg then 2 ^ 31 + p else p := by
  cases neg <;> simp [f32Pack] <;> omega

@[simp] theorem f32Neg_pack {neg : Bool} {p : Nat} (h : p < 2 ^ 31) : f32Neg (f32Pack neg p) = neg := by
  rw [f32Neg, wordBits, f32Pack_toNat h]
  cases neg
  · simp; omega
  · simp; omega

theorem f32Expo_pack {neg : Bool} {p : Nat} (h : p < 2 ^ 31) : f32Expo (f32Pack neg p) = p / 2 ^ 23 := by
  rw [f32Expo, wordBits, f32Pack_toNat h]
  cases neg
  · simp; omega
  · simp; omega

theorem f32Frac_pack {neg : Bool} {p : Nat} (h : p < 2 ^ 31) : f32Frac (f32Pack neg p) = p % 2 ^ 23 := by
  rw [f32Frac, wordBits, f32Pack_toNat h]
  cases neg
  · simp
  · simp; omega

theorem f32IsFinite_pack {neg : Bool} {p : Nat} (h : p < f32InfMag) : f32IsFinite (f32Pack neg p) = true := by
  simp only [f32InfMag] at h
  simp [f32IsFinite, f32Expo_pack (neg := neg) (p := p) (by omega)]
  omega

/-- A pattern made of an exponent step and a significand of at most 24 bits (or a carry out of it) has their value. -/
theorem f32Mag_pack {neg : Bool} {e q : Nat} (hq : q ≤ 2 ^ 24) (hn : 2 ^ 23 ≤ q ∨ e = 0) (h : e * 2 ^ 23 + q < f32InfMag) :
    f32Mag (f32Pack neg (e * 2 ^ 23 + q)) = q * 2 ^ e := by
  simp only [f32InfMag] at h
  rw [f32Mag, f32Expo_pack (by omega), f32Frac_pack (by omega)]
  rcases Nat.lt_or_ge q (2 ^ 23) with h1 | h1
  · have he : e = 0 := by omega
    subst he
    have h2 : (0 * 2 ^ 23 + q) / 2 ^ 23 = 0 := by omega
    simp only [h2, if_true]
    omega
  · rcases Nat.lt_or_ge q (2 ^ 24) with h2 | h2
    · have h3 : (e * 2 ^ 23 + q) / 2 ^ 23 = e + 1 := by omega
      have h4 : 2 ^ 23 + (e * 2 ^ 23 + q) % 2 ^ 23 = q := by omega
      rw [h3, if_neg (by omega), h4, Nat.add_sub_cancel]
    · have hq' : q = 2 ^ 24 := by omega
      subst hq'
      have h3 : (e * 2 ^ 23 + 2 ^ 24) / 2 ^ 23 = e + 2 := by omega
      have h4 : 2 ^ 23 + (e * 2 ^ 23 + 2 ^ 24) % 2 ^ 23 = 2 ^ 23 := by omega
      rw [h3, if_neg (by omega), h4, show e + 2 - 1 = e + 1 by omega, pow_succ 2 e]
      ring

/-! ### Rounding -/

theorem roundEven_zero_shift (m : Nat) : roundEven m 0 = m := by
  simp [roundEven, Nat.mod_one]

/-- Nothing is rounded away when the low bits are 0. -/
theorem roundEven_mul (c k : Nat) : roundEven (c * 2 ^ k) k = c := by
  have : 0 < 2 ^ k := by positivity
  simp [roundEven, Nat.mul_div_cancel _ this]

/-- The rounded quotient is the quotient or one more. -/
theorem roundEven_eq (m k : Nat) : roundEven m k = m / 2 ^ k ∨ roundEven m k = m / 2 ^ k + 1 := by
  simp only [roundEven]
  split
  · exact .inl rfl
  · split
    · exact .inr rfl
    · have := Nat.mod_two_eq_zero_or_one (m / 2 ^ k)
      omega

/-- The rounded quotient times the divisor is within half of it, and a tie goes to the even one. -/
theorem roundEven_near (m k : Nat) :
    (2 * (roundEven m k * 2 ^ k) ≤ 2 * m + 2 ^ k ∧ 2 * m ≤ 2 * (roundEven m k * 2 ^ k) + 2 ^ k) ∧
    (2 * (roundEven m k * 2 ^ k) = 2 * m + 2 ^ k ∨ 2 * m = 2 * (roundEven m k * 2 ^ k) + 2 ^ k →
      roundEven m k % 2 = 0) := by
  have hd := Nat.div_add_mod m (2 ^ k)
  have hm : m % 2 ^ k < 2 ^ k := Nat.mod_lt _ (by positivity)
  rw [mul_comm] at hd
  generalize hQ : m / 2 ^ k = q at hd
  generalize hR : m % 2 ^ k = r at hd hm
  have h1 : (q + 1) * 2 ^ k = q * 2 ^ k + 2 ^ k := by ring
  simp only [roundEven, hQ, hR]
  split
  · omega
  · split
    · rw [h1]
      omega
    · have h2 := Nat.mod_two_eq_zero_or_one q
      rcases h2 with h2 | h2
      · rw [h2, Nat.add_zero]
        omega
      · rw [h2, h1]
        omega

/-- At most 24 bits are left, and all 24 when the rounding went above the smallest unit. -/
theorem roundEven_shift_bounds {m : Nat} (hm : m ≠ 0) (s : Nat) :
    roundEven m (roundShift m s) ≤ 2 ^ 24 ∧ (s < roundShift m s → 2 ^ 23 ≤ roundEven m (roundShift m s)) := by
  have hlt : m < 2 ^ (Nat.log2 m + 1) := Nat.lt_log2_self
  have hge : 2 ^ Nat.log2 m ≤ m := Nat.log2_self_le hm
  have key := roundEven_eq m (roundShift m s)
  have hs : Nat.log2 m - 23 ≤ roundShift m s := Nat.le_max_right _ _
  have hq : m / 2 ^ roundShift m s < 2 ^ 24 := by
    rw [Nat.div_lt_iff_lt_mul (by positivity), ← pow_add]
    exact lt_of_lt_of_le hlt (Nat.pow_le_pow_right (by norm_num) (by omega))
  refine ⟨by omega, fun h => ?_⟩
  have he : roundShift m s = Nat.log2 m - 23 := by
    unfold roundShift at h ⊢
    omega
  have h23 : 23 ≤ Nat.log2 m := by omega
  have : 2 ^ 23 ≤ m / 2 ^ roundShift m s := by
    rw [Nat.le_div_iff_mul_le (by positivity), ← pow_add, he, show 23 + (Nat.log2 m - 23) = Nat.log2 m by omega]
    exact hge
  omega

theorem roundMag_le (m s : Nat) : roundMag m s ≤ f32InfMag := Nat.min_le_left _ _

theorem roundMag_lt (m s : Nat) : roundMag m s < 2 ^ 31 := lt_of_le_of_lt (roundMag_le m s) (by decide)

/-- The value of a rounding that does not overflow: the rounded significand times its unit (R13). -/
theorem f32Mag_roundMag {neg : Bool} {m s : Nat} (h : roundMag m s < f32InfMag) :
    f32Mag (f32Pack neg (roundMag m s)) * 2 ^ s = roundEven m (roundShift m s) * 2 ^ roundShift m s := by
  have hs : s ≤ roundShift m s := Nat.le_max_left _ _
  have he : roundMag m s = (roundShift m s - s) * 2 ^ 23 + roundEven m (roundShift m s) := by
    unfold roundMag at h ⊢
    omega
  rcases Nat.eq_zero_or_pos m with rfl | hm
  · have h0 : roundEven 0 (roundShift 0 s) = 0 := by simp [roundEven]
    have h1 : roundShift 0 s = s := by simp [roundShift]
    rw [he, h0, h1]
    simp only [Nat.sub_self, Nat.zero_mul, Nat.add_zero]
    have := f32Mag_pack (neg := neg) (e := 0) (q := 0) (by norm_num) (.inr rfl) (by decide)
    simp only [Nat.zero_mul, Nat.add_zero, pow_zero, Nat.mul_one] at this
    rw [this, Nat.zero_mul]
  · have hb := roundEven_shift_bounds (Nat.pos_iff_ne_zero.1 hm) s
    rw [he] at h ⊢
    rw [f32Mag_pack hb.1 _ h, mul_assoc, ← pow_add, Nat.sub_add_cancel hs]
    rcases Nat.lt_or_ge s (roundShift m s) with h1 | h1
    · exact .inl (hb.2 h1)
    · exact .inr (by omega)

/-- A magnitude of at most 24 significant bits that is a whole number of smallest units is rounded to itself. -/
theorem roundShift_exact {c j s : Nat} (hc : c < 2 ^ 24) (hs : s ≤ j) :
    roundEven (c * 2 ^ j) (roundShift (c * 2 ^ j) s) * 2 ^ roundShift (c * 2 ^ j) s = c * 2 ^ j := by
  rcases Nat.eq_zero_or_pos c with rfl | hpos
  · simp [roundEven]
  · have hlog : Nat.log2 (c * 2 ^ j) < 24 + j := by
      rw [Nat.log2_lt (by positivity), pow_add]
      exact Nat.mul_lt_mul_of_pos_right hc (by positivity)
    have hk : roundShift (c * 2 ^ j) s ≤ j := by
      unfold roundShift
      omega
    have : c * 2 ^ j = c * 2 ^ (j - roundShift (c * 2 ^ j) s) * 2 ^ roundShift (c * 2 ^ j) s := by
      rw [mul_assoc, ← pow_add, Nat.sub_add_cancel hk]
    conv_lhs => rw [show roundEven (c * 2 ^ j) (roundShift (c * 2 ^ j) s) =
      c * 2 ^ (j - roundShift (c * 2 ^ j) s) from by
        conv_lhs => rw [this]
        rw [← this]
        generalize hK : roundShift (c * 2 ^ j) s = K at hk this ⊢
        rw [this]
        exact roundEven_mul _ _]
    exact this.symm

/-! ### The free NaN -/

/-- Whatever the free word is, the pattern made of it is a NaN (U4). -/
theorem nanOfFree_isNaN (w : Word) : f32IsNaN (nanOfFree w) = true := by
  unfold nanOfFree
  split
  · assumption
  · have hx : (w ||| 0x7FC00000#32).toNat = w.toNat ||| 0x7FC00000 := by simp
    have he : f32Expo (w ||| 0x7FC00000#32) = 255 := by
      rw [f32Expo, wordBits, hx, ← Nat.shiftRight_eq_div_pow, Nat.shiftRight_or_distrib, Nat.or_mod_two_pow]
      have : (0x7FC00000 >>> 23) % 2 ^ 8 = 255 := by decide
      rw [this]
      have h : w.toNat >>> 23 % 2 ^ 8 < 2 ^ 8 := Nat.mod_lt _ (by norm_num)
      have all : ∀ y : Fin 256, y.val ||| 255 = 255 := by decide +kernel
      exact all ⟨_, h⟩
    have hf : f32Frac (w ||| 0x7FC00000#32) ≠ 0 := by
      rw [f32Frac, wordBits, hx, pow_zero, Nat.div_one, Nat.or_mod_two_pow]
      intro h
      have := Nat.or_eq_zero_iff.1 h
      exact absurd this.2 (by decide)
    simpa [f32IsNaN, he] using hf

theorem freeNaN_isNaN (tick elem : Nat) : f32IsNaN (freeNaN tick elem) = true := nanOfFree_isNaN _

end Sys2Proof.Machine
end

