-- ==== Sys2Proof/Laws/PerInstr.lean ====
section
/-! SUPPORT. The per-instruction family `WordOf`: the word of a command carries its row's opcode (30_encoding R70, R73). -/

namespace Sys2Proof.Laws

/-- The opcode byte of `encode i` is that of a row of the opcode map with `i`'s mnemonic. -/
def WordOf.Statement (i : Instr) : Prop :=
  ∃ r ∈ opcodeMap, r.mnemonic = i.mnemonic ∧ opcodeByte (encode i) = opcodeByte r.pattern

theorem opcodeByte_encodeS {op : Nat} (h : op < 256) (rd : Reg) (imm : BitVec 16) :
    (opcodeByte (encodeS op rd imm)).toNat = op := by
  have h1 := rd.isLt
  have h2 := imm.isLt
  simp only [opcodeByte, encodeS, BitVec.toNat_ushiftRight, BitVec.toNat_ofNat, Nat.shiftRight_eq_div_pow]
  omega

theorem opcodeByte_encodeO {op : Nat} (h : op < 256) (c : CtxId) : (opcodeByte (encodeO op c)).toNat = op := by
  have h1 := c.isLt
  simp only [opcodeByte, encodeO, BitVec.toNat_ushiftRight, BitVec.toNat_ofNat, Nat.shiftRight_eq_div_pow]
  omega

theorem WordOf.of_opcode {i : Instr} (op : Nat) (r : OpRow) (hr : r ∈ opcodeMap) (hm : r.mnemonic = i.mnemonic)
    (hw : (opcodeByte (encode i)).toNat = op) (hp : (opcodeByte r.pattern).toNat = op) : WordOf.Statement i :=
  ⟨r, hr, hm, BitVec.eq_of_toNat_eq (hw.trans hp.symm)⟩

theorem WordOf.setl (rd : Reg) (imm : BitVec 16) : WordOf.Statement (.setl rd imm) :=
  WordOf.of_opcode 0x01 ⟨"SETL", 0x01000000, 0xFF8F0000⟩ (by decide) rfl (opcodeByte_encodeS (by decide) rd imm) (by decide)

theorem WordOf.seth (rd : Reg) (imm : BitVec 16) : WordOf.Statement (.seth rd imm) :=
  WordOf.of_opcode 0x02 ⟨"SETH", 0x02000000, 0xFF8F0000⟩ (by decide) rfl (opcodeByte_encodeS (by decide) rd imm) (by decide)

theorem WordOf.cvtI16F32 : WordOf.Statement .cvtI16F32 :=
  WordOf.of_opcode 0x10 ⟨"CVT.I16.F32", 0x10000000, 0xFFFFFFFF⟩ (by decide) rfl (opcodeByte_encodeO (by decide) 0) (by decide)

theorem WordOf.cvtI16F32P : WordOf.Statement .cvtI16F32P :=
  WordOf.of_opcode 0x11 ⟨"CVT.I16.F32P", 0x11000000, 0xFFFFFFFF⟩ (by decide) rfl (opcodeByte_encodeO (by decide) 0) (by decide)

theorem WordOf.cvtI8F32 : WordOf.Statement .cvtI8F32 :=
  WordOf.of_opcode 0x12 ⟨"CVT.I8.F32", 0x12000000, 0xFFFFFFFF⟩ (by decide) rfl (opcodeByte_encodeO (by decide) 0) (by decide)

theorem WordOf.cvtI8F32P : WordOf.Statement .cvtI8F32P :=
  WordOf.of_opcode 0x13 ⟨"CVT.I8.F32P", 0x13000000, 0xFFFFFFFF⟩ (by decide) rfl (opcodeByte_encodeO (by decide) 0) (by decide)

theorem WordOf.cvtF32I16 : WordOf.Statement .cvtF32I16 :=
  WordOf.of_opcode 0x14 ⟨"CVT.F32.I16", 0x14000000, 0xFFFFFFFF⟩ (by decide) rfl (opcodeByte_encodeO (by decide) 0) (by decide)

theorem WordOf.cvtF32PI16 : WordOf.Statement .cvtF32PI16 :=
  WordOf.of_opcode 0x15 ⟨"CVT.F32P.I16", 0x15000000, 0xFFFFFFFF⟩ (by decide) rfl (opcodeByte_encodeO (by decide) 0) (by decide)

theorem WordOf.cvtF32I8 : WordOf.Statement .cvtF32I8 :=
  WordOf.of_opcode 0x16 ⟨"CVT.F32.I8", 0x16000000, 0xFFFFFFFF⟩ (by decide) rfl (opcodeByte_encodeO (by decide) 0) (by decide)

theorem WordOf.cvtF32PI8 : WordOf.Statement .cvtF32PI8 :=
  WordOf.of_opcode 0x17 ⟨"CVT.F32P.I8", 0x17000000, 0xFFFFFFFF⟩ (by decide) rfl (opcodeByte_encodeO (by decide) 0) (by decide)

theorem WordOf.cvtI16PI16 : WordOf.Statement .cvtI16PI16 :=
  WordOf.of_opcode 0x18 ⟨"CVT.I16P.I16", 0x18000000, 0xFFFFFFFF⟩ (by decide) rfl (opcodeByte_encodeO (by decide) 0) (by decide)

theorem WordOf.cvtI16I16P : WordOf.Statement .cvtI16I16P :=
  WordOf.of_opcode 0x19 ⟨"CVT.I16.I16P", 0x19000000, 0xFFFFFFFF⟩ (by decide) rfl (opcodeByte_encodeO (by decide) 0) (by decide)

theorem WordOf.u12F32 : WordOf.Statement .u12F32 :=
  WordOf.of_opcode 0x20 ⟨"U12.F32", 0x20000000, 0xFFFFFFFF⟩ (by decide) rfl (opcodeByte_encodeO (by decide) 0) (by decide)

theorem WordOf.firInitF (c : CtxId) : WordOf.Statement (.firInitF c) :=
  WordOf.of_opcode 0x30 ⟨"FIR.INITF", 0x30000000, 0xFFFCFFFF⟩ (by decide) rfl (opcodeByte_encodeO (by decide) c) (by decide)

theorem WordOf.firInitX (c : CtxId) : WordOf.Statement (.firInitX c) :=
  WordOf.of_opcode 0x31 ⟨"FIR.INITX", 0x31000000, 0xFFFCFFFF⟩ (by decide) rfl (opcodeByte_encodeO (by decide) c) (by decide)

theorem WordOf.firWorkF (c : CtxId) : WordOf.Statement (.firWorkF c) :=
  WordOf.of_opcode 0x32 ⟨"FIR.WORKF", 0x32000000, 0xFFFCFFFF⟩ (by decide) rfl (opcodeByte_encodeO (by decide) c) (by decide)

theorem WordOf.firWorkX (c : CtxId) : WordOf.Statement (.firWorkX c) :=
  WordOf.of_opcode 0x33 ⟨"FIR.WORKX", 0x33000000, 0xFFFCFFFF⟩ (by decide) rfl (opcodeByte_encodeO (by decide) c) (by decide)

theorem WordOf.firFree (c : CtxId) : WordOf.Statement (.firFree c) :=
  WordOf.of_opcode 0x34 ⟨"FIR.FREE", 0x34000000, 0xFFFCFFFF⟩ (by decide) rfl (opcodeByte_encodeO (by decide) c) (by decide)

end Sys2Proof.Laws
end

