-- ==== Sys2Proof/Tests/Slice0.lean ====
section
/-! SUPPORT. The model's own tests: words and results taken from 95_test_vectors and the examples of the rules, one
ill-formed word for each check of WellFormed, and for every statement with hypotheses a state and operands that meet them
all together (the `witness_` theorems). -/

open Sys2Proof Sys2Proof.Machine

namespace Sys2Proof.Tests

/-! One theorem after the other: the many kernel evaluations below, all waiting at once, take gigabytes of stacks. -/
set_option Elab.async false

/-! ## Helpers -/

/-- Bytes laid out from an address. -/
def withBytes (m : Memory) (a : Nat) : List Byte → Memory
  | [] => m
  | b :: t => withBytes (m.write a b) (a + 1) t

/-- The reset state with some registers loaded and some bytes in memory. -/
def ready (regs : List (Reg × Word)) (mem : List (Nat × List Byte)) : State :=
  regs.foldl (fun s r => s.setReg r.1 r.2) (State.reset.setMem (mem.foldl (fun m p => withBytes m p.1 p.2) []))

/-- A valid filter context. -/
def filter (dom : Domain) (d k l : Nat) (m : Word) (taps hist : List Word) : Context :=
  { valid := true, dom := dom, dec := BitVec.ofNat 3 d, int := BitVec.ofNat 2 k, ntaps := BitVec.ofNat 7 l, maxblk := m,
    tap := Vector.ofFn fun i : Fin 64 => taps.getD i.val 0, hist := Vector.ofFn fun i : Fin 128 => hist.getD i.val 0 }

/-- The state of a conversion test of section 2.3: SA = 0x1000, SB = 0x1800, DA = 0x2000, DB = 0x2800. -/
def cvtState (scl len : Word) (src : List Byte) : State :=
  ready [(0, 0x1000), (1, 0x1800), (2, 0x2000), (3, 0x2800), (4, len), (5, scl)] [(0x1000, src)]

/-- The state of an unpacker test of section 2.4: SA = 0x1000, DA = 0x2000. -/
def u12State (cry len : Word) (src : List Byte) : State :=
  ready [(0, 0x1000), (2, 0x2000), (4, len), (6, cry)] [(0x1000, src)]

/-- The state of an init test of section 2.5. -/
def initState (l d k sb : Word) : State := ready [(0, 0x4000), (1, sb), (2, d), (3, k), (4, l)] []

/-- The state before a work command on context 1, input at 0x1000 and output at 0x2000. -/
def workState (f : Context) (n : Word) (src : List Byte) : State :=
  (ready [(0, 0x1000), (2, 0x2000), (4, n)] [(0x1000, src)]).setContext 1 f

/-- The next state of an outcome, or the state given where there is none. -/
def orElse (o : Host.Outcome State Fault Refusal) (s : State) : State :=
  match o with
  | .next t => t
  | _ => s

/-- The outcome is a next state. -/
def answers (o : Host.Outcome State Fault Refusal) : Bool :=
  match o with
  | .next _ => true
  | _ => false

theorem next_of_answers (o : Host.Outcome State Fault Refusal) (s : State) (h : answers o = true) :
    o = .next (orElse o s) := by
  cases o with
  | next t => rfl
  | fault r => exact absurd h (by simp [answers])
  | refused r => exact absurd h (by simp [answers])

/-- `n` bytes of memory after the command, where it answers a next state. -/
def bytesAfter (o : Host.Outcome State Fault Refusal) (a n : Nat) : Option (List Byte) :=
  match o with
  | .next t => some (t.mem.bytes a n)
  | _ => none

/-- What the host reads by number after the command, where it answers a next state. -/
def regAfter (o : Host.Outcome State Fault Refusal) (n : Nat) : Option Word :=
  match o with
  | .next t => some (hostReadReg n t)
  | _ => none

/-- Why the outcome is no next state. -/
def stopOf (o : Host.Outcome State Fault Refusal) : Option (Sum Fault Refusal) :=
  match o with
  | .next _ => none
  | .fault r => some (.inl r)
  | .refused r => some (.inr r)

/-! ## Words (R71 to R75; 95_test_vectors 2.1) -/

/-- The verdicts of the three checks of WellFormed on a word: (a), (b), (c) of R75. -/
def verdicts (w : Word) : List Bool := [opcodeAssigned w, reservedBitsZero w, ctxFieldAllowed w]

/-- One ill-formed word for each check of WellFormed, which that check alone refuses: opcode 0x03; bit 23 or 16 in format
S; bit 0 or 18 in format O; ctx 1 on CVT.I16.F32, ctx 3 on U12.F32. -/
theorem test_illformed_words :
    verdicts 0x03000000 = [false, true, true] ∧ verdicts 0x01800000 = [true, false, true] ∧
    verdicts 0x01410000 = [true, false, true] ∧ verdicts 0x10000001 = [true, false, true] ∧
    verdicts 0x34040000 = [true, false, true] ∧ verdicts 0x10010000 = [true, true, false] ∧
    verdicts 0x20030000 = [true, true, false] ∧ legalWord 0x33020000 = true := by
  decide

/-- The decoder refuses them too, each by the clause that makes it illegal. -/
theorem test_decode_refuses :
    decode 0x00000000 = .error .unassignedOpcode ∧ decode 0xFFFFFFFF = .error .unassignedOpcode ∧
    decode 0x03000000 = .error .unassignedOpcode ∧ decode 0x1A000000 = .error .unassignedOpcode ∧
    decode 0x21000000 = .error .unassignedOpcode ∧ decode 0x35000000 = .error .unassignedOpcode ∧
    decode 0x01800000 = .error .reservedBitSet ∧ decode 0x01410000 = .error .reservedBitSet ∧
    decode 0x10000001 = .error .reservedBitSet ∧ decode 0x34040000 = .error .reservedBitSet ∧
    decode 0x10010000 = .error .ctxNotZero ∧ decode 0x20030000 = .error .ctxNotZero := by
  decide

/-- Every command's word, field by field: opcode 31..24, then in format S a zero, rd 22..20, four zeros and imm16, in
format O six zeros, ctx 17..16 and sixteen zeros. -/
theorem test_decode_setl : decode 0b00000001_0_111_0000_1111111111111111 = .ok (.setl 7 0xFFFF) := by decide
theorem test_decode_seth : decode 0b00000010_0_101_0000_0011111110000000 = .ok (.seth 5 0x3F80) := by decide
theorem test_decode_cvt :
    decode 0b00010000_000000_00_0000000000000000 = .ok .cvtI16F32 ∧
    decode 0b00010001_000000_00_0000000000000000 = .ok .cvtI16F32P ∧
    decode 0b00010010_000000_00_0000000000000000 = .ok .cvtI8F32 ∧
    decode 0b00010011_000000_00_0000000000000000 = .ok .cvtI8F32P ∧
    decode 0b00010100_000000_00_0000000000000000 = .ok .cvtF32I16 ∧
    decode 0b00010101_000000_00_0000000000000000 = .ok .cvtF32PI16 ∧
    decode 0b00010110_000000_00_0000000000000000 = .ok .cvtF32I8 ∧
    decode 0b00010111_000000_00_0000000000000000 = .ok .cvtF32PI8 ∧
    decode 0b00011000_000000_00_0000000000000000 = .ok .cvtI16PI16 ∧
    decode 0b00011001_000000_00_0000000000000000 = .ok .cvtI16I16P := by
  decide
theorem test_decode_u12 : decode 0b00100000_000000_00_0000000000000000 = .ok .u12F32 := by decide
theorem test_decode_fir :
    decode 0b00110000_000000_11_0000000000000000 = .ok (.firInitF 3) ∧
    decode 0b00110001_000000_01_0000000000000000 = .ok (.firInitX 1) ∧
    decode 0b00110010_000000_11_0000000000000000 = .ok (.firWorkF 3) ∧
    decode 0b00110011_000000_10_0000000000000000 = .ok (.firWorkX 2) ∧
    decode 0b00110100_000000_00_0000000000000000 = .ok (.firFree 0) := by
  decide

/-- A word given by the opcode table's numbering reaches the decoder and is the first the block runs after reset
(V-FLT-12, and FIR.FREE of an invalid context). -/
theorem test_fetch_word :
    decodeTableWord 32 0x02503F80 = some (.seth 5 0x3F80) ∧
    regAfter (step (State.reset.withFetchWord 32 0x01700100)) 7 = some 0x100 ∧
    regAfter (step (State.reset.withFetchWord 32 0x33040000)) 8 = some 0x11 ∧
    regAfter (step (State.reset.withFetchWord 32 0x34020000)) 9 = some 0x34020000 := by
  decide

/-! ## Operand setup (95_test_vectors 2.2) -/

theorem test_setl_clears_high : regAfter (exec (.setl 4 0x0100) (ready [(4, 0xDEADBEEF)] [])) 4 = some 0x100 := by decide
theorem test_seth_keeps_low : regAfter (exec (.seth 5 0x3F80) (ready [(5, 0x12345678)] [])) 5 = some 0x3F805678 := by decide

/-! ## Conversions (95_test_vectors 2.3) -/

/-- V-CVT-1. -/
theorem test_cvt_i16_f32 :
    bytesAfter (exec .cvtI16F32 (cvtState 0x38000000 8 [0x00, 0x80, 0xFF, 0x7F, 0x00, 0x00, 0xFF, 0xFF])) 0x2000 16 =
      some [0, 0, 0x80, 0xBF, 0, 0xFE, 0x7F, 0x3F, 0, 0, 0, 0, 0, 0, 0, 0xB8] := by
  decide +kernel
/-- V-CVT-3, a subnormal result, and V-CVT-6, overflow. -/
theorem test_cvt_i16_f32_extremes :
    bytesAfter (exec .cvtI16F32 (cvtState 0x00080000 2 [3, 0])) 0x2000 4 = some [0, 0, 0x18, 0] ∧
    bytesAfter (exec .cvtI16F32 (cvtState 0x7F7FFFFF 4 [2, 0, 0xFE, 0xFF])) 0x2000 8 =
      some [0, 0, 0x80, 0x7F, 0, 0, 0x80, 0xFF] := by
  decide +kernel
/-- V-CVT-8. -/
theorem test_cvt_i16_f32p :
    bytesAfter (exec .cvtI16F32P (cvtState 0x3F800000 6 [1, 0, 0xFE, 0xFF, 3, 0])) 0x2000 8 =
      some [0, 0, 0x80, 0x3F, 0, 0, 0x40, 0x40] ∧
    bytesAfter (exec .cvtI16F32P (cvtState 0x3F800000 6 [1, 0, 0xFE, 0xFF, 3, 0])) 0x2800 8 =
      some [0, 0, 0, 0xC0, 0, 0, 0, 0] := by
  decide +kernel
/-- V-CVT-9. -/
theorem test_cvt_i8_f32 :
    bytesAfter (exec .cvtI8F32 (cvtState 0x3C000000 4 [0x80, 0x7F, 0xFF, 0])) 0x2000 16 =
      some [0, 0, 0x80, 0xBF, 0, 0, 0x7E, 0x3F, 0, 0, 0, 0xBC, 0, 0, 0, 0] := by
  decide +kernel
/-- V-CVT-10. -/
theorem test_cvt_i8_f32p :
    bytesAfter (exec .cvtI8F32P (cvtState 0x3F800000 3 [0x9C, 0x64, 1])) 0x2000 8 =
      some [0, 0, 0xC8, 0xC2, 0, 0, 0x80, 0x3F] ∧
    bytesAfter (exec .cvtI8F32P (cvtState 0x3F800000 3 [0x9C, 0x64, 1])) 0x2800 4 = some [0, 0, 0xC8, 0x42] := by
  decide +kernel
/-- V-CVT-11: truncation toward zero and wraparound. -/
theorem test_cvt_f32_i16 :
    bytesAfter (exec .cvtF32I16 (cvtState 0x3F800000 40
      [0x00, 0xFE, 0xFF, 0x46, 0x00, 0x00, 0x00, 0x47, 0x00, 0x01, 0x00, 0xC7, 0x77, 0xBE, 0x7F, 0x3F,
        0x77, 0xBE, 0x7F, 0xBF, 0x80, 0x02, 0x80, 0x47, 0x00, 0x00, 0x00, 0x80, 0x00, 0x00, 0xC0, 0x3F,
        0x00, 0x00, 0xC0, 0xBF, 0x00, 0x00, 0x20, 0x40])) 0x2000 20 =
      some [0xFF, 0x7F, 0, 0x80, 0xFF, 0x7F, 0, 0, 0, 0, 5, 0, 0, 0, 1, 0, 0xFF, 0xFF, 2, 0] := by
  decide +kernel
/-- V-CVT-13: the product is rounded once before truncation. V-CVT-21: element 1 is 0 although element 0 is a NaN. -/
theorem test_cvt_f32_i16_rounds_once :
    bytesAfter (exec .cvtF32I16 (cvtState 0x41200000 4 [0xCD, 0xCC, 0xCC, 0x3D])) 0x2000 2 = some [1, 0] ∧
    fmul 0 0x3F333333 0x41200000 = 0x40E00000 ∧ answers (exec .cvtF32I16 (cvtState 0x3F800000 4 [0, 0, 0xC0, 0x7F])) := by
  decide +kernel
/-- V-CVT-16. -/
theorem test_cvt_f32p_i16 :
    bytesAfter (exec .cvtF32PI16 (ready [(0, 0x1000), (1, 0x1800), (2, 0x2000), (4, 20), (5, 0x3F800000)]
      [(0x1000, [0, 0, 0x80, 0x3F, 0, 0, 0x40, 0x40, 0, 0, 0xA0, 0x40]),
        (0x1800, [0, 0, 0, 0xC0, 0, 0, 0x80, 0xC0])])) 0x2000 10 =
      some [1, 0, 0xFE, 0xFF, 3, 0, 0xFC, 0xFF, 5, 0] := by
  decide +kernel
/-- V-CVT-15. -/
theorem test_cvt_f32_i8 :
    bytesAfter (exec .cvtF32I8 (cvtState 0x3F800000 24
      [0xCD, 0xCC, 0xFF, 0x42, 0, 0, 0, 0x43, 0, 0, 1, 0xC3, 0, 0x40, 0x96, 0x43, 0, 0, 0, 0xBF, 0, 0, 0, 0xC3])) 0x2000 6 =
      some [0x7F, 0x80, 0x7F, 0x2C, 0, 0x80] := by
  decide +kernel
/-- V-CVT-17. -/
theorem test_cvt_f32p_i8 :
    bytesAfter (exec .cvtF32PI8 (ready [(0, 0x1000), (1, 0x1800), (2, 0x2000), (4, 20), (5, 0x40000000)]
      [(0x1000, [0, 0, 0x80, 0x3F, 0, 0, 0x40, 0x40, 0, 0, 0xA0, 0x40]),
        (0x1800, [0, 0, 0, 0xC0, 0, 0, 0x80, 0xC0])])) 0x2000 5 =
      some [2, 0xFC, 6, 0xF8, 10] := by
  decide +kernel
/-- V-CVT-18. -/
theorem test_cvt_i16p_i16 :
    bytesAfter (exec .cvtI16PI16 (ready [(0, 0x1000), (1, 0x1800), (2, 0x2000), (4, 10), (5, 0x7FC00000)]
      [(0x1000, [0x11, 0x11, 0x33, 0x33, 0x55, 0x55]), (0x1800, [0x22, 0x22, 0x44, 0x44])])) 0x2000 10 =
      some [0x11, 0x11, 0x22, 0x22, 0x33, 0x33, 0x44, 0x44, 0x55, 0x55] := by
  decide +kernel
/-- V-CVT-20: the trailing byte is not read. -/
theorem test_cvt_i16_i16p :
    bytesAfter (exec .cvtI16I16P (cvtState 0 9 [0x11, 0x11, 0x22, 0x22, 0x33, 0x33, 0x44, 0x44, 0x55, 0x55])) 0x2000 6 =
      some [0x11, 0x11, 0x33, 0x33, 0, 0] ∧
    bytesAfter (exec .cvtI16I16P (cvtState 0 9 [0x11, 0x11, 0x22, 0x22, 0x33, 0x33, 0x44, 0x44, 0x55, 0x55])) 0x2800 4 =
      some [0x22, 0x22, 0x44, 0x44] := by
  decide +kernel
/-- V-CVT-23 and V-CVT-24, a range passing 2^32 (R58) and one byte not implemented (R57). -/
theorem test_unspecified_commands_stop :
    stopOf (exec .cvtI16F32 ((cvtState 0x3F800000 2 [0x9C]).setReg Reg.SA 0x1001)) = some (.inr .misaligned) ∧
    stopOf (exec .cvtI16F32 (ready [(0, 0x1002), (2, 0x1004), (4, 4)] [])) = some (.inr .overlap) ∧
    stopOf (exec .cvtI16F32 ((cvtState 0x3F800000 4 []).setReg Reg.DA 0xFFFFFFFC)) = some (.inr .addressOverflow) ∧
    stopOf (exec .cvtI16F32 { cvtState 0x3F800000 4 [] with
      params := { Params.default with memMap := [(0, 0x1003)] } }) = some (.inl (.unimplementedMemory 0x1003)) := by
  decide +kernel

/-! ## Unpacker (95_test_vectors 2.4) -/

/-- V-U12-10. -/
theorem test_u12 :
    bytesAfter (exec .u12F32 (u12State 0x00ABCD02 5 [0xEF, 1, 2, 3, 4])) 0x2000 16 =
      some [0x00, 0x60, 0x06, 0xBD, 0x00, 0x00, 0x03, 0xBC, 0x00, 0x40, 0x80, 0x3C, 0x00, 0x00, 0xC0, 0x3A] ∧
    regAfter (exec .u12F32 (u12State 0x00ABCD02 5 [0xEF, 1, 2, 3, 4])) 6 = some 0x00000401 := by
  decide +kernel
/-- V-U12-12, V-U12-13 and V-U12-16. -/
theorem test_u12_carry :
    regAfter (exec .u12F32 (u12State 0xAB12FF01 0 [])) 6 = some 0x0000FF01 ∧
    regAfter (exec .u12F32 (u12State 0xFFFFFFFE 0 [])) 6 = some 0x00FFFF02 ∧
    regAfter (exec .u12F32 (u12State 0x12345607 3 [1, 2, 3])) 8 = some 0x31 ∧
    regAfter (exec .u12F32 (u12State 0x12345607 3 [1, 2, 3])) 6 = some 0x12345607 := by
  decide +kernel

/-! ## Filters (95_test_vectors 2.5 to 2.8) -/

/-- V-INI-3, V-INI-9 and V-INI-11. -/
theorem test_fir_initf :
    regAfter (exec (.firInitF 0) (initState 64 6 2 128)) 16 = some 0x00400261 ∧
    regAfter (exec (.firInitF 0) (initState 2 0 0 3)) 7 = some 0xFFFFFFEA ∧
    regAfter (exec (.firInitF 0) (initState 64 0 0 262017)) 7 = some 0xFFFFFFF4 := by
  decide +kernel
/-- V-INI-12, and V-INI-15 on an existing filter. -/
theorem test_fir_initx :
    regAfter (exec (.firInitX 0) (initState 64 0 0 262017)) 17 = some 0x0003FF81 ∧
    regAfter (exec (.firInitX 1) (workState (filter .X 0 0 1 2 [] []) 0 [])) 7 = some 0xFFFFFFF0 := by
  decide +kernel
/-- V-FIR-3: the order of the float sum. -/
theorem test_fir_workf :
    bytesAfter (exec (.firWorkF 1) (workState (filter .F 0 0 3 8 [0x3F800000, 0x3F800000, 0x3F800000] []) 6
      [0, 0, 0x80, 0x3F, 0, 0, 0, 0, 0, 0, 0x80, 0x4B, 0, 0, 0, 0, 0, 0, 0x80, 0xCB])) 0x2000 24 =
      some [0, 0, 0x80, 0x3F, 0, 0, 0, 0, 0, 0, 0x80, 0x4B, 0, 0, 0, 0, 0, 0, 0x80, 0x3F, 0, 0, 0, 0] := by
  decide +kernel
/-- V-FIR-3 "tells the parameter FDOT apart": its output pair 2 is 1.0 newest first and 0.0 oldest first; its exact sum,
which an accumulator of 53 bits keeps, is 1.0 in either order. -/
theorem test_fdot :
    let taps : List Word := [0x3F800000, 0x3F800000, 0x3F800000]
    let samples : List Word := [0xCB800000, 0x4B800000, 0x3F800000]
    let oldestFirst := TapOrder.tree (.add (.add (.add .start (.tap 2)) (.tap 1)) (.tap 0))
    dotF FDot.default 0 taps samples = 0x3F800000 ∧ dotF (.summed .descending 0 .unfused) 0 taps samples = 0 ∧
    dotF (.summed oldestFirst 0 .unfused) 0 taps samples = 0 ∧ dotF (.summed oldestFirst 0 .fused) 0 taps samples = 0 ∧
    dotF (.summed .descending 0 (.wide 53)) 0 taps samples = 0x3F800000 ∧
    dotF (.summed oldestFirst 0 (.wide 24)) 0 taps samples = 0 := by
  decide +kernel
/-- The example of R172: taps 16384 and 8192, decimation by 2. -/
theorem test_fir_workx :
    bytesAfter (exec (.firWorkX 1) (workState (filter .X 1 0 2 8 [0x4000, 0x2000] []) 8
      [0x64, 0, 0x9C, 0xFF, 0x9C, 0xFF, 0x64, 0, 0x28, 0, 0, 0, 0, 0, 0xFF, 0xFF])) 0x2000 8 =
      some [0x19, 0, 0xE7, 0xFF, 0xFD, 0xFF, 0x0C, 0] ∧
    regAfter (exec (.firWorkX 1) (workState (filter .X 1 0 2 8 [0x4000, 0x2000] []) 8 [])) 7 = some 4 := by
  decide +kernel
/-- V-FLT-1, V-FLT-5, V-FLT-3, V-FLT-8 and V-FLT-10 on context 1 of 2. -/
theorem test_fir_work_faults :
    let s := workState (filter .X 1 0 2 8 [1, 1] [])
    regAfter (exec (.firWorkX 1) (s 2 [])) 8 = some 0x221 ∧ regAfter (exec (.firWorkX 1) (s 3 [])) 8 = some 0x221 ∧
    regAfter (exec (.firWorkX 1) (s 6 [])) 8 = some 0x261 ∧ regAfter (exec (.firWorkF 1) (s 4 [])) 8 = some 0x251 ∧
    regAfter (exec (.firWorkF 2) (s 2 [])) 8 = some 0x241 ∧ regAfter (exec (.firWorkX 1) (s 6 [])) 9 = some 0x33010000 := by
  decide +kernel
/-- FIR.FREE of a valid context (R173) and V-FLT-11. -/
theorem test_fir_free :
    let s := workState (filter .X 1 0 2 8 [1, 1] []) 0 []
    regAfter (exec (.firFree 1) s) 18 = some 0 ∧ regAfter (exec (.firFree 1) s) 8 = some 0 ∧
    regAfter (exec (.firFree 2) s) 8 = some 0x241 := by
  decide +kernel

/-! ## Witnesses: the hypotheses of the statements, met together

Each theorem names the statement it is for. -/

/-- EncodeOfDecodeIsTheWord; DecodeFollowsMatchAndMask; OpcodeRowsExclusive. -/
theorem witness_words :
    decode 0x33020000 = .ok (.firWorkX 2) ∧ (⟨"FIR.WORKX", 0x33000000, 0xFFFCFFFF⟩ : OpRow) ∈ opcodeMap ∧
    (⟨"FIR.WORKX", 0x33000000, 0xFFFCFFFF⟩ : OpRow).matchesWord 0x33020000 = true := by
  decide

/-- IllegalWordsFault; StepRunsTheDecodedCommand; PresentedWordRunsNext; HaltedBlockIgnoresWords and OnlyResetLeavesHalt; FaultsArePrecise and
CommandsSucceedOrAreViolations. -/
theorem witness_step :
    (let s := hostPresent 0x03000000 State.reset
     s.halt = false ∧ s.program[s.cmdIndex]? = some 0x03000000 ∧ legalWord 0x03000000 = false) ∧
    (let s := hostPresent 0x01400100 State.reset
     s.halt = false ∧ s.program[s.cmdIndex]? = some 0x01400100 ∧ decode 0x01400100 = .ok (.setl 4 0x100)) ∧
    (State.reset.halt = false ∧ State.reset.cmdIndex = State.reset.program.length) ∧
    (State.reset.raiseFault .illegal 0x03000000).halt = true := by
  decide

/-- FixedToFloatConverts: each of the four commands; one element whose destination ends at 2^32; no element at all. -/
theorem witness_fixed_to_float :
    (∀ f ∈ ([⟨2, 4, .interleaved, .interleaved⟩, ⟨2, 4, .interleaved, .planar⟩, ⟨1, 4, .interleaved, .interleaved⟩,
        ⟨1, 4, .interleaved, .planar⟩] : List CvtForm),
      (cvtState 0x3F800000 6 [1, 0, 2, 0, 3, 0]).mem.wf = true ∧
      (cvtAccess f (cvtState 0x3F800000 6 [1, 0, 2, 0, 3, 0])).Ok Params.default) ∧
    (cvtAccess ⟨2, 4, .interleaved, .interleaved⟩ ((cvtState 0x3F800000 2 [1]).setReg Reg.DA 0xFFFFFFFC)).Ok
      Params.default ∧
    (cvtAccess ⟨2, 4, .interleaved, .planar⟩ (ready [(0, 1), (2, 1), (4, 1)] [])).Ok Params.default :=
  ⟨by decide +kernel, by decide +kernel, by decide +kernel⟩

/-- FloatToFixedConverts and ReshuffleMovesElements: each of the six commands. -/
theorem witness_to_fixed :
    ∀ f ∈ ([⟨4, 2, .interleaved, .interleaved⟩, ⟨4, 2, .planar, .interleaved⟩, ⟨4, 1, .interleaved, .interleaved⟩,
        ⟨4, 1, .planar, .interleaved⟩, ⟨2, 2, .planar, .interleaved⟩, ⟨2, 2, .interleaved, .planar⟩] : List CvtForm),
      (cvtState 0x3F800000 12 [0, 0, 0x80, 0x3F]).mem.wf = true ∧
      (cvtAccess f (cvtState 0x3F800000 12 [0, 0, 0x80, 0x3F])).Ok Params.default := by
  decide +kernel

/-- ReshuffleThereAndBack. -/
theorem witness_there_and_back :
    let s := cvtState 0 6 [0x11, 0x11, 0x22, 0x22, 0x33, 0x33]
    s.mem.wf = true ∧ ∃ t, exec .cvtI16I16P s = .next t ∧
      ∃ u, exec .cvtI16PI16 (((t.setReg Reg.SA (s.reg Reg.DA)).setReg Reg.SB (s.reg Reg.DB)).setReg Reg.DA 0x3000) =
        .next u :=
  ⟨by decide +kernel, _, next_of_answers _ State.reset (by decide +kernel), _,
    next_of_answers _ State.reset (by decide +kernel)⟩

/-- ProductCorrectlyRounded and SumCorrectlyRounded: two finite values; an overflowing and an inexact product; an exact
zero. NaNResultsExactlyWhenInvalid: a NaN pattern. -/
theorem witness_finite_values :
    (f32IsFinite 0x7F7FFFFF = true ∧ f32IsInf (fmul 0 0x7F7FFFFF 0x7F7FFFFF) = true) ∧
    (f32IsFinite 0x3F333333 = true ∧ f32IsInf (fmul 0 0x3F333333 0x41200000) = false) ∧
    (fadd 0 0x3F800000 0xBF800000 = 0 ∧ fadd 0 0x80000000 0x80000000 = 0x80000000) ∧
    f32IsInf (fadd 0 0xFF7FFFFF 0xFF7FFFFF) = true ∧ f32IsNaN 0x7FC00000 = true := by
  decide +kernel

/-- IntegersConvertExactly and FloatTruncatesTowardZero at the ends of their ranges: 2^24 - 1; -2^31 and the greatest
float below 2^31. -/
theorem witness_integers :
    |(2 ^ 24 - 1 : Int)| < 2 ^ 24 ∧
    (f32IsFinite 0xCF000000 = true ∧ -2 ^ 31 ≤ (f32Units 0xCF000000).tdiv (2 ^ 149) ∧
      (f32Units 0xCF000000).tdiv (2 ^ 149) ≤ 2 ^ 31 - 1) ∧
    (f32IsFinite 0x4EFFFFFF = true ∧ -2 ^ 31 ≤ (f32Units 0x4EFFFFFF).tdiv (2 ^ 149) ∧
      (f32Units 0x4EFFFFFF).tdiv (2 ^ 149) ≤ 2 ^ 31 - 1) :=
  ⟨by decide +kernel, by decide +kernel, by decide +kernel⟩

/-- FixedFloatFixedRoundTrip: both widths, p = -100 and p = 100. FloatFixedFloatRoundTrip: the least float of the 16-bit
range at p = 0 and at p = -127 and p = 127 the value 2^-127 and its scale; 0.3 (example E1) at p = 7. -/
theorem witness_round_trips :
    ((8 : Nat) = 8 ∧ (-100 : Int) ≤ -100 ∧ (-100 : Int) ≤ 100) ∧ ((16 : Nat) = 16 ∧ (-100 : Int) ≤ 100 ∧ (100 : Int) ≤ 100) ∧
    (f32IsFinite 0xC7000000 = true ∧ -2 ^ (16 - 1) * 2 ^ 276 ≤ f32Units 0xC7000000 * 2 ^ ((0 : Int) + 127).toNat ∧
      f32Units 0xC7000000 * 2 ^ ((0 : Int) + 127).toNat < 2 ^ (16 - 1) * 2 ^ 276) ∧
    (f32IsFinite 0x3E99999A = true ∧ -2 ^ (8 - 1) * 2 ^ 276 ≤ f32Units 0x3E99999A * 2 ^ ((7 : Int) + 127).toNat ∧
      f32Units 0x3E99999A * 2 ^ ((7 : Int) + 127).toNat < 2 ^ (8 - 1) * 2 ^ 276) ∧
    f32Units (pow2Pattern (-127)) * 2 ^ ((127 : Int) + 127).toNat < 2 ^ (8 - 1) * 2 ^ 276 ∧
    f32Units (pow2Pattern 127) * 2 ^ ((-127 : Int) + 127).toNat < 2 ^ (8 - 1) * 2 ^ 276 := by
  decide +kernel

/-- UnpackerDecodesTriplets at phases 0, 1 and 2, with 0, 1 and 2 bytes left over; InvalidPhaseFaults. -/
theorem witness_u12 :
    (u12Access (u12State 0 4 [0x23, 0xD1, 0xFE, 0])).Ok Params.default ∧
    carryPhase ((u12State 0x00002301 4 []).reg Reg.CRY) ≠ 3 ∧
    (u12Access (u12State 0x00002301 4 [0xD1, 0xFE])).Ok Params.default ∧
    carryPhase ((u12State 0x00D12302 4 []).reg Reg.CRY) ≠ 3 ∧
    (u12Access (u12State 0x00D12302 4 [0xFE])).Ok Params.default ∧ (u12State 0x00D12302 4 [0xFE]).mem.wf = true ∧
    carryPhase ((u12State 0x12345607 3 []).reg Reg.CRY) = 3 :=
  ⟨by decide +kernel, by decide +kernel, by decide +kernel, by decide +kernel, by decide +kernel, by decide +kernel,
    by decide +kernel⟩

/-- UnpackerSplitInvariance (V-U12-7, cut into 1, 3, 0 and 2 bytes) and UnpackerHasNoHiddenState (the second machine holds other
buffers, another SCL and a filter). -/
theorem witness_u12_streams :
    let s := u12State 0 6 [0x23, 0xD1, 0xFE, 0, 0xF8, 0x7F]
    let s' := ready [(0, 0x5001), (2, 0x6000), (4, 6), (5, 1)] [(0x5001, [0x23, 0xD1, 0xFE, 0, 0xF8, 0x7F])]
    s.mem.wf = true ∧ s'.mem.wf = true ∧ carryPhase (s.reg Reg.CRY) ≠ 3 ∧ (s.reg Reg.LEN).toNat = ([1, 3, 0, 2] : List Nat).sum ∧
    s'.reg Reg.CRY = s.reg Reg.CRY ∧ s'.reg Reg.LEN = s.reg Reg.LEN ∧
    (∀ j, j < (s.reg Reg.LEN).toNat → s'.mem.read ((s'.reg Reg.SA).toNat + j) = s.mem.read ((s.reg Reg.SA).toNat + j)) ∧
    (∃ t, exec .u12F32 s = .next t) ∧ ∃ t', exec .u12F32 s' = .next t' :=
  ⟨by decide +kernel, by decide +kernel, by decide +kernel, by decide +kernel, by decide +kernel, by decide +kernel,
    by decide +kernel, ⟨_, next_of_answers _ State.reset (by decide +kernel)⟩,
    ⟨_, next_of_answers _ State.reset (by decide +kernel)⟩⟩

/-- InitCreatesFilter: the least filter, and the largest of each field, in both domains. -/
theorem witness_init_passes :
    ∀ dom ∈ ([.F, .X] : List Domain), ∀ s ∈ [initState 1 0 0 2, initState 64 6 2 128],
      InitChecksPass dom 0 s ∧ (initAccess dom s).Ok s.params := by
  decide +kernel

/-- InitErrorLeavesOnlyRes: each clause; of the range check each of its five bounds (V-INI-5 to V-INI-9); the first
size that does not fit (V-INI-11). -/
theorem witness_init_errors :
    ((workState (filter .X 0 0 1 2 [] []) 0 []).context 1).valid = true ∧
    (∀ s ∈ [initState 0 0 0 2, initState 65 0 0 130, initState 1 7 0 2, initState 1 0 3 2, initState 2 0 0 3],
      (s.context 0).valid = false ∧
      ((s.reg Reg.LEN).toNat < 1 ∨ 64 < (s.reg Reg.LEN).toNat ∨ 6 < (s.reg Reg.DA).toNat ∨ 2 < (s.reg Reg.DB).toNat ∨
        (s.reg Reg.SB).toNat < 2 * (s.reg Reg.LEN).toNat)) ∧
    (let s := initState 64 0 0 262017
     (s.context 0).valid = false ∧ (1 ≤ (s.reg Reg.LEN).toNat ∧ (s.reg Reg.LEN).toNat ≤ 64) ∧
     (s.reg Reg.DA).toNat ≤ 6 ∧ (s.reg Reg.DB).toNat ≤ 2 ∧ 2 * (s.reg Reg.LEN).toNat ≤ (s.reg Reg.SB).toNat ∧
     s.params.ctxCapBytes <
       (2 * (s.reg Reg.LEN).toNat + (s.reg Reg.SB).toNat * 2 ^ (s.reg Reg.DB).toNat) * Domain.F.width) := by
  decide +kernel

/-- FreeDestroysFilter: a valid context and an invalid one. -/
theorem witness_free :
    ((workState (filter .X 0 0 1 2 [] []) 0 []).context 1).valid = true ∧
    ((workState (filter .X 0 0 1 2 [] []) 0 []).context 2).valid = false := by
  decide

/-- WorkFaultsInOrder: each clause, and of the last each of its three alternatives alone. -/
theorem witness_work_faults :
    let f := filter .X 1 0 2 8 [1, 1] []
    (State.reset.context 1).valid = false ∧ (f.valid = true ∧ f.dom ≠ .F) ∧
    (f.dom = .X ∧ 3 < 2 * f.ntaps.toNat) ∧
    (2 * f.ntaps.toNat ≤ 12 ∧ f.maxblk.toNat < 12 ∧ 12 * 2 ^ f.int.toNat % 2 ^ (f.dec.toNat + 1) = 0) ∧
    (2 * f.ntaps.toNat ≤ 5 ∧ 5 ≤ f.maxblk.toNat ∧ 5 % 2 = 1) ∧
    (2 * f.ntaps.toNat ≤ 6 ∧ 6 ≤ f.maxblk.toNat ∧ 6 * 2 ^ f.int.toNat % 2 ^ (f.dec.toNat + 1) ≠ 0) := by
  decide

/-- A fixed-point filter that interpolates by 4 and decimates by 2, with `n` samples to filter. -/
def workXState (n : Word) : State :=
  workState (filter .X 1 2 2 8 [0x4000, 0x4000] [1, 2, 3, 0xFFFF]) n [4, 0, 8, 0, 12, 0, 16]

/-- The same in domain F, with a NaN tap. -/
def workFState (n : Word) : State :=
  workState (filter .F 1 2 2 8 [0x3F000000, 0x7FC00000] [0x3F800000]) n [0, 0, 0x80, 0x3F]

/-- FixedPointFilterWorks: the shortest legal block and the longest. -/
theorem witness_workx :
    ((workXState 4).mem.wf = true ∧ ((workXState 4).context 1).Inv ∧
      WorkChecksPass .X ((workXState 4).context 1) ((workXState 4).reg Reg.LEN).toNat ∧
      (workAccess .X ((workXState 4).context 1) (workXState 4)).Ok (workXState 4).params) ∧
    WorkChecksPass .X ((workXState 8).context 1) ((workXState 8).reg Reg.LEN).toNat ∧
    (workAccess .X ((workXState 8).context 1) (workXState 8)).Ok (workXState 8).params :=
  ⟨⟨by decide +kernel, by decide +kernel, by decide +kernel, by decide +kernel⟩, by decide +kernel, by decide +kernel⟩

/-- FloatFilterWorks, likewise. -/
theorem witness_workf :
    ((workFState 4).mem.wf = true ∧ ((workFState 4).context 1).Inv ∧ (workFState 4).params.fdot = FDot.default ∧
      WorkChecksPass .F ((workFState 4).context 1) ((workFState 4).reg Reg.LEN).toNat ∧
      (workAccess .F ((workFState 4).context 1) (workFState 4)).Ok (workFState 4).params) ∧
    WorkChecksPass .F ((workFState 8).context 1) ((workFState 8).reg Reg.LEN).toNat ∧
    (workAccess .F ((workFState 8).context 1) (workFState 8)).Ok (workFState 8).params :=
  ⟨⟨by decide +kernel, by decide +kernel, by decide +kernel, by decide +kernel, by decide +kernel⟩, by decide +kernel,
    by decide +kernel⟩

/-- ExpansionRepeatsPairs; AccumulatorWidthUnobservable (n = 32). -/
theorem witness_expansion :
    ([1, 2, 3, 4] : List Word).length % 2 = 0 ∧ 1 < ([1, 2, 3, 4] : List Word).length / 2 ∧ 3 < 2 ^ 2 ∧ 1 < 2 ∧ 32 ≤ 32 := by
  decide

/-- TreeOrderCoversAscending and WideAccumulatorRoundsOnce: one term, of two finite values; an ascending tree takes each
tap once. -/
theorem witness_fdot :
    (([0x7F7FFFFF] : List Word).zip [0xFF7FFFFF]).length ≤ 64 ∧ 1024 ≤ 1024 ∧
    (∀ t ∈ ([0x7F7FFFFF] : List Word).zip [0xFF7FFFFF], f32IsFinite t.1 = true ∧ f32IsFinite t.2 = true) ∧
    (FDot.summed (.tree (ascendingTree 64)) 0 .unfused).orderOk = true :=
  ⟨by decide, le_refl _, fun t ht => by rw [List.mem_singleton.mp ht]; decide, by decide +kernel⟩

/-- FixedPointHistoryContinuity: a block of 8 cut into 4 and 4 (program P4). -/
theorem witness_continuity_x :
    let s := workState (filter .X 1 0 2 8 [0x4000, 0x2000] []) 8 [0x64, 0, 0x9C, 0xFF]
    s.mem.wf = true ∧ (s.context 1).Inv ∧ (s.reg Reg.LEN).toNat = 4 + 4 ∧ WorkChecksPass .X (s.context 1) (4 + 4) ∧
    WorkChecksPass .X (s.context 1) 4 ∧ ∃ t, exec (.firWorkX 1) s = .next t :=
  ⟨by decide +kernel, by decide +kernel, by decide +kernel, by decide +kernel, by decide +kernel,
    _, next_of_answers _ State.reset (by decide +kernel)⟩

/-- FloatHistoryContinuity: the same in domain F. -/
theorem witness_continuity_f :
    let s := workState (filter .F 1 0 2 8 [0x3F000000, 0x3E800000] []) 8 [0, 0, 0x80, 0x3F]
    s.mem.wf = true ∧ (s.context 1).Inv ∧ s.params.fdot = FDot.default ∧ (s.reg Reg.LEN).toNat = 4 + 4 ∧
    WorkChecksPass .F (s.context 1) (4 + 4) ∧ WorkChecksPass .F (s.context 1) 4 ∧
    ∃ t, exec (.firWorkF 1) s = .next t :=
  ⟨by decide +kernel, by decide +kernel, by decide +kernel, by decide +kernel, by decide +kernel, by decide +kernel,
    _, next_of_answers _ State.reset (by decide +kernel)⟩

/-- ImpulseFilterPassesThrough: 2 taps, a block of 4 samples, one of them -0.0. -/
theorem witness_impulse :
    let s := workState (filter .F 0 0 2 8 [0x3F800000] []) 4 [0, 0, 0, 0x80, 0, 0, 0x80, 0x3F]
    s.mem.wf = true ∧ (s.context 1).Inv ∧ s.params.fdot = FDot.default ∧
    WorkChecksPass .F (s.context 1) (s.reg Reg.LEN).toNat ∧ (s.context 1).dec = 0 ∧ (s.context 1).int = 0 ∧
    tapAt (s.context 1) 0 = 0x3F800000 ∧ (∀ i, i < 64 → 1 ≤ i → tapAt (s.context 1) i = 0) ∧
    (∀ j, j < 2 * (s.context 1).ntaps.toNat + (s.reg Reg.LEN).toNat →
      f32IsFinite (streamAt .F (s.context 1) s j) = true) ∧
    ∃ t, exec (.firWorkF 1) s = .next t :=
  ⟨by decide +kernel, by decide +kernel, by decide +kernel, by decide +kernel, by decide +kernel, by decide +kernel,
    by decide +kernel, by decide +kernel, by decide +kernel, _, next_of_answers _ State.reset (by decide +kernel)⟩

/-- FilterRegisterLayout: a valid filter with every field at its largest, and an invalid one. -/
theorem witness_filter_registers :
    (filter .X 6 2 64 128 [] []).valid = true ∧ fcfgReg (filter .X 6 2 64 128 [] []) = 0x00400263 ∧
    Context.reset.valid = false := by
  decide

/-- OnlyNamedRegistersWritten, MemoryChangesOnlyAtDestination, CompletesExactlyWhenAccessible,
MemoryReadOnlyAtSource (with a memory that differs far away): a command that stores and answers a next state. -/
theorem witness_commands :
    let s := cvtState 0x3F800000 2 [0x9C, 0xFF]
    let m := s.mem.write 0x9000 1
    s.mem.wf = true ∧ m.wf = true ∧ (accessOf .cvtI16F32 s).Ok s.params ∧ ((accessOf .cvtI16F32 s).Outside 0x2004) ∧
    (∀ a, (accessOf .cvtI16F32 s).Reads a → m.read a = s.mem.read a) ∧ ∃ t, exec .cvtI16F32 s = .next t :=
  ⟨by decide +kernel, by decide +kernel, by decide +kernel, by decide +kernel,
    fun a ⟨e, he, h1, h2⟩ => by
      have he : e = 0 := Nat.lt_one_iff.mp he
      subst he
      have h2 : a < 0x1000 + 2 := h2
      rw [Memory.read_write (by decide +kernel), if_neg (by omega)],
    _, next_of_answers _ State.reset (by decide +kernel)⟩

/-- ContextsShareNothing: another context than the one named; StepKeepsInvariant: a reachable state with a filter in it,
and the state of a fault. -/
theorem witness_invariant :
    (2 : CtxId) ∉ namedCtx (.firWorkX 1) ∧
    ((hostPresent 0x33010000 (workXState 8)).Inv ∧ answers (step (hostPresent 0x33010000 (workXState 8))) = true) ∧
    ((hostPresent 0x20000000 (u12State 3 0 [])).Inv ∧
      (orElse (step (hostPresent 0x20000000 (u12State 3 0 []))) State.reset).Inv ∧
      (orElse (step (hostPresent 0x20000000 (u12State 3 0 []))) State.reset).halt = true) :=
  ⟨by decide +kernel, ⟨by decide +kernel, by decide +kernel⟩, by decide +kernel, by decide +kernel, by decide +kernel⟩

end Sys2Proof.Tests
end

section
/-! SUPPORT. Correct rounding without the rounding function (00_scope R13): which exact values overflow, and that no finite
binary32 value is nearer to the exact value than the rounded one. -/

namespace Sys2Proof.Machine

/-! ### The fields of a packed pattern -/

theorem f32IsInf_pack {neg : Bool} {p : Nat} (h : p ≤ f32InfMag) :
    f32IsInf (f32Pack neg p) = true ↔ p = f32InfMag := by
  simp only [f32InfMag] at h ⊢
  simp only [f32IsInf, f32Expo_pack (neg := neg) (p := p) (by omega), f32Frac_pack (neg := neg) (p := p) (by omega),
    Bool.and_eq_true, beq_iff_eq]
  omega

theorem f32IsNaN_pack {neg : Bool} {p : Nat} (h : p ≤ f32InfMag) : f32IsNaN (f32Pack neg p) = false := by
  simp only [f32InfMag] at h
  simp only [f32IsNaN, f32Expo_pack (neg := neg) (p := p) (by omega), f32Frac_pack (neg := neg) (p := p) (by omega),
    Bool.and_eq_false_iff, beq_eq_false_iff_ne, bne_eq_false_iff_eq]
  omega

theorem f32Units_eq_signedMag (b : Word) : f32Units b = signedMag (f32Neg b) (f32Mag b) := rfl

theorem f32Units_pack {neg : Bool} {p : Nat} (h : p < 2 ^ 31) :
    f32Units (f32Pack neg p) = signedMag neg (f32Mag (f32Pack neg p)) := by
  rw [f32Units_eq_signedMag, f32Neg_pack h]

/-- Every magnitude is a significand of at most 24 bits times a power of 2. -/
theorem f32Mag_eq_mul_pow (b : Word) : ∃ q e, f32Mag b = q * 2 ^ e ∧ q < 2 ^ 24 := by
  have hf : f32Frac b < 2 ^ 23 := Nat.mod_lt _ (by norm_num)
  unfold f32Mag
  split
  · exact ⟨f32Frac b, 0, by ring, by omega⟩
  · exact ⟨_, _, rfl, by omega⟩

theorem f32Mag_lt {b : Word} (h : f32IsFinite b = true) : f32Mag b < 2 ^ 277 := by
  have he : f32Expo b < 2 ^ 8 := Nat.mod_lt _ (by norm_num)
  have hf : f32Frac b < 2 ^ 23 := Nat.mod_lt _ (by norm_num)
  have hne : f32Expo b ≠ 255 := by simpa [f32IsFinite] using h
  unfold f32Mag
  split
  · omega
  · calc (2 ^ 23 + f32Frac b) * 2 ^ (f32Expo b - 1)
        ≤ (2 ^ 23 + f32Frac b) * 2 ^ 253 := Nat.mul_le_mul_left _ (Nat.pow_le_pow_right (by norm_num) (by omega))
      _ < 2 ^ 277 := by omega

theorem f32Mag_eq_zero_iff (b : Word) : f32Mag b = 0 ↔ f32Units b = 0 := by
  unfold f32Units
  split <;> simp

/-! ### Signed magnitudes -/

theorem abs_signedMag (neg : Bool) (m : Nat) : |signedMag neg m| = m := by
  cases neg <;> simp [signedMag]

theorem signedMag_mul (n₁ n₂ : Bool) (a b : Nat) :
    signedMag n₁ a * signedMag n₂ b = signedMag (xor n₁ n₂) (a * b) := by
  cases n₁ <;> cases n₂ <;> simp [signedMag]

theorem signedMag_mul_natCast (neg : Bool) (a b : Nat) : signedMag neg a * b = signedMag neg (a * b) := by
  cases neg <;> simp [signedMag]

/-- The sign of a signed magnitude that is not zero. -/
theorem decide_signedMag_neg {neg : Bool} {m : Nat} (h : m ≠ 0) : decide (signedMag neg m < 0) = neg := by
  cases neg
  · simp [signedMag]
  · simp [signedMag]
    omega

/-! ### The number of bits rounded away -/

theorem le_roundShift_of_pow_le {m d : Nat} (s : Nat) (h : 2 ^ (d + 23) ≤ m) : d ≤ roundShift m s := by
  have hm : m ≠ 0 := by
    have : 0 < 2 ^ (d + 23) := by positivity
    omega
  have hlog : d + 23 ≤ Nat.log2 m := (Nat.le_log2 hm).mpr h
  exact le_trans (by omega) (Nat.le_max_right s _)

/-- Above the smallest unit the leading bit decides how many bits are rounded away. -/
theorem pow_le_of_lt_roundShift {m s : Nat} (h : s < roundShift m s) : 2 ^ (roundShift m s + 23) ≤ m := by
  have hk : roundShift m s + 23 = Nat.log2 m := by
    unfold roundShift at h ⊢
    omega
  have hm : m ≠ 0 := by
    rintro rfl
    simp at hk
  rw [hk]
  exact Nat.log2_self_le hm

/-! ### Overflow -/

@[simp] theorem roundMag_zero (s : Nat) : roundMag 0 s = 0 := by
  simp [roundMag, roundEven, roundShift]

/-- A significand is rounded up to 2^24 from the midpoint below it on, because 2^24 is the even neighbour. -/
theorem pow_le_roundEven_iff (m k : Nat) : 2 ^ 24 ≤ roundEven m k ↔ (2 ^ 25 - 1) * 2 ^ k ≤ 2 * m := by
  obtain ⟨⟨hle, hge⟩, htie⟩ := roundEven_near m k
  generalize roundEven m k = q at hle hge htie ⊢
  constructor
  · intro h
    have := Nat.mul_le_mul_right (2 ^ k) h
    omega
  · intro h
    by_contra hlt
    rcases Nat.lt_or_ge q (2 ^ 24 - 1) with hq | hq
    · have hp : 0 < 2 ^ k := by positivity
      have := Nat.mul_le_mul_right (2 ^ k) (show q + 1 ≤ 2 ^ 24 - 1 by omega)
      rw [Nat.add_mul] at this
      omega
    · have hmul : q * 2 ^ k = (2 ^ 24 - 1) * 2 ^ k := by rw [show q = 2 ^ 24 - 1 by omega]
      have := htie (.inr (by omega))
      omega

/-- A magnitude is rounded to infinity exactly from the midpoint between the greatest finite value and 2^128 on. In the
binade of the greatest finite value (253 bits above the smallest unit) the rounded significand decides; below it nothing
overflows, and above it everything does. -/
theorem roundMag_eq_inf_iff (m s : Nat) : roundMag m s = f32InfMag ↔ (2 ^ 25 - 1) * 2 ^ 252 * 2 ^ s ≤ m := by
  rcases Nat.eq_zero_or_pos m with rfl | hm
  · have hp : 0 < 2 ^ s := by positivity
    rw [roundMag_zero]
    exact iff_of_false (by decide) (by omega)
  obtain ⟨hq, hnorm⟩ := roundEven_shift_bounds hm.ne' s
  have hpow : ∀ d, 2 ^ (s + d) = 2 ^ d * 2 ^ s := fun d => by rw [pow_add, mul_comm]
  have hp : 0 < 2 ^ s := by positivity
  have hmag : roundMag m s = f32InfMag ↔
      f32InfMag ≤ (roundShift m s - s) * 2 ^ 23 + roundEven m (roundShift m s) := min_eq_left_iff
  rw [hmag, f32InfMag]
  rcases Nat.lt_trichotomy (roundShift m s) (s + 253) with hk | hk | hk
  · refine iff_of_false (by omega) fun h => ?_
    have hbig : 2 ^ (s + 253 + 23) ≤ m := by
      rw [add_assoc, hpow]
      omega
    have := le_roundShift_of_pow_le s hbig
    omega
  · have hmid := pow_le_roundEven_iff m (roundShift m s)
    rw [hk] at hmid ⊢
    rw [hpow] at hmid
    omega
  · have hbig := pow_le_of_lt_roundShift (m := m) (s := s) (by omega)
    have hle : 2 ^ (s + 277) ≤ 2 ^ (roundShift m s + 23) := Nat.pow_le_pow_right (by norm_num) (by omega)
    rw [hpow] at hle
    have := hnorm (by omega)
    exact iff_of_true (by omega) (by omega)

/-! ### The nearest value -/

/-- Two different multiples of a positive number are at least that number apart. -/
theorem le_abs_mul_sub_mul {n q p : Int} (hp : 0 ≤ p) (h : n ≠ q) : p ≤ |n * p - q * p| := by
  rw [← sub_mul, abs_mul, abs_of_nonneg hp]
  exact le_mul_of_one_le_left hp (Int.one_le_abs (sub_ne_zero.mpr h))

/-- No multiple of 2^k is nearer to `m` than the rounded quotient's, and between two equally near ones the rounded
quotient is even. -/
theorem roundEven_nearest (m k : Nat) (n : Int) :
    |(roundEven m k : Int) * 2 ^ k - m| ≤ |n * 2 ^ k - m| ∧
    (|(roundEven m k : Int) * 2 ^ k - m| = |n * 2 ^ k - m| → n ≠ roundEven m k → roundEven m k % 2 = 0) := by
  rcases eq_or_ne n (roundEven m k) with rfl | hne
  · exact ⟨le_refl _, fun _ h => absurd rfl h⟩
  obtain ⟨⟨hle, hge⟩, htie⟩ := roundEven_near m k
  have hfar := le_abs_mul_sub_mul (p := 2 ^ k) (by positivity) hne
  have hcast : ((roundEven m k * 2 ^ k : Nat) : Int) = roundEven m k * 2 ^ k := by push_cast; rfl
  have hpow : ((2 ^ k : Nat) : Int) = 2 ^ k := by push_cast; rfl
  rw [← hcast] at hfar ⊢
  generalize roundEven m k * 2 ^ k = v at hle hge htie hfar ⊢
  generalize n * 2 ^ k = w at hfar ⊢
  rw [← hpow] at hfar
  generalize 2 ^ k = p at hle hge htie hfar
  simp only [Int.abs_eq_natAbs] at hfar ⊢
  omega

/-- A value of at most 24 significant bits that is a whole number of smallest units (2^s) is no nearer to `m` than the
rounded magnitude, which is even when they are equally near: the value is a multiple of the unit 2^k of the rounding, or
it lies below all magnitudes whose leading bit is that of `m`. -/
theorem roundShift_nearest (m s : Nat) {q e : Nat} (hq : q < 2 ^ 24) {v : Int} (hv : |v| = (q * 2 ^ e * 2 ^ s : Nat)) :
    let k := roundShift m s
    |(roundEven m k : Int) * 2 ^ k - m| ≤ |v - m| ∧
    (|(roundEven m k : Int) * 2 ^ k - m| = |v - m| → v ≠ (roundEven m k : Int) * 2 ^ k → roundEven m k % 2 = 0) := by
  intro k
  have hsplit : q * 2 ^ e * 2 ^ s = q * 2 ^ (e + s) := by rw [mul_assoc, pow_add]
  rw [hsplit] at hv
  rcases Nat.lt_or_ge (e + s) k with hlow | hhigh
  · have hm : 2 ^ (k + 23) ≤ m := pow_le_of_lt_roundShift (show s < roundShift m s by omega)
    have hlt : q * 2 ^ (e + s) < 2 ^ (k + 23) := by
      calc q * 2 ^ (e + s) < 2 ^ 24 * 2 ^ (e + s) := Nat.mul_lt_mul_of_pos_right hq (by positivity)
        _ = 2 ^ (24 + (e + s)) := (pow_add 2 24 (e + s)).symm
        _ ≤ 2 ^ (k + 23) := Nat.pow_le_pow_right (by norm_num) (by omega)
    have hnear := (roundEven_nearest m k (2 ^ 23)).1
    rw [show (2 ^ 23 * 2 ^ k : Int) = (2 ^ (k + 23) : Nat) by push_cast; ring] at hnear
    generalize 2 ^ (k + 23) = b at hm hlt hnear
    have hfar : |(b : Int) - m| < |v - m| := by
      simp only [Int.abs_eq_natAbs] at hv ⊢
      omega
    exact ⟨(hnear.trans_lt hfar).le, fun heq => absurd heq (hnear.trans_lt hfar).ne⟩
  · have hdvd : (2 ^ k : Int) ∣ v := by
      rw [← dvd_abs, hv]
      push_cast
      exact (pow_dvd_pow 2 hhigh).mul_left _
    obtain ⟨n, rfl⟩ := hdvd
    rw [mul_comm (2 ^ k : Int) n]
    obtain ⟨hle, htie⟩ := roundEven_nearest m k n
    exact ⟨hle, fun heq hne => htie heq fun hn => hne (by rw [hn])⟩

/-- The same for either sign. -/
theorem roundShift_nearest_signed (neg : Bool) (m s : Nat) {q e : Nat} (hq : q < 2 ^ 24) {v : Int}
    (hv : |v| = (q * 2 ^ e * 2 ^ s : Nat)) :
    let r := signedMag neg (roundEven m (roundShift m s) * 2 ^ roundShift m s)
    |r - signedMag neg m| ≤ |v - signedMag neg m| ∧
    (|r - signedMag neg m| = |v - signedMag neg m| → v ≠ r → roundEven m (roundShift m s) % 2 = 0) := by
  cases neg with
  | false =>
    simpa only [signedMag, Bool.false_eq_true, if_false, Nat.cast_mul, Nat.cast_pow, Nat.cast_ofNat]
      using roundShift_nearest m s hq hv
  | true =>
    obtain ⟨hle, htie⟩ := roundShift_nearest m s hq (v := -v) (by rw [abs_neg, hv])
    have hflip : ∀ x : Int, |x - signedMag true m| = |-x - m| := fun x => by
      rw [← abs_neg]
      exact congrArg abs (by simp only [signedMag, if_true]; ring)
    simp only [hflip]
    simp only [signedMag, if_true, neg_neg, Nat.cast_mul, Nat.cast_pow, Nat.cast_ofNat]
    exact ⟨hle, fun heq hne => htie heq fun h => hne (by rw [← h, neg_neg])⟩

end Sys2Proof.Machine
end

section
/-! SUPPORT. The binary32 statements of 00_scope R12 to R14: one lemma says that a rounded pattern is correctly rounded,
and products, sums and integers are cases of it. -/

namespace Sys2Proof.Machine

/-- R13: `r` is the exact value `z`, counted in units of 2^-149 * 2^-s, rounded to the nearest binary32 value, ties to
even, with overflow to the infinity of the sign of `z`. -/
def RoundsTo (r : Word) (z : Int) (s : Nat) : Prop :=
  (f32IsInf r = true ↔ (2 ^ 25 - 1) * 2 ^ 252 * 2 ^ s ≤ |z|) ∧
  (f32IsInf r = true → f32Neg r = decide (z < 0)) ∧
  (f32IsInf r = false → f32IsFinite r = true ∧ ∀ c : Word, f32IsFinite c = true →
    |f32Units r * 2 ^ s - z| ≤ |f32Units c * 2 ^ s - z| ∧
    (|f32Units r * 2 ^ s - z| = |f32Units c * 2 ^ s - z| → f32Units c ≠ f32Units r → f32Frac r % 2 = 0))

/-! ### What roundMag answers -/

theorem f32IsInf_roundMag (neg : Bool) (m s : Nat) :
    f32IsInf (f32Pack neg (roundMag m s)) = true ↔ (2 ^ 25 - 1) * 2 ^ 252 * 2 ^ s ≤ m :=
  (f32IsInf_pack (roundMag_le m s)).trans (roundMag_eq_inf_iff m s)

theorem roundMag_lt_inf {m s : Nat} (h : m < (2 ^ 25 - 1) * 2 ^ 252 * 2 ^ s) : roundMag m s < f32InfMag :=
  lt_of_le_of_ne (roundMag_le m s) fun heq => absurd ((roundMag_eq_inf_iff m s).mp heq) (not_le.mpr h)

/-- The value of a result that does not overflow, as an integer. -/
theorem f32Units_roundMag {neg : Bool} {m s : Nat} (h : roundMag m s < f32InfMag) :
    f32Units (f32Pack neg (roundMag m s)) * 2 ^ s =
      signedMag neg (roundEven m (roundShift m s) * 2 ^ roundShift m s) := by
  rw [f32Units_pack (roundMag_lt m s), ← f32Mag_roundMag (neg := neg) h, ← signedMag_mul_natCast]
  push_cast
  rfl

/-- The fraction of a result that does not overflow has the parity of the rounded significand. -/
theorem f32Frac_roundMag {neg : Bool} {m s : Nat} (h : roundMag m s < f32InfMag) :
    f32Frac (f32Pack neg (roundMag m s)) % 2 = roundEven m (roundShift m s) % 2 := by
  rw [f32Frac_pack (roundMag_lt m s)]
  unfold roundMag at h ⊢
  omega

/-- A rounded pattern is the exact value rounded (R13). -/
theorem roundMag_roundsTo (neg : Bool) (m s : Nat) : RoundsTo (f32Pack neg (roundMag m s)) (signedMag neg m) s := by
  have hinf := f32IsInf_roundMag neg m s
  refine ⟨?_, fun h => ?_, fun h => ?_⟩
  · rw [hinf, abs_signedMag]
    rw [← Nat.cast_le (α := Int)]
    norm_num
  · have hpos : 0 < (2 ^ 25 - 1) * 2 ^ 252 * 2 ^ s := by positivity
    rw [f32Neg_pack (roundMag_lt m s), decide_signedMag_neg (lt_of_lt_of_le hpos (hinf.mp h)).ne']
  · have hlt : roundMag m s < f32InfMag := roundMag_lt_inf (not_le.mp fun hle => by simp [hinf.mpr hle] at h)
    refine ⟨f32IsFinite_pack hlt, fun c _ => ?_⟩
    obtain ⟨q, e, hmag, hq⟩ := f32Mag_eq_mul_pow c
    have habs : |f32Units c * 2 ^ s| = (q * 2 ^ e * 2 ^ s : Nat) := by
      rw [f32Units_eq_signedMag, hmag, abs_mul, abs_signedMag]
      simp
    rw [f32Units_roundMag hlt, f32Frac_roundMag hlt]
    obtain ⟨hle, htie⟩ := roundShift_nearest_signed neg m s hq habs
    refine ⟨hle, fun heq hne => htie heq fun h => hne ?_⟩
    rw [← f32Units_roundMag (neg := neg) hlt] at h
    exact mul_right_cancel₀ (by positivity) h

/-- The pattern of an exact sum is that sum rounded, whichever sign a zero takes. -/
theorem f32OfSum_roundsTo (n₁ n₂ : Bool) (z : Int) (s : Nat) : RoundsTo (f32OfSum n₁ n₂ z s) z s := by
  unfold f32OfSum
  split
  · next hz =>
    have h := roundMag_roundsTo (n₁ && n₂) 0 s
    rw [roundMag_zero] at h
    rwa [hz, show (0 : Int) = signedMag (n₁ && n₂) 0 by cases n₁ && n₂ <;> rfl]
  · have h := roundMag_roundsTo (decide (z < 0)) z.natAbs s
    rwa [signedMag_natAbs] at h

/-! ### Products and sums of finite values -/

theorem f32IsNaN_of_isFinite {b : Word} (h : f32IsFinite b = true) : f32IsNaN b = false := by
  simp_all [f32IsFinite, f32IsNaN]

theorem f32IsInf_of_isFinite {b : Word} (h : f32IsFinite b = true) : f32IsInf b = false := by
  simp_all [f32IsFinite, f32IsInf]

theorem fmul_of_isFinite (nan : Word) {a b : Word} (ha : f32IsFinite a = true) (hb : f32IsFinite b = true) :
    fmul nan a b = f32Pack (f32ProductNeg a b) (roundMag (f32Mag a * f32Mag b) 149) := by
  simp [fmul, f32InfTimesZero, f32IsNaN_of_isFinite, f32IsInf_of_isFinite, ha, hb]

theorem fadd_of_isFinite (nan : Word) {a b : Word} (ha : f32IsFinite a = true) (hb : f32IsFinite b = true) :
    fadd nan a b = f32OfSum (f32Neg a) (f32Neg b) (f32Units a + f32Units b) 0 := by
  simp [fadd, f32IsNaN_of_isFinite, f32IsInf_of_isFinite, ha, hb]

theorem f32Units_mul (a b : Word) :
    f32Units a * f32Units b = signedMag (f32ProductNeg a b) (f32Mag a * f32Mag b) :=
  signedMag_mul _ _ _ _

theorem f32OfSum_zero (n₁ n₂ : Bool) (s : Nat) : f32OfSum n₁ n₂ 0 s = if n₁ && n₂ then 0x80000000 else 0 := by
  rw [f32OfSum, if_pos rfl]
  cases n₁ && n₂ <;> decide

/-! ### Invalid operations -/

theorem f32IsNaN_f32OfSum (n₁ n₂ : Bool) (z : Int) (s : Nat) : f32IsNaN (f32OfSum n₁ n₂ z s) = false := by
  unfold f32OfSum
  split
  · exact f32IsNaN_pack (Nat.zero_le _)
  · exact f32IsNaN_pack (roundMag_le _ _)

theorem f32IsNaN_fmul {nan : Word} (a b : Word) (hnan : f32IsNaN nan = true) :
    f32IsNaN (fmul nan a b) = (f32IsNaN a || f32IsNaN b || f32InfTimesZero a b) := by
  unfold fmul
  split
  · next h => rw [hnan, h]
  · next h =>
    rw [Bool.eq_false_of_not_eq_true h]
    split
    · exact f32IsNaN_pack (le_refl _)
    · exact f32IsNaN_pack (roundMag_le _ _)

theorem f32IsNaN_fadd {nan : Word} (a b : Word) (hnan : f32IsNaN nan = true) :
    f32IsNaN (fadd nan a b) =
      (f32IsNaN a || f32IsNaN b || (f32IsInf a && f32IsInf b && f32Neg a != f32Neg b)) := by
  unfold fadd
  split
  · next h => rw [hnan, h]
  · next h =>
    rw [Bool.eq_false_of_not_eq_true h]
    simp only [Bool.or_eq_true, not_or, Bool.not_eq_true] at h
    obtain ⟨⟨ha, hb⟩, -⟩ := h
    split
    · exact ha
    · split
      · exact hb
      · exact f32IsNaN_f32OfSum _ _ _ _

theorem f32IsZero_iff (b : Word) : f32IsZero b = true ↔ f32IsFinite b = true ∧ f32Units b = 0 := by
  simp [f32IsZero, f32Mag_eq_zero_iff]

/-! ### Integers -/

/-- A magnitude of at most 24 significant bits below the overflow threshold is kept exactly. -/
theorem f32Units_roundMag_exact (neg : Bool) {c j s : Nat} (hc : c < 2 ^ 24) (hs : s ≤ j)
    (h : roundMag (c * 2 ^ j) s < f32InfMag) :
    f32Units (f32Pack neg (roundMag (c * 2 ^ j) s)) * 2 ^ s = signedMag neg (c * 2 ^ j) := by
  rw [f32Units_roundMag h, roundShift_exact hc hs]

theorem signedMag_tdiv (neg : Bool) (a b : Nat) : (signedMag neg a).tdiv b = signedMag neg (a / b) := by
  cases neg
  · exact (Int.ofNat_tdiv a b).symm
  · exact (Int.neg_tdiv _ _).trans (congrArg Neg.neg (Int.ofNat_tdiv a b).symm)

theorem f32ToInt_towardZero (t : Word) : f32ToInt .towardZero t = (f32Units t).tdiv (2 ^ 149) := by
  have hdiv := signedMag_tdiv (f32Neg t) (f32Mag t) (2 ^ 149)
  rw [Nat.cast_pow, Nat.cast_ofNat] at hdiv
  exact hdiv.symm

theorem f2i_toInt {free t : Word} {mode : F2IRound} (hfin : f32IsFinite t = true)
    (hlo : -2 ^ 31 ≤ f32ToInt mode t) (hhi : f32ToInt mode t ≤ 2 ^ 31 - 1) :
    (f2i free mode t).toInt = f32ToInt mode t := by
  have hdef : f2iDefined mode t = true := by
    simp only [f2iDefined, hfin, hlo, hhi, decide_true, Bool.and_self]
  rw [f2i, if_pos hdef, BitVec.toInt_ofInt]
  exact Int.bmod_eq_of_le (by omega) (by omega)

/-! ### The statements -/

/-- Settles O20: the result is roundMag of the product of the magnitudes. -/
theorem productCorrectlyRounded : Obligations.ProductCorrectlyRounded := by
  unfold Obligations.ProductCorrectlyRounded
  intro nan a b ha hb
  obtain ⟨hinf, -, hnear⟩ := roundMag_roundsTo (f32ProductNeg a b) (f32Mag a * f32Mag b) 149
  rw [f32Units_mul, fmul_of_isFinite nan ha hb]
  exact ⟨f32Neg_pack (roundMag_lt _ _), hinf, hnear⟩

/-- Settles O21: the result is the exact sum rounded, its zero signed by R165. -/
theorem sumCorrectlyRounded : Obligations.SumCorrectlyRounded := by
  unfold Obligations.SumCorrectlyRounded
  intro nan a b ha hb
  have hround := f32OfSum_roundsTo (f32Neg a) (f32Neg b) (f32Units a + f32Units b) 0
  simp only [RoundsTo, pow_zero, mul_one] at hround
  rw [fadd_of_isFinite nan ha hb]
  exact ⟨fun hz => by rw [hz, f32OfSum_zero], hround⟩

/-- Settles O22: every other result is packed from a magnitude that is at most infinity's, or is an operand. -/
theorem nanResultsExactlyWhenInvalid : Obligations.NaNResultsExactlyWhenInvalid := by
  unfold Obligations.NaNResultsExactlyWhenInvalid
  intro nan a b hnan
  rw [f32IsNaN_fmul a b hnan, f32IsNaN_fadd a b hnan]
  simp only [f32InfTimesZero, Bool.or_eq_true, Bool.and_eq_true, f32IsZero_iff, bne_iff_ne]
  tauto

/-- Settles O23: an integer below 2^24 needs no rounding, and it is far below the overflow threshold. -/
theorem integersConvertExactly : Obligations.IntegersConvertExactly := by
  unfold Obligations.IntegersConvertExactly
  intro z hz
  have hc : z.natAbs < 2 ^ 24 := by
    rw [Int.abs_eq_natAbs] at hz
    exact_mod_cast hz
  have hlt : roundMag (z.natAbs * 2 ^ 149) 0 < f32InfMag := roundMag_lt_inf (by omega)
  have hexact := f32Units_roundMag_exact (decide (z < 0)) hc (Nat.zero_le 149) hlt
  refine ⟨f32IsFinite_pack hlt, ?_⟩
  rw [pow_zero, mul_one] at hexact
  rw [i2f, hexact, ← signedMag_mul_natCast, signedMag_natAbs, Nat.cast_pow, Nat.cast_ofNat]

/-- Settles O24: dividing the magnitude by 2^149 truncates toward zero. -/
theorem floatTruncatesTowardZero : Obligations.FloatTruncatesTowardZero := by
  unfold Obligations.FloatTruncatesTowardZero
  intro free t hfin hlo hhi
  rw [← f32ToInt_towardZero] at hlo hhi ⊢
  exact f2i_toInt hfin hlo hhi

/-- Settles O33: the patterns are those of -16, -22 and -12 in two's complement. -/
theorem defaultErrorPatterns : Obligations.DefaultErrorPatterns := by
  unfold Obligations.DefaultErrorPatterns
  decide

end Sys2Proof.Machine
end

section
/-! SUPPORT. The dot products of FDOT (43_fir R164, log entry 12): the tree that adds the taps one by one is the ascending
order, and an accumulator that holds every partial sum exactly rounds once. -/

namespace Sys2Proof.Machine

/-! ### The ascending tree -/

/-- The ascending tree of `n` taps accumulates the first `n` terms. -/
theorem eval_ascendingTree {α : Type} (ops : DotOps α) (terms : List (Word × Word)) (n : Nat) :
    SumTree.eval ops terms (ascendingTree n) =
      some ((terms.take n).foldl (fun acc t => ops.accumulate acc t.1 t.2) ops.start) := by
  induction n with
  | zero => rfl
  | succ n ih =>
    rw [ascendingTree, SumTree.eval, ih, List.take_add_one, List.foldl_append]
    cases terms[n]? <;> rfl

theorem dotTerms_ascendingTree {α : Type} (ops : DotOps α) {terms : List (Word × Word)} {n : Nat}
    (h : terms.length ≤ n) :
    dotTerms ops (.tree (ascendingTree n)) terms = dotTerms ops .ascending terms := by
  have heval := eval_ascendingTree ops terms n
  rw [List.take_of_length_le h] at heval
  exact congrArg (Option.getD · ops.start) heval

/-- Settles O38: the tree and the loop accumulate the same terms in the same order, whatever the accumulator is. -/
theorem treeOrderCoversAscending : Obligations.TreeOrderCoversAscending := by
  unfold Obligations.TreeOrderCoversAscending
  intro nan start p taps samples hlen
  cases p with
  | unfused => exact dotTerms_ascendingTree _ hlen
  | fused => exact dotTerms_ascendingTree _ hlen
  | wide bits => exact congrArg (Wide.toWord nan) (dotTerms_ascendingTree _ hlen)

/-! ### A wide accumulator -/

/-- The exact sum of the products of finite terms, in units of 2^-298 (R13). -/
def exactSum (terms : List (Word × Word)) : Int := (terms.map fun t => f32Units t.1 * f32Units t.2).sum

/-- Every tap and every sample is finite. -/
def AllFinite (terms : List (Word × Word)) : Prop :=
  ∀ t ∈ terms, f32IsFinite t.1 = true ∧ f32IsFinite t.2 = true

theorem exactSum_reverse (terms : List (Word × Word)) : exactSum terms.reverse = exactSum terms := by
  rw [exactSum, List.map_reverse, List.sum_reverse, exactSum]

theorem f32Mag_mul_lt {a b : Word} (ha : f32IsFinite a = true) (hb : f32IsFinite b = true) :
    f32Mag a * f32Mag b < 2 ^ 554 :=
  (Nat.mul_lt_mul'' (f32Mag_lt ha) (f32Mag_lt hb)).trans_eq (by rw [← pow_add])

theorem natAbs_signedMag (neg : Bool) (m : Nat) : (signedMag neg m).natAbs = m := by
  cases neg <;> simp [signedMag]

theorem natAbs_signedMag_add_le (n₁ n₂ : Bool) (a b : Nat) :
    (signedMag n₁ a + signedMag n₂ b).natAbs ≤ a + b := by
  have h := Int.natAbs_add_le (signedMag n₁ a) (signedMag n₂ b)
  rwa [natAbs_signedMag, natAbs_signedMag] at h

theorem Wide.product_of_isFinite {bits : Nat} {a b : Word} (ha : f32IsFinite a = true) (hb : f32IsFinite b = true)
    (hlt : f32Mag a * f32Mag b < 2 ^ bits) :
    Wide.product bits a b = .fin (f32ProductNeg a b) (f32Mag a * f32Mag b) := by
  simp [Wide.product, f32InfTimesZero, f32IsNaN_of_isFinite, f32IsInf_of_isFinite, ha, hb, roundBits_of_lt hlt]

/-- Adding the product of two finite values to a finite part is exact where the format can hold the sum. -/
theorem opsWide_accumulate_exact {bits : Nat} (start : Word) (neg : Bool) (mag : Nat) {a b : Word}
    (ha : f32IsFinite a = true) (hb : f32IsFinite b = true) (hroom : mag + f32Mag a * f32Mag b < 2 ^ bits) :
    ∃ neg' mag', (opsWide bits start).accumulate (.fin neg mag) a b = .fin neg' mag' ∧
      signedMag neg' mag' = signedMag neg mag + f32Units a * f32Units b ∧ mag' ≤ mag + f32Mag a * f32Mag b := by
  have habs := natAbs_signedMag_add_le neg (f32ProductNeg a b) mag (f32Mag a * f32Mag b)
  obtain ⟨neg', mag', hsum, hval⟩ := Wide.sum_fin_of_lt (habs.trans_lt hroom)
  refine ⟨neg', mag', ?_, by rw [hval, f32Units_mul], ?_⟩
  · rw [← hsum, ← Wide.product_of_isFinite (bits := bits) ha hb (by omega)]
    rfl
  · rwa [← hval, natAbs_signedMag] at habs

/-- While no partial sum can outgrow the accumulator it holds each of them exactly. -/
theorem foldl_opsWide_exact {bits : Nat} (start : Word) (terms : List (Word × Word)) (hfin : AllFinite terms)
    (neg : Bool) (mag : Nat) (hroom : mag + terms.length * 2 ^ 554 < 2 ^ bits) :
    ∃ neg' mag', terms.foldl (fun acc t => (opsWide bits start).accumulate acc t.1 t.2) (.fin neg mag) = .fin neg' mag' ∧
      signedMag neg' mag' = signedMag neg mag + exactSum terms := by
  induction terms generalizing neg mag with
  | nil => exact ⟨neg, mag, rfl, by simp [exactSum]⟩
  | cons t ts ih =>
    obtain ⟨⟨h1, h2⟩, hts⟩ := List.forall_mem_cons.mp hfin
    have hprod := f32Mag_mul_lt h1 h2
    rw [List.length_cons, Nat.add_one_mul] at hroom
    generalize 2 ^ 554 = b at hprod hroom ih
    obtain ⟨neg₁, mag₁, hacc, hval, hle⟩ := opsWide_accumulate_exact start neg mag h1 h2 (bits := bits) (by omega)
    obtain ⟨neg', mag', hfold, htotal⟩ := ih hts neg₁ mag₁ (by omega)
    refine ⟨neg', mag', ?_, ?_⟩
    · rw [List.foldl_cons, hacc, hfold]
    · rw [htotal, hval, exactSum, exactSum, List.map_cons, List.sum_cons, add_assoc]

/-- An accumulator of 7 bits more than a product has room for 64 products. -/
theorem products_fit {w bits n : Nat} (hbits : w + 7 ≤ bits) (hn : n ≤ 2 ^ 6) : n * 2 ^ w < 2 ^ bits := by
  have hle : n * 2 ^ w ≤ 2 ^ 6 * 2 ^ w := Nat.mul_le_mul_right _ hn
  rw [← pow_add] at hle
  exact hle.trans_lt (Nat.pow_lt_pow_right (by norm_num) (by omega))

/-- The dot product of finite terms in a wide accumulator is their exact sum rounded once. -/
theorem foldl_opsWide_roundsTo {bits : Nat} (hbits : 1024 ≤ bits) (nan : Word) {terms : List (Word × Word)}
    (hfin : AllFinite terms) (hlen : terms.length ≤ 64) :
    RoundsTo (Wide.toWord nan (dotTerms (opsWide bits 0) .ascending terms)) (exactSum terms) 149 := by
  have hroom : 0 + terms.length * 2 ^ 554 < 2 ^ bits := by
    rw [Nat.zero_add]
    exact products_fit (by omega) hlen
  obtain ⟨neg, mag, hfold, hval⟩ := foldl_opsWide_exact 0 terms hfin false 0 hroom
  rw [← Wide.ofWord_zero bits] at hfold
  have hdot : dotTerms (opsWide bits 0) .ascending terms = .fin neg mag := hfold
  have hexact : exactSum terms = signedMag neg mag := (hval.trans (zero_add _)).symm
  rw [hdot, hexact]
  exact roundMag_roundsTo neg mag 149

/-- Settles O39: both orders accumulate a list of the same finite terms, of the same exact sum. -/
theorem wideAccumulatorRoundsOnce : Obligations.WideAccumulatorRoundsOnce := by
  unfold Obligations.WideAccumulatorRoundsOnce
  rintro order bits nan taps samples (rfl | rfl) hbits hlen hfin
  · exact foldl_opsWide_roundsTo hbits nan hfin hlen
  · have hround := foldl_opsWide_roundsTo hbits nan (terms := (taps.zip samples).reverse)
      (fun t ht => hfin t (List.mem_reverse.mp ht)) (by rwa [List.length_reverse])
    rw [exactSum_reverse] at hround
    exact hround

end Sys2Proof.Machine
end

section
/-! SUPPORT. The commands by family, and for each of `resultOf` and the tables beside it what it is on a family: so that a
rule over all commands (20_memory R55, 10_state R22, R32) is proved once for each family. -/

namespace Sys2Proof.Machine

/-! ### Families -/

/-- The conversion of an element depends on the operand registers, the parameters and the free values alone (R103 to
R105). -/
def ReadsOperandsOnly (conv : State → Nat → Word → Word) : Prop :=
  ∀ s t : State, t.x = s.x → t.params = s.params → t.freeTick = s.freeTick → conv t = conv s

theorem convToFloat_readsOperandsOnly (n : Nat) : ReadsOperandsOnly (convToFloat n) := by
  intro s t hx _ hf
  funext e raw
  simp only [convToFloat, State.reg, hx, hf]

theorem convToFixed_readsOperandsOnly : ReadsOperandsOnly convToFixed := by
  intro s t hx hp hf
  funext e raw
  simp only [convToFixed, State.reg, hx, hp, hf]

theorem convSame_readsOperandsOnly : ReadsOperandsOnly convSame := fun _ _ _ _ _ => rfl

/-- `i` is the CVT command of form `f` whose elements are converted by `conv` (R100, R110 to R119). -/
structure IsConversion (i : Instr) (f : CvtForm) (conv : State → Nat → Word → Word) : Prop where
  form : cvtForm i = some f
  reads : ReadsOperandsOnly conv
  result : ∀ s, resultOf i s = cvtResult f.ws f.wd f.ls f.ld conv s
  access : ∀ s, accessOf i s = cvtAccess f s
  noContext : namedCtx i = []

/-- What holds of every family of commands holds of every command. -/
theorem Instr.byFamily {P : Instr → Prop} (setl : ∀ rd imm, P (.setl rd imm)) (seth : ∀ rd imm, P (.seth rd imm))
    (cvt : ∀ i f conv, IsConversion i f conv → P i) (u12 : P .u12F32) (init : ∀ dom c, P (initInstr dom c))
    (work : ∀ dom c, P (workInstr dom c)) (free : ∀ c, P (.firFree c)) (i : Instr) : P i := by
  have toFloat := convToFloat_readsOperandsOnly
  have toFixed := convToFixed_readsOperandsOnly
  have same := convSame_readsOperandsOnly
  cases i with
  | setl rd imm => exact setl rd imm
  | seth rd imm => exact seth rd imm
  | cvtI16F32 => exact cvt _ _ _ ⟨rfl, toFloat 16, fun _ => rfl, fun _ => rfl, rfl⟩
  | cvtI16F32P => exact cvt _ _ _ ⟨rfl, toFloat 16, fun _ => rfl, fun _ => rfl, rfl⟩
  | cvtI8F32 => exact cvt _ _ _ ⟨rfl, toFloat 8, fun _ => rfl, fun _ => rfl, rfl⟩
  | cvtI8F32P => exact cvt _ _ _ ⟨rfl, toFloat 8, fun _ => rfl, fun _ => rfl, rfl⟩
  | cvtF32I16 => exact cvt _ _ _ ⟨rfl, toFixed, fun _ => rfl, fun _ => rfl, rfl⟩
  | cvtF32PI16 => exact cvt _ _ _ ⟨rfl, toFixed, fun _ => rfl, fun _ => rfl, rfl⟩
  | cvtF32I8 => exact cvt _ _ _ ⟨rfl, toFixed, fun _ => rfl, fun _ => rfl, rfl⟩
  | cvtF32PI8 => exact cvt _ _ _ ⟨rfl, toFixed, fun _ => rfl, fun _ => rfl, rfl⟩
  | cvtI16PI16 => exact cvt _ _ _ ⟨rfl, same, fun _ => rfl, fun _ => rfl, rfl⟩
  | cvtI16I16P => exact cvt _ _ _ ⟨rfl, same, fun _ => rfl, fun _ => rfl, rfl⟩
  | u12F32 => exact u12
  | firInitF c => exact init .F c
  | firInitX c => exact init .X c
  | firWorkF c => exact work .F c
  | firWorkX c => exact work .X c
  | firFree c => exact free c

/-! ### The tables on a family -/

theorem accessOf_u12 (s : State) :
    accessOf .u12F32 s = if carryPhase (s.reg Reg.CRY) = 3 then Access.none else u12Access s := rfl

theorem accessOf_init (dom : Domain) (c : CtxId) (s : State) :
    accessOf (initInstr dom c) s = if InitChecksPass dom c s then initAccess dom s else Access.none := by
  cases dom <;> rfl

theorem accessOf_work (dom : Domain) (c : CtxId) (s : State) :
    accessOf (workInstr dom c) s =
      if WorkChecksPass dom (s.context c) (s.reg Reg.LEN).toNat then workAccess dom (s.context c) s else Access.none := by
  cases dom <;> rfl

theorem resultOf_u12 (s : State) :
    resultOf .u12F32 s =
      if carryPhase (s.reg Reg.CRY) = 3 then s.raiseFault .badPhase (encode .u12F32) else u12Result s := rfl

theorem resultOf_init (dom : Domain) (c : CtxId) (s : State) : resultOf (initInstr dom c) s = initAnswer dom c s := by
  cases dom <;> rfl

theorem resultOf_work (dom : Domain) (c : CtxId) (s : State) :
    resultOf (workInstr dom c) s = workAnswer dom (encode (workInstr dom c)) c s := by
  cases dom <;> rfl

theorem resultOf_free (c : CtxId) (s : State) :
    resultOf (.firFree c) s =
      if !(s.context c).valid then s.raiseFault .badCtx (encode (.firFree c))
      else (s.setContext c (Context.freed s.freeTick c)).finish := rfl

theorem namedCtx_init (dom : Domain) (c : CtxId) : namedCtx (initInstr dom c) = [c] := by cases dom <;> rfl

theorem namedCtx_work (dom : Domain) (c : CtxId) : namedCtx (workInstr dom c) = [c] := by cases dom <;> rfl

theorem writtenRegs_init (dom : Domain) (c : CtxId) : writtenRegs (initInstr dom c) = [Reg.RES] := by cases dom <;> rfl

theorem writtenRegs_work (dom : Domain) (c : CtxId) : writtenRegs (workInstr dom c) = [Reg.RES] := by cases dom <;> rfl

/-! ### Init and work, passing their checks or not -/

/-- `t` agrees with `s` on all that the checks of an init or a work command on context `c` look at (R151, R157). -/
structure SameChecks (c : CtxId) (s t : State) : Prop where
  x : t.x = s.x
  params : t.params = s.params
  context : t.context c = s.context c

theorem SameChecks.refl (c : CtxId) (s : State) : SameChecks c s s := ⟨rfl, rfl, rfl⟩

theorem SameChecks.setMem (c : CtxId) (s : State) (m : Memory) : SameChecks c s (s.setMem m) := ⟨rfl, rfl, rfl⟩

theorem SameChecks.setContext {c d : CtxId} (h : c ≠ d) (s : State) (g : Context) : SameChecks c s (s.setContext d g) :=
  ⟨rfl, rfl, State.context_setContext_ne s g h⟩

theorem SameChecks.reg {c : CtxId} {s t : State} (h : SameChecks c s t) (r : Reg) : t.reg r = s.reg r := by
  rw [State.reg, h.x, State.reg]

theorem SameChecks.initChecksPass {c : CtxId} {s t : State} (h : SameChecks c s t) {dom : Domain} :
    InitChecksPass dom c t ↔ InitChecksPass dom c s := by
  simp only [InitChecksPass, h.context, h.reg, h.params]

theorem initAnswer_of_pass {dom : Domain} {c : CtxId} {s : State} (h : InitChecksPass dom c s) :
    initAnswer dom c s = initResult dom c s := by
  obtain ⟨hv, hl, hd, hk, hm, hcap⟩ := h
  have hrange := (firInRange_iff _ _ _ _).2 ⟨hl, hd, hk, hm⟩
  have hfit : ¬ s.params.ctxCapBytes < firNeed dom (s.reg Reg.LEN).toNat (s.reg Reg.DB).toNat (s.reg Reg.SB).toNat :=
    not_lt.mpr hcap
  simp [initAnswer, hv, hrange, hfit]

/-- A failing check gives one error code in every state that the checks cannot tell from `s`. -/
theorem initAnswer_of_fail {dom : Domain} {c : CtxId} {s : State} (h : ¬ InitChecksPass dom c s) :
    ∃ code, ∀ t, SameChecks c s t → initAnswer dom c t = initError t code := by
  rcases firInit_cases dom c s with ⟨hp, -⟩ | ⟨-, code, -, hcode⟩
  · exact absurd hp h
  · refine ⟨code, fun t ht => ?_⟩
    unfold initAnswer
    rw [ht.context, ht.reg, ht.reg, ht.reg, ht.reg, ht.params]
    rcases hcode with ⟨hv, rfl⟩ | ⟨hv, hr, rfl⟩ | ⟨hv, hr, hn, rfl⟩
    · rw [if_pos hv]
    · simp [hv, hr]
    · simp [hv, hr, hn]

theorem workAnswer_of_pass {dom : Domain} {c : CtxId} {s : State}
    (h : WorkChecksPass dom (s.context c) (s.reg Reg.LEN).toNat) (w : Word) :
    workAnswer dom w c s = workResult dom c s := by
  simp only [workAnswer, (firWorkFault_eq_none_iff _ _ _).2 h]

/-- A failing check raises one fault in every state that the checks cannot tell from `s`. -/
theorem workAnswer_of_fail {dom : Domain} {c : CtxId} {s : State}
    (h : ¬ WorkChecksPass dom (s.context c) (s.reg Reg.LEN).toNat) (w : Word) :
    ∃ k : Cause, k ≠ .illegal ∧ ∀ t, SameChecks c s t → workAnswer dom w c t = t.raiseFault k w := by
  rcases hf : firWorkFault dom (s.context c) (s.reg Reg.LEN).toNat with _ | k
  · exact absurd ((firWorkFault_eq_none_iff _ _ _).1 hf) h
  · refine ⟨k, ?_, fun t ht => by simp only [workAnswer, ht.context, ht.reg, hf]⟩
    rcases firWorkFault_some hf with rfl | rfl | rfl | rfl <;> decide

/-- The state an init answers: the filter created, or an error code in RES (R151, R155). -/
theorem resultOf_init_cases (dom : Domain) (c : CtxId) (s : State) :
    (InitChecksPass dom c s ∧ resultOf (initInstr dom c) s = initResult dom c s) ∨
    ∃ code, resultOf (initInstr dom c) s = initError s code := by
  rw [resultOf_init]
  by_cases h : InitChecksPass dom c s
  · exact .inl ⟨h, initAnswer_of_pass h⟩
  · obtain ⟨code, he⟩ := initAnswer_of_fail h
    exact .inr ⟨code, he s (.refl c s)⟩

/-- The state a work command answers: the block filtered, or a fault (R157). -/
theorem resultOf_work_cases (dom : Domain) (c : CtxId) (s : State) :
    (WorkChecksPass dom (s.context c) (s.reg Reg.LEN).toNat ∧ resultOf (workInstr dom c) s = workResult dom c s) ∨
    ∃ k : Cause, k ≠ .illegal ∧ resultOf (workInstr dom c) s = s.raiseFault k (encode (workInstr dom c)) := by
  rw [resultOf_work]
  by_cases h : WorkChecksPass dom (s.context c) (s.reg Reg.LEN).toNat
  · exact .inl ⟨h, workAnswer_of_pass h _⟩
  · obtain ⟨k, hk, he⟩ := workAnswer_of_fail h (encode (workInstr dom c))
    exact .inr ⟨k, hk, he s (.refl c s)⟩

/-! ### Registers -/

theorem SameRegsBut.of_x_eq {rs : List Reg} {s t : State} (h : t.x = s.x) : SameRegsBut rs s t :=
  fun r _ => by simp only [State.reg, h]

theorem SameRegsBut.of_x_set {s t : State} {r : Reg} {v : Word} (h : t.x = s.x.set r v) : SameRegsBut [r] s t :=
  fun q hq => by
    have hne := State.reg_setReg_ne s v (List.ne_of_not_mem_cons hq)
    simpa only [State.reg, State.setReg, h] using hne

/-- R22: the registers of the state a command answers. -/
theorem resultOf_sameRegsBut (i : Instr) (s : State) : SameRegsBut (writtenRegs i) s (resultOf i s) := by
  induction i using Instr.byFamily with
  | setl rd imm => exact .of_x_set rfl
  | seth rd imm => exact .of_x_set rfl
  | cvt i f conv hi => exact .of_x_eq (by rw [hi.result]; rfl)
  | u12 =>
    rw [resultOf_u12]
    split
    · exact .of_x_eq rfl
    · exact .of_x_set rfl
  | init dom c =>
    rw [writtenRegs_init]
    rcases resultOf_init_cases dom c s with ⟨-, h⟩ | ⟨code, h⟩ <;> exact .of_x_set (by rw [h]; rfl)
  | work dom c =>
    rw [writtenRegs_work]
    rcases resultOf_work_cases dom c s with ⟨-, h⟩ | ⟨k, -, h⟩
    · exact .of_x_set (by rw [h]; rfl)
    · exact .of_x_eq (by rw [h]; rfl)
  | free c =>
    rw [resultOf_free]
    split <;> exact .of_x_eq rfl

/-! ### Memory -/

/-- The elements an access writes, each with its address and value, in order. -/
def Access.elems (x : Access) (v : Nat → Word) : List (Nat × Word) := (List.range x.nd).map fun e => (x.dst e, v e)

theorem Access.mem_elems {x : Access} {v : Nat → Word} {p : Nat × Word} (h : p ∈ x.elems v) :
    ∃ e, e < x.nd ∧ p.1 = x.dst e := by
  obtain ⟨e, he, rfl⟩ := List.mem_map.1 h
  exact ⟨e, List.mem_range.1 he, rfl⟩

/-- An element of the source reads alike in memories that agree on the source. -/
theorem Access.readElem_congr {x : Access} {m m' : Memory} (h : ∀ a, x.Reads a → m'.read a = m.read a) {e : Nat}
    (he : e < x.ns) : m'.readElem x.ws (x.src e) = m.readElem x.ws (x.src e) := by
  have hbytes : m'.readN (x.src e) x.ws = m.readN (x.src e) x.ws :=
    Memory.readN_congr fun j hj => h _ ⟨e, he, by omega, by omega⟩
  rw [Memory.readElem, hbytes, Memory.readElem]

theorem cvtElems_setMem {f : CvtForm} {conv : State → Nat → Word → Word} (hconv : ReadsOperandsOnly conv) {s : State}
    {m : Memory} (h : ∀ a, (cvtAccess f s).Reads a → m.read a = s.mem.read a) :
    cvtElems f.ws f.wd f.ls f.ld conv (s.setMem m) =
      (cvtAccess f s).elems fun e => conv s e (s.mem.readElem f.ws ((cvtAccess f s).src e)) := by
  refine List.map_congr_left fun e he => ?_
  have hread := Access.readElem_congr h (List.mem_range.1 he)
  rw [hconv s (s.setMem m) rfl rfl rfl]
  exact congrArg (fun w => ((cvtAccess f s).dst e, conv s e w)) hread

theorem u12Stream_setMem {s : State} {m : Memory} (h : ∀ a, (u12Access s).Reads a → m.read a = s.mem.read a) :
    u12Stream (s.setMem m) = u12Stream s := by
  have hbytes : m.bytes (s.reg Reg.SA).toNat (s.reg Reg.LEN).toNat =
      s.mem.bytes (s.reg Reg.SA).toNat (s.reg Reg.LEN).toNat :=
    List.map_congr_left fun e he => h _ ⟨e, List.mem_range.1 he, le_refl _, Nat.lt_succ_self _⟩
  exact congrArg (carryPending (s.reg Reg.CRY) ++ ·) hbytes

/-- The elements U12.F32 writes are those of its access. -/
theorem layElems_u12 {s : State} (h : carryPhase (s.reg Reg.CRY) ≠ 3) :
    layElems (s.reg Reg.DA).toNat 4 (unpackStream (u12Stream s)).1 =
      (u12Access s).elems fun e => (unpackStream (u12Stream s)).1.getD e 0 := by
  rw [layElems_eq, length_unpackStream, length_u12Stream h]
  rfl

theorem firCreate_congr {s : State} {m : Memory} (dom : Domain) (f : Context) (d k : Nat) (b : Word)
    (h : ∀ a, (initAccess dom s).Reads a → m.read a = s.mem.read a) :
    firCreate f dom m (s.reg Reg.SA).toNat (s.reg Reg.LEN).toNat d k b =
      firCreate f dom s.mem (s.reg Reg.SA).toNat (s.reg Reg.LEN).toNat d k b := by
  have htap : ∀ i : Fin 64,
      (if i.val < (s.reg Reg.LEN).toNat then m.readElem dom.width ((s.reg Reg.SA).toNat + dom.width * i.val) else 0) =
      if i.val < (s.reg Reg.LEN).toNat then s.mem.readElem dom.width ((s.reg Reg.SA).toNat + dom.width * i.val)
      else 0 := by
    intro i
    split
    · next hi => exact Access.readElem_congr h hi
    · rfl
  simp only [firCreate, htap]

theorem firInput_setMem {dom : Domain} {f : Context} {s : State} {m : Memory}
    (h : ∀ a, (workAccess dom f s).Reads a → m.read a = s.mem.read a) :
    firInput dom (s.setMem m) = firInput dom s :=
  List.map_congr_left fun _ he => Access.readElem_congr h (List.mem_range.1 he)

theorem firStream_setMem {dom : Domain} {f : Context} {s : State} {m : Memory}
    (h : ∀ a, (workAccess dom f s).Reads a → m.read a = s.mem.read a) :
    firStream dom f (s.setMem m) = firStream dom f s := by
  rw [firStream, firInput_setMem h, firStream]

theorem firOutput_setMem {dom : Domain} {f : Context} {s : State} {m : Memory}
    (h : ∀ a, (workAccess dom f s).Reads a → m.read a = s.mem.read a) :
    firOutput dom f (s.setMem m) = firOutput dom f s := by
  rw [firOutput, firStream_setMem h]
  rfl

/-- The elements a work command writes are those of its access. -/
theorem layElems_work {dom : Domain} {f : Context} {s : State} (h : WorkChecksPass dom f (s.reg Reg.LEN).toNat) :
    layElems (s.reg Reg.DA).toNat dom.width (firOutput dom f s) =
      (workAccess dom f s).elems fun o => (firOutput dom f s).getD o 0 := by
  rw [layElems_eq, length_firOutput, two_mul_firPairs h]
  rfl

theorem workResult_setMem {dom : Domain} {c : CtxId} {s : State} {m : Memory}
    (hpass : WorkChecksPass dom (s.context c) (s.reg Reg.LEN).toNat)
    (h : ∀ a, (workAccess dom (s.context c) s).Reads a → m.read a = s.mem.read a) :
    workResult dom c (s.setMem m) = (workResult dom c s).setMem (m.writeElems dom.width
      ((workAccess dom (s.context c) s).elems fun o => (firOutput dom (s.context c) s).getD o 0)) := by
  rw [← layElems_work hpass]
  simp only [workResult, State.context_setMem, firOutput_setMem h, firStream_setMem h]
  rfl

/-- R38, R55: a command writes one list of values, and nothing else of what it leaves depends on memory, in every memory
that agrees with the state's on the source elements. -/
theorem resultOf_setMem (i : Instr) (s : State) : ∃ v : Nat → Word, ∀ m : Memory,
    (∀ a, (accessOf i s).Reads a → m.read a = s.mem.read a) →
    resultOf i (s.setMem m) =
      (resultOf i s).setMem (m.writeElems (accessOf i s).wd ((accessOf i s).elems v)) := by
  induction i using Instr.byFamily with
  | setl rd imm => exact ⟨fun _ => 0, fun _ _ => rfl⟩
  | seth rd imm => exact ⟨fun _ => 0, fun _ _ => rfl⟩
  | cvt i f conv hi =>
    refine ⟨fun e => conv s e (s.mem.readElem f.ws ((cvtAccess f s).src e)), fun m hm => ?_⟩
    rw [hi.access] at hm ⊢
    rw [hi.result, hi.result, cvtResult, cvtElems_setMem hi.reads hm]
    rfl
  | u12 =>
    by_cases hphase : carryPhase (s.reg Reg.CRY) = 3
    · refine ⟨fun _ => 0, fun m _ => ?_⟩
      rw [resultOf_u12, resultOf_u12, State.reg_setMem, if_pos hphase, if_pos hphase, accessOf_u12, if_pos hphase]
      rfl
    · refine ⟨fun e => (unpackStream (u12Stream s)).1.getD e 0, fun m hm => ?_⟩
      rw [accessOf_u12, if_neg hphase] at hm ⊢
      rw [resultOf_u12, resultOf_u12, State.reg_setMem, if_neg hphase, if_neg hphase, u12Result, u12Stream_setMem hm,
        State.reg_setMem, layElems_u12 hphase]
      rfl
  | init dom c =>
    refine ⟨fun _ => 0, fun m hm => ?_⟩
    rw [accessOf_init] at hm ⊢
    rw [resultOf_init, resultOf_init]
    by_cases hpass : InitChecksPass dom c s
    · have hpass' : InitChecksPass dom c (s.setMem m) := (SameChecks.setMem c s m).initChecksPass.2 hpass
      rw [if_pos hpass] at hm ⊢
      rw [initAnswer_of_pass hpass, initAnswer_of_pass hpass']
      have hcreate := firCreate_congr dom (s.context c) (s.reg Reg.DA).toNat (s.reg Reg.DB).toNat (s.reg Reg.SB) hm
      simp only [initResult, State.reg_setMem, State.context_setMem, State.setMem_mem, hcreate]
      rfl
    · obtain ⟨code, he⟩ := initAnswer_of_fail hpass
      rw [he _ (.setMem c s m), he s (.refl c s), if_neg hpass]
      rfl
  | work dom c =>
    rw [accessOf_work]
    by_cases hpass : WorkChecksPass dom (s.context c) (s.reg Reg.LEN).toNat
    · refine ⟨fun o => (firOutput dom (s.context c) s).getD o 0, fun m hm => ?_⟩
      rw [if_pos hpass] at hm ⊢
      rw [resultOf_work, resultOf_work, workAnswer_of_pass hpass, workAnswer_of_pass (s := s.setMem m) hpass,
        workResult_setMem hpass hm]
      rfl
    · refine ⟨fun _ => 0, fun m _ => ?_⟩
      obtain ⟨k, -, he⟩ := workAnswer_of_fail hpass (encode (workInstr dom c))
      rw [if_neg hpass, resultOf_work, resultOf_work, he _ (.setMem c s m), he s (.refl c s)]
      rfl
  | free c =>
    refine ⟨fun _ => 0, fun m _ => ?_⟩
    rw [resultOf_free, resultOf_free, State.context_setMem]
    split <;> rfl

/-- The memory a command leaves: the elements of its access written. -/
theorem resultOf_mem (i : Instr) (s : State) :
    ∃ v, (resultOf i s).mem = s.mem.writeElems (accessOf i s).wd ((accessOf i s).elems v) := by
  obtain ⟨v, hv⟩ := resultOf_setMem i s
  exact ⟨v, congrArg State.mem (hv s.mem fun _ _ => rfl)⟩

theorem accessOf_setMem (i : Instr) (s : State) (m : Memory) : accessOf i (s.setMem m) = accessOf i s := by
  cases i <;> rfl

end Sys2Proof.Machine
end

section
/-! SUPPORT. An illegal word is what the decoder refuses (30_encoding R75), and the words of the commands that can fault are
legal. -/

namespace Sys2Proof.Machine

theorem wordBits_opcode (w : Word) : wordBits w 24 8 = (opcodeByte w).toNat := by
  have hlt := w.isLt
  simp only [wordBits, opcodeByte, BitVec.toNat_ushiftRight, Nat.shiftRight_eq_div_pow]
  omega

/-- A field all of whose bits a mask covers is 0 in a word that has none of the mask's bits. -/
theorem wordBits_eq_zero_of_and {w mask : Word} (lo len : Nat) (h : w &&& mask = 0)
    (hmask : ∀ i, i < len → mask.getLsbD (lo + i) = true) : wordBits w lo len = 0 := by
  refine Nat.eq_of_testBit_eq fun i => ?_
  rw [wordBits, Nat.testBit_mod_two_pow, Nat.testBit_div_two_pow, Nat.zero_testBit]
  by_cases hi : i < len
  · have hbit : (w &&& mask).getLsbD (lo + i) = false := by rw [h]; exact BitVec.getLsbD_zero
    rw [BitVec.getLsbD_and, hmask i hi, Bool.and_true] at hbit
    rw [Nat.add_comm i lo]
    simp only [hi, decide_true, Bool.true_and]
    exact hbit
  · simp [hi]

theorem decodeS_eq_error {mk : Reg → BitVec 16 → Instr} {w : Word} {e : DecodeError} (h : decodeS mk w = .error e)
    (hop : formatSOpcodes.contains (opcodeByte w) = true) : legalWord w = false := by
  by_contra hlegal
  simp only [Bool.not_eq_false, legalWord, Bool.and_eq_true, reservedBitsZero, hop, if_true, beq_iff_eq] at hlegal
  obtain ⟨⟨-, hreserved⟩, -⟩ := hlegal
  have h23 := wordBits_eq_zero_of_and 23 1 hreserved (by decide)
  have h16 := wordBits_eq_zero_of_and 16 4 hreserved (by decide)
  simp [decodeS, h23, h16] at h

/-- In a legal word of format O the bits the format marks "must be 0" are 0 (R71). -/
theorem formatO_reserved {w : Word} (h : legalWord w = true) (hop : formatSOpcodes.contains (opcodeByte w) = false) :
    wordBits w 18 6 = 0 ∧ wordBits w 0 16 = 0 := by
  simp only [legalWord, Bool.and_eq_true, reservedBitsZero, hop, Bool.false_eq_true, if_false, beq_iff_eq] at h
  obtain ⟨⟨-, hreserved⟩, -⟩ := h
  exact ⟨wordBits_eq_zero_of_and 18 6 hreserved (by decide), wordBits_eq_zero_of_and 0 16 hreserved (by decide)⟩

theorem decodeCtx_eq_error {mk : CtxId → Instr} {w : Word} {e : DecodeError} (h : decodeCtx mk w = .error e)
    (hop : formatSOpcodes.contains (opcodeByte w) = false) : legalWord w = false := by
  by_contra hlegal
  obtain ⟨h18, h0⟩ := formatO_reserved (Bool.eq_true_of_not_eq_false hlegal) hop
  simp [decodeCtx, h18, h0] at h

theorem decodeNoCtx_eq_error {i : Instr} {w : Word} {e : DecodeError} (h : decodeNoCtx i w = .error e)
    (hop : noCtxOpcodes.contains (opcodeByte w) = true) (hS : formatSOpcodes.contains (opcodeByte w) = false) :
    legalWord w = false := by
  by_contra hlegal
  rw [Bool.not_eq_false] at hlegal
  obtain ⟨h18, h0⟩ := formatO_reserved hlegal hS
  simp only [legalWord, Bool.and_eq_true, ctxFieldAllowed, hop, if_true, beq_iff_eq] at hlegal
  obtain ⟨-, hctx⟩ := hlegal
  have h16 := wordBits_eq_zero_of_and 16 2 hctx (by decide)
  simp [decodeNoCtx, h18, h0, h16] at h

/-- A word the decoder refuses is illegal (R75). -/
theorem legalWord_of_decode_error {w : Word} {e : DecodeError} (h : decode w = .error e) : legalWord w = false := by
  have opcode : ∀ n, n < 256 → wordBits w 24 8 = n → opcodeByte w = BitVec.ofNat 32 n := by
    intro n hn hw
    rw [wordBits_opcode] at hw
    exact BitVec.eq_of_toNat_eq (by rw [hw, BitVec.toNat_ofNat]; omega)
  unfold decode at h
  split at h
  case h_1 hw | h_2 hw => exact decodeS_eq_error h (by rw [opcode _ (by decide) hw]; decide)
  case h_3 hw | h_4 hw | h_5 hw | h_6 hw | h_7 hw | h_8 hw | h_9 hw | h_10 hw | h_11 hw | h_12 hw | h_13 hw =>
    exact decodeNoCtx_eq_error h (by rw [opcode _ (by decide) hw]; decide) (by rw [opcode _ (by decide) hw]; decide)
  case h_14 hw | h_15 hw | h_16 hw | h_17 hw | h_18 hw =>
    exact decodeCtx_eq_error h (by rw [opcode _ (by decide) hw]; decide)
  case h_19 =>
    by_contra hlegal
    simp only [Bool.not_eq_false, legalWord, Bool.and_eq_true, opcodeAssigned, List.contains_iff_mem] at hlegal
    obtain ⟨⟨hassigned, -⟩, -⟩ := hlegal
    have hmem := List.mem_map_of_mem (f := BitVec.toNat) hassigned
    rw [← wordBits_opcode] at hmem
    simp_all [formatSOpcodes, noCtxOpcodes, ctxOpcodes]

theorem legalWord_encode_u12 : legalWord (encode .u12F32) = true := by decide

theorem legalWord_encode_free (c : CtxId) : legalWord (encode (.firFree c)) = true := by
  revert c; decide

theorem legalWord_encode_work (dom : Domain) (c : CtxId) : legalWord (encode (workInstr dom c)) = true := by
  cases dom <;> revert c <;> decide

end Sys2Proof.Machine
end

section
/-! SUPPORT. What a command leaves of the fault record and of the filter contexts (10_state R25 to R29, R32), and that both
stay well formed. -/

namespace Sys2Proof.Machine

/-! ### Completion and faults -/

/-- A command completes or takes a fault of its own, of a legal word and so never F_ILLEGAL (R202, R203). -/
theorem resultOf_completed_or_fault (i : Instr) (s : State) :
    Completed s (resultOf i s) ∨
    ∃ k : Cause, k ≠ .illegal ∧ legalWord (encode i) = true ∧ resultOf i s = s.raiseFault k (encode i) := by
  induction i using Instr.byFamily with
  | setl rd imm => exact .inl ⟨rfl, rfl, rfl, rfl, rfl, rfl⟩
  | seth rd imm => exact .inl ⟨rfl, rfl, rfl, rfl, rfl, rfl⟩
  | cvt i f conv hi =>
    rw [hi.result]
    exact .inl ⟨rfl, rfl, rfl, rfl, rfl, rfl⟩
  | u12 =>
    rw [resultOf_u12]
    split
    · exact .inr ⟨.badPhase, by decide, legalWord_encode_u12, rfl⟩
    · exact .inl ⟨rfl, rfl, rfl, rfl, rfl, rfl⟩
  | init dom c =>
    refine .inl ?_
    rcases resultOf_init_cases dom c s with ⟨-, h⟩ | ⟨code, h⟩ <;> rw [h] <;> exact ⟨rfl, rfl, rfl, rfl, rfl, rfl⟩
  | work dom c =>
    rcases resultOf_work_cases dom c s with ⟨-, h⟩ | ⟨k, hk, h⟩
    · rw [h]
      exact .inl ⟨rfl, rfl, rfl, rfl, rfl, rfl⟩
    · exact .inr ⟨k, hk, legalWord_encode_work dom c, h⟩
  | free c =>
    rw [resultOf_free]
    split
    · exact .inr ⟨.badCtx, by decide, legalWord_encode_free c, rfl⟩
    · exact .inl ⟨rfl, rfl, rfl, rfl, rfl, rfl⟩

theorem resultOf_params (i : Instr) (s : State) : (resultOf i s).params = s.params := by
  rcases resultOf_completed_or_fault i s with ⟨-, -, -, -, hp, -⟩ | ⟨k, -, -, h⟩
  · exact hp
  · rw [h, State.raiseFault_params]

theorem Cause.code_bounds (k : Cause) : 1 ≤ k.code.toNat ∧ k.code.toNat ≤ 6 := by
  cases k <;> decide

theorem Cause.code_eq_one_iff (k : Cause) : k.code = 1 ↔ k = .illegal := by
  cases k <;> decide

theorem Completed.faultRecordOk {s t : State} (h : Completed s t) (hs : s.FaultRecordOk) : t.FaultRecordOk := by
  obtain ⟨hhalt, hcause, hcmd, -⟩ := h
  simpa only [State.FaultRecordOk, hhalt, hcause, hcmd] using hs

/-- The record a fault leaves is well formed when its cause says whether the word is a command (R190, R191). -/
theorem faultRecordOk_raiseFault (s : State) {k : Cause} {w : Word} (h : k = .illegal ↔ legalWord w = false) :
    (s.raiseFault k w).FaultRecordOk := by
  simp only [State.FaultRecordOk, State.raiseFault_halt, State.raiseFault_fcause, State.raiseFault_fcmd, if_true]
  exact ⟨k.code_bounds, k.code_eq_one_iff.trans h⟩

theorem resultOf_faultRecordOk (i : Instr) {s : State} (hs : s.FaultRecordOk) : (resultOf i s).FaultRecordOk := by
  rcases resultOf_completed_or_fault i s with hc | ⟨k, hk, hw, h⟩
  · exact hc.faultRecordOk hs
  · rw [h]
    exact faultRecordOk_raiseFault s (by simp [hk, hw])

/-! ### Contexts -/

/-- A context is well formed and its storage fits. -/
abbrev Context.Sound (p : Params) (f : Context) : Prop := f.Inv ∧ f.Fits p

/-- A filter with the fields of a legal init is well formed when its cells are. -/
theorem Context.inv_of_valid {f : Context} (hv : f.valid = true) (hl : 1 ≤ f.ntaps.toNat ∧ f.ntaps.toNat ≤ 64)
    (hd : f.dec.toNat ≤ 6) (hk : f.int.toNat ≤ 2) (hm : 2 * f.ntaps.toNat ≤ f.maxblk.toNat)
    (hpad : ∀ i : Fin 64, f.ntaps.toNat ≤ i.val → f.tap[i] = 0)
    (hcells : f.dom = .X → (∀ i : Fin 64, f.tap[i].toNat < 2 ^ 16) ∧
      ∀ i : Fin 128, i.val < 2 * f.ntaps.toNat → f.hist[i].toNat < 2 ^ 16) : f.Inv := by
  rw [Context.Inv, if_pos hv]
  exact ⟨hl, hd, hk, hm, hpad, hcells⟩

/-- An element of domain X is a 16-bit number (R150). -/
theorem Memory.readElem_X_lt (m : Memory) (a : Nat) : (m.readElem Domain.X.width a).toNat < 2 ^ 16 := by
  have hlt := Memory.readN_lt m a 2
  rw [Memory.readElem_toNat m _ a (by decide)]
  exact hlt

theorem firCreate_tap (f : Context) (dom : Domain) (m : Memory) (a l d k : Nat) (b : Word) (i : Fin 64) :
    (firCreate f dom m a l d k b).tap[i] = if i.val < l then m.readElem dom.width (a + dom.width * i.val) else 0 := by
  simp [firCreate]

theorem firCreate_hist (f : Context) (dom : Domain) (m : Memory) (a l d k : Nat) (b : Word) (i : Fin 128) :
    (firCreate f dom m a l d k b).hist[i] = if i.val < 2 * l then 0 else f.hist[i] := by
  simp [firCreate]

/-- The fields of a created filter hold the operands whole: the checks keep them inside their widths (R151). -/
theorem firCreate_fields (f : Context) (dom : Domain) (m : Memory) (a : Nat) {l d k : Nat} (b : Word) (hl : l ≤ 64)
    (hd : d ≤ 6) (hk : k ≤ 2) :
    (firCreate f dom m a l d k b).ntaps.toNat = l ∧ (firCreate f dom m a l d k b).dec.toNat = d ∧
    (firCreate f dom m a l d k b).int.toNat = k := by
  simp only [firCreate, BitVec.toNat_ofNat]
  omega

/-- A created filter is sound (R28, R29, R33, R35, R151). -/
theorem firCreate_sound {dom : Domain} {c : CtxId} {s : State} (h : InitChecksPass dom c s) (f : Context) (m : Memory)
    (a : Nat) :
    (firCreate f dom m a (s.reg Reg.LEN).toNat (s.reg Reg.DA).toNat (s.reg Reg.DB).toNat (s.reg Reg.SB)).Sound
      s.params := by
  obtain ⟨-, hl, hd, hk, hm, hcap⟩ := h
  obtain ⟨hntaps, hdec, hint⟩ := firCreate_fields f dom m a (s.reg Reg.SB) hl.2 hd hk
  constructor
  · refine Context.inv_of_valid rfl (by rwa [hntaps]) (by rwa [hdec]) (by rwa [hint]) (by rwa [hntaps]) ?_ ?_
    · intro i hi
      rw [hntaps] at hi
      rw [firCreate_tap, if_neg (not_lt.mpr hi)]
    · intro hX
      have hdom : dom = .X := hX
      subst hdom
      refine ⟨fun i => ?_, fun i hi => ?_⟩
      · rw [firCreate_tap]
        split
        · exact Memory.readElem_X_lt m _
        · decide
      · rw [hntaps] at hi
        rw [firCreate_hist, if_pos hi]
        decide
  · intro _
    rw [hntaps, hint]
    exact hcap

/-- A sample of the stream of a well-formed filter of domain X is a 16-bit number (R169). -/
theorem streamAt_X_lt {f : Context} (hf : f.Inv) (hv : f.valid = true) (hX : f.dom = .X) (s : State) (j : Nat) :
    (streamAt .X f s j).toNat < 2 ^ 16 := by
  obtain ⟨hl, -, -, -, -, hcells⟩ := hf.valid hv
  unfold streamAt
  split
  · next hj =>
    have hhist := (hcells hX).2 ⟨j, by omega⟩ hj
    simpa [List.getD_eq_getElem?_getD, show j < 128 by omega] using hhist
  · exact Memory.readElem_X_lt _ _

/-- The context a work command leaves is sound (R169). -/
theorem work_context_sound {dom : Domain} {f : Context} {s : State} {p : Params}
    (h : WorkChecksPass dom f (s.reg Reg.LEN).toNat) (hf : f.Sound p) :
    Context.Sound p { f with hist := firHistory f (firStream dom f s) } := by
  obtain ⟨hinv, hfits⟩ := hf
  obtain ⟨hv, hdom, -, -, heven, -⟩ := h
  obtain ⟨hl, hd, hk, hm, hpad, hcells⟩ := hinv.valid hv
  refine ⟨Context.inv_of_valid hv hl hd hk hm hpad fun hX => ⟨(hcells hX).1, fun i hi => ?_⟩, hfits⟩
  have hX' : f.dom = .X := hX
  obtain rfl : dom = .X := hdom.symm.trans hX'
  rw [firHistory_get hl.2 heven, if_pos hi]
  exact streamAt_X_lt hinv hv hX' s _

/-- A context without a filter is sound (R173). -/
theorem Context.freed_sound (p : Params) (tick : Nat) (c : CtxId) : (Context.freed tick c).Sound p :=
  ⟨⟨rfl, rfl, rfl, rfl, rfl⟩, fun h => absurd h (by simp [Context.freed])⟩

/-- Replacing one context by a sound one keeps all sound. -/
theorem sound_of_ctx_set {s t : State} {p : Params} {c : CtxId} {f : Context} (h : t.ctx = s.ctx.set c f)
    (hf : f.Sound p) (hs : ∀ d, (s.context d).Sound p) (d : CtxId) : (t.context d).Sound p := by
  have hctx : t.context d = (s.setContext c f).context d := by simp only [State.context, h, State.setContext_ctx]
  rw [hctx]
  by_cases hd : d = c
  · rw [hd, State.context_setContext_same]
    exact hf
  · rw [State.context_setContext_ne s f hd]
    exact hs d

/-- Every command keeps every context sound (R29). -/
theorem resultOf_contexts_sound (i : Instr) {s : State} (hs : ∀ d, (s.context d).Sound s.params) (d : CtxId) :
    ((resultOf i s).context d).Sound s.params := by
  induction i using Instr.byFamily with
  | setl rd imm => exact hs d
  | seth rd imm => exact hs d
  | cvt i f conv hi =>
    rw [hi.result]
    exact hs d
  | u12 =>
    rw [resultOf_u12]
    split <;> exact hs d
  | init dom c =>
    rcases resultOf_init_cases dom c s with ⟨hpass, h⟩ | ⟨code, h⟩ <;> rw [h]
    · exact sound_of_ctx_set rfl (firCreate_sound hpass _ _ _) hs d
    · exact hs d
  | work dom c =>
    rcases resultOf_work_cases dom c s with ⟨hpass, h⟩ | ⟨k, -, h⟩ <;> rw [h]
    · exact sound_of_ctx_set rfl (work_context_sound hpass (hs c)) hs d
    · exact hs d
  | free c =>
    rw [resultOf_free]
    split
    · exact hs d
    · exact sound_of_ctx_set rfl (Context.freed_sound _ _ c) hs d

/-! ### Memory -/

/-- A command whose elements lie inside the address space lists no address outside it (R37, R58). -/
theorem resultOf_mem_lt (i : Instr) {s : State} (hok : (accessOf i s).Ok s.params) (hs : ∀ c ∈ s.mem, c.1 < 2 ^ 32) :
    ∀ c ∈ (resultOf i s).mem, c.1 < 2 ^ 32 := by
  obtain ⟨v, hv⟩ := resultOf_mem i s
  obtain ⟨-, hdst, -⟩ := hok
  intro c hc
  rw [hv] at hc
  rcases Memory.mem_writeElems hc with ⟨p, hp, -, hlt⟩ | hc
  · obtain ⟨e, he, hpe⟩ := Access.mem_elems hp
    obtain ⟨-, hend, -⟩ := hdst e he
    rw [hpe] at hlt
    exact hlt.trans_le hend
  · exact hs c hc

/-! ### The invariant -/

theorem exec_keeps_inv {i : Instr} {s t : State} (hs : s.Inv) (h : exec i s = .next t) : t.Inv := by
  obtain ⟨rfl, hok⟩ := exec_eq_next h
  obtain ⟨hwf, hlt, hrecord, hctx⟩ := hs
  refine ⟨?_, resultOf_mem_lt i hok hlt, resultOf_faultRecordOk i hrecord, fun c => ?_⟩
  · obtain ⟨v, hv⟩ := resultOf_mem i s
    rw [hv]
    exact Memory.wf_writeElems hwf _ _
  · rw [resultOf_params]
    exact resultOf_contexts_sound i hctx c

theorem raiseFault_illegal_keeps_inv {s : State} {w : Word} (hs : s.Inv) (hw : legalWord w = false) :
    (s.raiseFault .illegal w).Inv := by
  obtain ⟨hwf, hlt, -, hctx⟩ := hs
  exact ⟨hwf, hlt, faultRecordOk_raiseFault s (by simp [hw]), hctx⟩

/-- Everything a step can do: nothing, a fault of an illegal word, or the command of a legal one (R24, R75, R204). -/
theorem step_cases (s : State) :
    step s = .next s ∨ (∃ w e, decode w = .error e ∧ step s = .next (s.raiseFault .illegal w)) ∨
    ∃ i, step s = exec i s := by
  unfold step
  split
  · exact .inl rfl
  · next w _ =>
    split
    · next e he => exact .inr (.inl ⟨w, e, he, rfl⟩)
    · next i _ => exact .inr (.inr ⟨i, rfl⟩)

/-- Settles O56: each part of the invariant is kept by every command, by a fault and by an idle step. -/
theorem stepKeepsInvariant : Obligations.StepKeepsInvariant := by
  unfold Obligations.StepKeepsInvariant
  intro s t hs h
  rcases step_cases s with hidle | ⟨w, e, he, hfault⟩ | ⟨i, hexec⟩
  · rw [hidle] at h
    obtain rfl := Host.Outcome.next.inj h
    exact hs
  · rw [hfault] at h
    obtain rfl := Host.Outcome.next.inj h
    exact raiseFault_illegal_keeps_inv hs (legalWord_of_decode_error he)
  · exact exec_keeps_inv hs (hexec.symm.trans h)

end Sys2Proof.Machine
end

section
/-! SUPPORT. The statements over all commands about the step, the registers, memory and the contexts (10_state R22, R24, R32,
20_memory R38, R55, 43_fir R151 to R154). -/

namespace Sys2Proof.Machine

/-! ### The step -/

/-- R24, R79. -/
theorem step_eq_exec {s : State} {w : Word} {i : Instr} (hh : s.halt = false) (hw : s.program[s.cmdIndex]? = some w)
    (hd : decode w = .ok i) : step s = exec i s := by
  simp [step, State.fetch, hh, hw, hd]

/-- Settles O7: the word at the command index is the one the step fetches. -/
theorem stepRunsTheDecodedCommand : Obligations.StepRunsTheDecodedCommand := by
  unfold Obligations.StepRunsTheDecodedCommand
  exact fun s w i hh hw hd => step_eq_exec hh hw hd

theorem hostPresent_of_not_halt {s : State} (w : Word) (hh : s.halt = false) :
    hostPresent w s = { s with program := s.program ++ [w] } := by
  simp [hostPresent, hh]

/-- Settles O10: the word appended to a list that has run to its end stands at the command index. -/
theorem presentedWordRunsNext : Obligations.PresentedWordRunsNext := by
  unfold Obligations.PresentedWordRunsNext
  intro s w i hh hend hd
  rw [hostPresent_of_not_halt w hh]
  exact step_eq_exec (w := w) hh (by simp [hend]) hd

/-! ### Registers and memory -/

/-- Settles O50: by the state each family of commands answers. -/
theorem onlyNamedRegistersWritten : Obligations.OnlyNamedRegistersWritten := by
  unfold Obligations.OnlyNamedRegistersWritten
  intro i s t h
  obtain ⟨rfl, -⟩ := exec_eq_next h
  exact resultOf_sameRegsBut i s

/-- What the elements of an access hold once written, and that nothing else changed, where they are apart. -/
theorem Access.stored_elems {x : Access} {p : Params} (hok : x.Ok p) {m : Memory} (hm : m.wf = true) (v : Nat → Word) :
    Stored m (m.writeElems x.wd (x.elems v)) x fun e => (v e).toNat % 256 ^ x.wd := by
  obtain ⟨-, -, -, hapart⟩ := hok
  exact stored_writeElems hm x v hapart

/-- Settles O53: a command writes the elements of its access and no other byte. -/
theorem memoryChangesOnlyAtDestination : Obligations.MemoryChangesOnlyAtDestination := by
  unfold Obligations.MemoryChangesOnlyAtDestination
  intro i s t hm h
  obtain ⟨rfl, hok⟩ := exec_eq_next h
  obtain ⟨v, hv⟩ := resultOf_mem i s
  rw [hv]
  exact (Access.stored_elems hok hm v).2

/-- Settles O54: in both memories the command writes the same values to the same elements. -/
theorem memoryReadOnlyAtSource : Obligations.MemoryReadOnlyAtSource := by
  unfold Obligations.MemoryReadOnlyAtSource
  intro i s t m hs hm hagree h
  obtain ⟨rfl, hok⟩ := exec_eq_next h
  obtain ⟨v, hv⟩ := resultOf_setMem i s
  have hmem : (resultOf i s).mem = s.mem.writeElems (accessOf i s).wd ((accessOf i s).elems v) :=
    congrArg State.mem (hv s.mem fun _ _ => rfl)
  have hok' : (accessOf i (s.setMem m)).Ok (s.setMem m).params := by rwa [accessOf_setMem]
  refine ⟨_, exec_of_ok hok', ?_⟩
  rw [hv m hagree]
  refine ⟨rfl, rfl, rfl, rfl, rfl, rfl, fun e he => ?_⟩
  rw [hmem, (Access.stored_elems hok hs v).1 e he]
  exact (Access.stored_elems hok hm v).1 e he

/-! ### Contexts -/

theorem State.setContext_comm (s : State) {c d : CtxId} (h : c ≠ d) (f g : Context) :
    (s.setContext d g).setContext c f = (s.setContext c f).setContext d g := by
  have hset : (s.ctx.set d g).set c f = (s.ctx.set c f).set d g :=
    Vector.set_comm _ _ (Fin.val_ne_of_ne h.symm)
  simp only [State.setContext, hset]

/-- A guarded answer changed by `g`, from a state with the same implemented memory. -/
theorem guardAccess_mapNext {s s' : State} (hp : s'.params = s.params) (srcs dsts : List ByteRange) (g : State → State)
    (t : State) : guardAccess s' srcs dsts (g t) = mapNext g (guardAccess s srcs dsts t) := by
  unfold guardAccess
  rw [hp]
  split_ifs
  · rfl
  · rfl
  · rfl
  · split <;> rfl

theorem srcRanges_init (dom : Domain) (c : CtxId) (s : State) :
    srcRanges (initInstr dom c) s =
      if InitChecksPass dom c s then [⟨(s.reg Reg.SA).toNat, dom.width * (s.reg Reg.LEN).toNat, dom.width⟩] else [] := by
  cases dom <;> rfl

theorem srcRanges_work (dom : Domain) (c : CtxId) (s : State) :
    srcRanges (workInstr dom c) s =
      if WorkChecksPass dom (s.context c) (s.reg Reg.LEN).toNat then
        [⟨(s.reg Reg.SA).toNat, dom.width * (s.reg Reg.LEN).toNat, dom.width⟩] else [] := by
  cases dom <;> rfl

theorem dstRanges_init (dom : Domain) (c : CtxId) (s : State) : dstRanges (initInstr dom c) s = [] := by
  cases dom <;> rfl

theorem dstRanges_work (dom : Domain) (c : CtxId) (s : State) :
    dstRanges (workInstr dom c) s =
      if WorkChecksPass dom (s.context c) (s.reg Reg.LEN).toNat then
        [⟨(s.reg Reg.DA).toNat, dom.width * (2 * firPairs (s.context c) (s.reg Reg.LEN).toNat), dom.width⟩] else [] := by
  cases dom <;> rfl

theorem ranges_init_setContext (dom : Domain) {c d : CtxId} (h : c ≠ d) (s : State) (g : Context) :
    srcRanges (initInstr dom c) (s.setContext d g) = srcRanges (initInstr dom c) s ∧
    dstRanges (initInstr dom c) (s.setContext d g) = dstRanges (initInstr dom c) s := by
  simp only [srcRanges_init, dstRanges_init, (SameChecks.setContext h s g).initChecksPass, State.reg_setContext, and_self]

theorem ranges_work_setContext (dom : Domain) {c d : CtxId} (h : c ≠ d) (s : State) (g : Context) :
    srcRanges (workInstr dom c) (s.setContext d g) = srcRanges (workInstr dom c) s ∧
    dstRanges (workInstr dom c) (s.setContext d g) = dstRanges (workInstr dom c) s := by
  simp only [srcRanges_work, dstRanges_work, State.context_setContext_ne s g h, State.reg_setContext, and_self]

theorem ne_of_not_mem_named {c d : CtxId} (h : d ∉ [c]) : c ≠ d := (List.ne_of_not_mem_cons h).symm

/-- The ranges of a command do not depend on a context it does not name (R32). -/
theorem ranges_setContext (i : Instr) (s : State) {d : CtxId} (g : Context) (h : d ∉ namedCtx i) :
    srcRanges i (s.setContext d g) = srcRanges i s ∧ dstRanges i (s.setContext d g) = dstRanges i s := by
  cases i with
  | firInitF c => exact ranges_init_setContext .F (ne_of_not_mem_named h) s g
  | firInitX c => exact ranges_init_setContext .X (ne_of_not_mem_named h) s g
  | firWorkF c => exact ranges_work_setContext .F (ne_of_not_mem_named h) s g
  | firWorkX c => exact ranges_work_setContext .X (ne_of_not_mem_named h) s g
  | _ => exact ⟨rfl, rfl⟩

theorem initResult_setContext (dom : Domain) {c d : CtxId} (h : c ≠ d) (s : State) (g : Context) :
    initResult dom c (s.setContext d g) = (initResult dom c s).setContext d g := by
  simp only [initResult, State.context_setContext_ne s g h, State.reg_setContext, State.setContext_mem,
    State.setContext_comm s h]
  rfl

theorem workResult_setContext (dom : Domain) {c d : CtxId} (h : c ≠ d) (s : State) (g : Context) :
    workResult dom c (s.setContext d g) = (workResult dom c s).setContext d g := by
  have hwrite : ∀ w es, writeResult (s.setContext d g) w es = (writeResult s w es).setContext d g := fun _ _ => rfl
  simp only [workResult, State.context_setContext_ne s g h, State.reg_setContext, hwrite, State.setContext_comm _ h]
  rfl

/-- What a command answers carries a context it does not name along (R32). -/
theorem resultOf_setContext (i : Instr) (s : State) {d : CtxId} (g : Context) (h : d ∉ namedCtx i) :
    resultOf i (s.setContext d g) = (resultOf i s).setContext d g := by
  induction i using Instr.byFamily with
  | setl rd imm => rfl
  | seth rd imm => rfl
  | cvt i f conv hi =>
    have hconv : conv (s.setContext d g) = conv s := hi.reads s _ rfl rfl rfl
    rw [hi.result, hi.result, cvtResult, cvtElems, hconv]
    rfl
  | u12 =>
    rw [resultOf_u12, resultOf_u12, State.reg_setContext]
    split <;> rfl
  | init dom c =>
    rw [namedCtx_init] at h
    have hcd := ne_of_not_mem_named h
    have hsame := SameChecks.setContext hcd s g
    rw [resultOf_init, resultOf_init]
    by_cases hpass : InitChecksPass dom c s
    · rw [initAnswer_of_pass hpass, initAnswer_of_pass (hsame.initChecksPass.2 hpass), initResult_setContext dom hcd]
    · obtain ⟨code, he⟩ := initAnswer_of_fail hpass
      rw [he _ hsame, he s (.refl c s)]
      rfl
  | work dom c =>
    rw [namedCtx_work] at h
    have hcd := ne_of_not_mem_named h
    have hsame := SameChecks.setContext hcd s g
    rw [resultOf_work, resultOf_work]
    by_cases hpass : WorkChecksPass dom (s.context c) (s.reg Reg.LEN).toNat
    · rw [workAnswer_of_pass hpass, workAnswer_of_pass (by rwa [hsame.context, hsame.reg]), workResult_setContext dom hcd]
    · obtain ⟨k, -, he⟩ := workAnswer_of_fail hpass (encode (workInstr dom c))
      rw [he _ hsame, he s (.refl c s)]
      rfl
  | free c =>
    have hcd := ne_of_not_mem_named h
    rw [resultOf_free, resultOf_free, State.context_setContext_ne s g hcd, State.setContext_comm s hcd]
    split <;> rfl

/-- Settles O55: neither the ranges a command checks nor what it answers look at the context. -/
theorem contextsShareNothing : Obligations.ContextsShareNothing := by
  unfold Obligations.ContextsShareNothing
  intro i s d g h
  obtain ⟨hsrc, hdst⟩ := ranges_setContext i s g h
  rw [exec_eq_guard, exec_eq_guard, hsrc, hdst, resultOf_setContext i s g h]
  exact guardAccess_mapNext rfl _ _ (fun t => t.setContext d g) _

/-! ### Creating a filter -/

theorem SameCtxBut.of_ctx_set {s t : State} {c : CtxId} {f : Context} (h : t.ctx = s.ctx.set c f) : SameCtxBut [c] s t :=
  fun d hd => by
    have hne := State.context_setContext_ne s f (List.ne_of_not_mem_cons hd)
    simpa only [State.context, State.setContext, h] using hne

theorem initResult_context (dom : Domain) (c : CtxId) (s : State) :
    (initResult dom c s).context c = firCreate (s.context c) dom s.mem (s.reg Reg.SA).toNat (s.reg Reg.LEN).toNat
      (s.reg Reg.DA).toNat (s.reg Reg.DB).toNat (s.reg Reg.SB) := by
  simp [initResult]

/-- A tap of a created filter, as the number the element of memory holds (R154). -/
theorem firCreate_tap_toNat (f : Context) (dom : Domain) (m : Memory) (a l d k : Nat) (b : Word) (i : Fin 64) :
    ((firCreate f dom m a l d k b).tap[i]).toNat =
      if i.val < l then m.readN (a + dom.width * i.val) dom.width else 0 := by
  have hw : dom.width ≤ 4 := by cases dom <;> decide
  rw [firCreate_tap]
  split
  · exact Memory.readElem_toNat m _ _ hw
  · rfl

/-- Settles O31: the context of the answer is firCreate's, whose fields the checks keep inside their widths. -/
theorem initCreatesFilter : Obligations.InitCreatesFilter := by
  unfold Obligations.InitCreatesFilter
  intro dom c s hpass hok
  have hok' : (accessOf (initInstr dom c) s).Ok s.params := by rwa [accessOf_init, if_pos hpass]
  obtain ⟨-, hl, hd, hk, -⟩ := id hpass
  obtain ⟨hntaps, hdec, hint⟩ :=
    firCreate_fields (s.context c) dom s.mem (s.reg Reg.SA).toNat (s.reg Reg.SB) hl.2 hd hk
  refine ⟨initResult dom c s, ?_, ?_⟩
  · rw [exec_of_ok hok', resultOf_init, initAnswer_of_pass hpass]
  · rw [initResult_context]
    exact ⟨rfl, rfl, hdec, hint, hntaps, rfl, firCreate_tap_toNat _ _ _ _ _ _ _ _,
      fun i hi => by rw [firCreate_hist, if_pos hi], by simp [initResult], .of_x_set rfl, .of_ctx_set rfl,
      fun _ => rfl, rfl, rfl, rfl, rfl, rfl, rfl⟩

end Sys2Proof.Machine
end

section
/-! SUPPORT. The registers the host reads: the places of the fields of STATUS, FCFG and FMAX and the numbers of the host
port (10_state R25, R28, R31). -/

namespace Sys2Proof.Machine

theorem bitAt_eq (b : Bool) (n : Nat) : bitAt b n = b.toNat * 2 ^ n := by
  cases b <;> simp [bitAt]

/-- A register packed from a number below 2^32, field by field. -/
theorem wordBits_ofNat {n : Nat} (h : n < 2 ^ 32) (lo len : Nat) :
    wordBits (BitVec.ofNat 32 n) lo len = n / 2 ^ lo % 2 ^ len := by
  rw [wordBits, BitVec.toNat_ofNat, Nat.mod_eq_of_lt h]

theorem ite_eq_toNat (b : Bool) : (if b then 1 else 0) = b.toNat := by cases b <;> rfl

/-- Settles O45: the fields are packed at disjoint places. -/
theorem statusLayout : Obligations.StatusLayout := by
  unfold Obligations.StatusLayout
  intro s
  have hcause := s.fcause.isLt
  have h0 := (s.context 0).valid.toNat_lt
  have h1 := (s.context 1).valid.toNat_lt
  have h2 := (s.context 2).valid.toNat_lt
  have h3 := (s.context 3).valid.toNat_lt
  have hh := s.halt.toNat_lt
  have hlt : s.halt.toNat * 2 ^ 0 + s.fcause.toNat * 2 ^ 4 + (s.context 0).valid.toNat * 2 ^ 8 +
      (s.context 1).valid.toNat * 2 ^ 9 + (s.context 2).valid.toNat * 2 ^ 10 + (s.context 3).valid.toNat * 2 ^ 11 <
      2 ^ 32 := by omega
  simp only [statusReg, bitAt_eq, ite_eq_toNat, wordBits_ofNat hlt]
  refine ⟨by omega, by omega, by omega, fun c => ?_, by omega⟩
  fin_cases c <;> simp <;> omega

theorem ite_eq_X_eq_bit (dom : Domain) : (if dom = .X then 1 else 0) = dom.bit.toNat := by cases dom <;> rfl

/-- Settles O46: the fields of a valid context are packed at disjoint places. -/
theorem filterRegisterLayout : Obligations.FilterRegisterLayout := by
  unfold Obligations.FilterRegisterLayout
  intro f
  have hdec := f.dec.isLt
  have hint := f.int.isLt
  have hntaps := f.ntaps.isLt
  have hdom := f.dom.bit.toNat_lt
  constructor <;> intro hv
  · have hlt : 1 + f.dom.bit.toNat * 2 ^ 1 + f.dec.toNat * 2 ^ 4 + f.int.toNat * 2 ^ 8 + f.ntaps.toNat * 2 ^ 16 <
        2 ^ 32 := by omega
    simp only [fcfgReg, fmaxReg, hv, if_true, bitAt_eq, ite_eq_X_eq_bit, wordBits_ofNat hlt, and_true]
    omega
  · simp [fcfgReg, fmaxReg, hv]

/-- What the host reads is registers, fault record and contexts. -/
theorem hostReadReg_congr {s t : State} (hx : t.x = s.x) (hh : t.halt = s.halt) (hc : t.fcause = s.fcause)
    (hm : t.fcmd = s.fcmd) (hctx : t.ctx = s.ctx) (n : Nat) : hostReadReg n t = hostReadReg n s := by
  have hreg : ∀ r, t.reg r = s.reg r := fun r => by rw [State.reg, hx, State.reg]
  have hcontext : ∀ c, t.context c = s.context c := fun c => by rw [State.context, hctx, State.context]
  simp only [hostReadReg, statusReg, hreg, hcontext, hh, hc, hm]

/-- R31, R207: no move of the host but reset changes a register. -/
theorem hostReadReg_hostMove (s : State) {m : HostMove} (h : m ≠ .reset) (n : Nat) :
    hostReadReg n (hostMove m s) = hostReadReg n s := by
  cases m with
  | present w =>
    simp only [hostMove, hostPresent]
    split
    · rfl
    · exact hostReadReg_congr rfl rfl rfl rfl rfl n
  | writeByte a b =>
    simp only [hostMove, hostWriteByte]
    split
    · exact hostReadReg_congr rfl rfl rfl rfl rfl n
    · rfl
  | reset => exact absurd rfl h

theorem hostReadReg_reg (r : Reg) (s : State) : hostReadReg r.val s = s.reg r := by
  fin_cases r <;> rfl

theorem hostReadReg_context (c : CtxId) (s : State) :
    hostReadReg (16 + 2 * c.val) s = fcfgReg (s.context c) ∧ hostReadReg (17 + 2 * c.val) s = fmaxReg (s.context c) := by
  fin_cases c <;> exact ⟨rfl, rfl⟩

/-- A number R31 gives no register reads 0. -/
theorem hostReadReg_unassigned {n : Nat} (h : 10 ≤ n ∧ n < 16 ∨ 24 ≤ n) (s : State) : hostReadReg n s = 0 := by
  unfold hostReadReg
  split
  case h_19 => rfl
  all_goals omega

/-- Settles O47: each number is one row of the port's table. -/
theorem hostPortNumbers : Obligations.HostPortNumbers := by
  unfold Obligations.HostPortNumbers
  intro s
  exact ⟨fun r => hostReadReg_reg r s, rfl, rfl, fun c => hostReadReg_context c s,
    fun n hn => hostReadReg_unassigned hn s, fun m n hm => hostReadReg_hostMove s hm n⟩

end Sys2Proof.Machine
end

section
/-! SUPPORT. When a command completes and what names its stop (20_memory R52, R53, R56 to R58): each precondition guardAccess
finds violated on a range fails for an element the range is made of. -/

namespace Sys2Proof.Machine

/-- Settles O48: `exec` is guardAccess over ranges that are in order exactly when the accessed elements are. -/
theorem completesExactlyWhenAccessible : Obligations.CompletesExactlyWhenAccessible := by
  unfold Obligations.CompletesExactlyWhenAccessible
  exact fun i s => ⟨fun ⟨_, h⟩ => (exec_eq_next h).2, fun h => ⟨_, exec_of_ok h⟩⟩

/-! ### What a stop of guardAccess says of the ranges -/

/-- The rule a refusal names fails for the ranges. -/
theorem guardAccess_refused {s t : State} {srcs dsts : List ByteRange} {r : Refusal}
    (h : guardAccess s srcs dsts t = .refused r) :
    (r = .addressOverflow ∧ ∃ q ∈ srcs ++ dsts, q.pastEnd = true) ∨
    (r = .misaligned ∧ ∃ q ∈ srcs ++ dsts, q.misaligned = true) ∨
    (r = .overlap ∧ anyOverlap srcs dsts = true) := by
  unfold guardAccess at h
  split at h
  · next hpast =>
    cases h
    exact .inl ⟨rfl, List.any_eq_true.1 hpast⟩
  split at h
  · next hmis =>
    cases h
    exact .inr (.inl ⟨rfl, List.any_eq_true.1 hmis⟩)
  split at h
  · next hover =>
    cases h
    exact .inr (.inr ⟨rfl, hover⟩)
  · split at h <;> cases h

/-- A fault names a byte of a range that is not implemented. -/
theorem guardAccess_fault {s t : State} {srcs dsts : List ByteRange} {r : Fault}
    (h : guardAccess s srcs dsts t = .fault r) :
    ∃ a, r = .unimplementedMemory a ∧ memOK s.params a = false ∧
      ∃ q ∈ srcs ++ dsts, q.base ≤ a ∧ a < q.base + q.len := by
  rcases guardAccess_cases s srcs dsts t with ⟨hn, -⟩ | ⟨_, -, hr, -⟩ | ⟨a, hf, hole, hq, -⟩
  · cases hn.symm.trans h
  · cases hr.symm.trans h
  · cases hf.symm.trans h
    exact ⟨a, rfl, hole, hq⟩

/-! ### Ranges made of elements -/

/-- The ranges are those of `n` elements of width `w` at the addresses `addr`: no range for no element, or the arrays of a
layout (R102). -/
inductive RangesOf : List ByteRange → Nat → Nat → (Nat → Nat) → Prop where
  | none (w : Nat) (addr : Nat → Nat) : RangesOf [] 0 w addr
  | arrays (l : Layout) {a b w : Nat} (n : Nat) (ha : a ≤ 2 ^ 32) (hb : b ≤ 2 ^ 32) (hw : 0 < w) :
      RangesOf (elemRanges l a b w n) n w (elemAddr l a b w)

section
variable {rs : List ByteRange} {n w : Nat} {addr : Nat → Nat} {q : ByteRange}

/-- Every range is an array of elements among the `n`. -/
theorem RangesOf.isArray (h : RangesOf rs n w addr) (hq : q ∈ rs) :
    0 < w ∧ q.base ≤ 2 ^ 32 ∧ q.width = w ∧
      ∃ m, q.len = w * m ∧ ∀ i, i < m → ∃ e, e < n ∧ addr e = q.base + w * i := by
  cases h with
  | none => cases hq
  | @arrays l a b _ _ ha hb hw =>
    have helem := (forall_elemAddr_iff l a b w n fun y => ∃ e, e < n ∧ elemAddr l a b w e = y).1
      fun e he => ⟨e, he, rfl⟩
    rw [elemRanges_eq, List.mem_map] at hq
    obtain ⟨r, hr, rfl⟩ := hq
    exact ⟨hw, layoutArrays_base_le ha hb r hr, rfl, r.2, rfl, helem r hr⟩

/-- R58: a range that passes 2^32 ends with an element that does. -/
theorem RangesOf.exists_pastEnd (h : RangesOf rs n w addr) (hq : q ∈ rs) (hp : q.pastEnd = true) :
    ∃ e, e < n ∧ 2 ^ 32 < addr e + w := by
  obtain ⟨-, hbase, -, m, hlen, helem⟩ := h.isArray hq
  rw [ByteRange.pastEnd, decide_eq_true_eq, hlen] at hp
  cases m with
  | zero => omega
  | succ m =>
    obtain ⟨e, he, haddr⟩ := helem m m.lt_succ_self
    rw [Nat.mul_succ] at hp
    exact ⟨e, he, by omega⟩

/-- R52: a misaligned range begins with a misaligned element. -/
theorem RangesOf.exists_misaligned (h : RangesOf rs n w addr) (hq : q ∈ rs) (hp : q.misaligned = true) :
    ∃ e, e < n ∧ addr e % w ≠ 0 := by
  obtain ⟨-, -, hwidth, m, hlen, helem⟩ := h.isArray hq
  rw [ByteRange.misaligned, Bool.and_eq_true, decide_eq_true_eq, decide_eq_true_eq, hlen, hwidth] at hp
  obtain ⟨hpos, hmis⟩ := hp
  obtain ⟨e, he, haddr⟩ := helem 0 (Nat.pos_of_mul_pos_left hpos)
  exact ⟨e, he, by simpa [haddr] using hmis⟩

/-- R57: a byte of a range lies in an element. -/
theorem RangesOf.exists_elem (h : RangesOf rs n w addr) (hq : q ∈ rs) {a : Nat} (h1 : q.base ≤ a)
    (h2 : a < q.base + q.len) : ∃ e, e < n ∧ addr e ≤ a ∧ a < addr e + w := by
  obtain ⟨hw, -, -, m, hlen, helem⟩ := h.isArray hq
  rw [hlen] at h2
  have hi : (a - q.base) / w < m := (Nat.div_lt_iff_lt_mul hw).2 (by rw [mul_comm]; omega)
  obtain ⟨e, he, haddr⟩ := helem _ hi
  have hdiv := Nat.div_add_mod (a - q.base) w
  have hmod := Nat.mod_lt (a - q.base) hw
  exact ⟨e, he, by omega, by omega⟩

/-- R56: elements that share no byte lie in ranges that share none. -/
theorem RangesOf.anyOverlap_eq_false {srcs dsts : List ByteRange} {ns ws nd wd : Nat} {src dst : Nat → Nat}
    (hs : RangesOf srcs ns ws src) (hd : RangesOf dsts nd wd dst)
    (hsrc : ∀ e, e < nd → ∀ f, f < ns → Apart (dst e) wd (src f) ws)
    (hdst : ∀ e, e < nd → ∀ f, f < nd → e ≠ f → Apart (dst e) wd (dst f) wd) : anyOverlap srcs dsts = false := by
  rw [anyOverlap_eq_false_iff]
  cases hd with
  | none => simp
  | arrays l _ _ _ hwd =>
    refine ⟨?_, (elemRanges_pairwise_iff l hwd).2 hdst⟩
    cases hs with
    | none => simp
    | arrays l' _ _ _ hws => exact (elemRanges_apart_iff l l' hwd hws).2 hsrc

end

/-! ### The ranges of every command -/

theorem Domain.width_pos (dom : Domain) : 0 < dom.width := by cases dom <;> decide

theorem State.reg_toNat_le (s : State) (r : Reg) : (s.reg r).toNat ≤ 2 ^ 32 := (s.reg r).isLt.le

/-- One array of elements, beginning at the address a register holds (R102). -/
theorem RangesOf.array (s : State) (r : Reg) {w : Nat} (n : Nat) (hw : 0 < w) :
    RangesOf [⟨(s.reg r).toNat, w * n, w⟩] n w fun e => (s.reg r).toNat + w * e :=
  .arrays .interleaved (b := 0) n (s.reg_toNat_le r) (Nat.zero_le _) hw

/-- The elements of a CVT command have a byte at least. -/
theorem cvtForm_width_pos {i : Instr} {f : CvtForm} (h : cvtForm i = some f) : 0 < f.ws ∧ 0 < f.wd := by
  cases i <;> cases h <;> decide

/-- The ranges of a CVT command of a form (R101, R107). -/
theorem ranges_of_cvtForm {i : Instr} {f : CvtForm} (h : cvtForm i = some f) (s : State) :
    srcRanges i s = elemRanges f.ls (s.reg Reg.SA).toNat (s.reg Reg.SB).toNat f.ws ((s.reg Reg.LEN).toNat / f.ws) ∧
    dstRanges i s = elemRanges f.ld (s.reg Reg.DA).toNat (s.reg Reg.DB).toNat f.wd ((s.reg Reg.LEN).toNat / f.ws) := by
  cases i <;> cases h <;> exact ⟨rfl, rfl⟩

/-- `srcs` and `dsts` are the ranges of the elements of an access. -/
def Access.HasRanges (x : Access) (srcs dsts : List ByteRange) : Prop :=
  RangesOf srcs x.ns x.ws x.src ∧ RangesOf dsts x.nd x.wd x.dst

theorem Access.none_hasRanges : Access.none.HasRanges [] [] := ⟨.none _ _, .none _ _⟩

theorem u12Access_hasRanges (s : State) : (u12Access s).HasRanges
    [⟨(s.reg Reg.SA).toNat, (s.reg Reg.LEN).toNat, 1⟩]
    [⟨(s.reg Reg.DA).toNat, 8 * ((carryPhase (s.reg Reg.CRY) + (s.reg Reg.LEN).toNat) / 3), 4⟩] := by
  have hsrc := RangesOf.array s Reg.SA (s.reg Reg.LEN).toNat Nat.one_pos
  have hdst := RangesOf.array s Reg.DA (2 * ((carryPhase (s.reg Reg.CRY) + (s.reg Reg.LEN).toNat) / 3)) (w := 4) (by decide)
  simp only [one_mul] at hsrc
  rw [← mul_assoc] at hdst
  exact ⟨hsrc, hdst⟩

theorem initAccess_hasRanges (dom : Domain) (s : State) :
    (initAccess dom s).HasRanges [⟨(s.reg Reg.SA).toNat, dom.width * (s.reg Reg.LEN).toNat, dom.width⟩] [] :=
  ⟨.array s Reg.SA _ dom.width_pos, .none _ _⟩

theorem workAccess_hasRanges {dom : Domain} {f : Context} {s : State} (h : WorkChecksPass dom f (s.reg Reg.LEN).toNat) :
    (workAccess dom f s).HasRanges [⟨(s.reg Reg.SA).toNat, dom.width * (s.reg Reg.LEN).toNat, dom.width⟩]
      [⟨(s.reg Reg.DA).toNat, dom.width * (2 * firPairs f (s.reg Reg.LEN).toNat), dom.width⟩] := by
  rw [two_mul_firPairs h]
  exact ⟨.array s Reg.SA _ dom.width_pos, .array s Reg.DA _ dom.width_pos⟩

/-- The ranges a command checks are those of the elements it accesses. -/
theorem accessOf_hasRanges (i : Instr) (s : State) : (accessOf i s).HasRanges (srcRanges i s) (dstRanges i s) := by
  induction i using Instr.byFamily with
  | setl rd imm => exact Access.none_hasRanges
  | seth rd imm => exact Access.none_hasRanges
  | cvt i f conv h =>
    obtain ⟨hws, hwd⟩ := cvtForm_width_pos h.form
    obtain ⟨hsrc, hdst⟩ := ranges_of_cvtForm h.form s
    rw [h.access, hsrc, hdst]
    exact ⟨.arrays f.ls _ (s.reg_toNat_le _) (s.reg_toNat_le _) hws,
      .arrays f.ld _ (s.reg_toNat_le _) (s.reg_toNat_le _) hwd⟩
  | u12 =>
    by_cases hphase : carryPhase (s.reg Reg.CRY) = 3
    · simpa [accessOf_u12, srcRanges, dstRanges, cvtForm, hphase] using Access.none_hasRanges
    · simpa [accessOf_u12, srcRanges, dstRanges, cvtForm, hphase] using u12Access_hasRanges s
  | init dom c =>
    rw [accessOf_init, srcRanges_init, dstRanges_init]
    split
    · exact initAccess_hasRanges dom s
    · exact Access.none_hasRanges
  | work dom c =>
    rw [accessOf_work, srcRanges_work, dstRanges_work]
    split
    · next hpass => exact workAccess_hasRanges hpass
    · exact Access.none_hasRanges
  | free c => exact Access.none_hasRanges

/-- Settles O49: the rule guardAccess names fails for a range, hence for one of the elements the range is made of. -/
theorem stopsNameTheirCause : Obligations.StopsNameTheirCause := by
  unfold Obligations.StopsNameTheirCause
  intro i s
  rw [exec_eq_guard]
  obtain ⟨hsrc, hdst⟩ := accessOf_hasRanges i s
  constructor
  · intro r h
    obtain ⟨a, rfl, hole, q, hq, h1, h2⟩ := guardAccess_fault h
    refine ⟨a, rfl, hole, ?_⟩
    rcases List.mem_append.1 hq with hq | hq
    · exact .inl (hsrc.exists_elem hq h1 h2)
    · obtain ⟨e, he, hle, hlt⟩ := hdst.exists_elem hq h1 h2
      exact .inr fun hout => by have := hout e he; omega
  · intro r h
    rcases guardAccess_refused h with ⟨rfl, q, hq, hp⟩ | ⟨rfl, q, hq, hp⟩ | ⟨rfl, hover⟩
    · exact .inl ⟨rfl, (List.mem_append.1 hq).imp (hsrc.exists_pastEnd · hp) (hdst.exists_pastEnd · hp)⟩
    · exact .inr (.inl ⟨rfl, (List.mem_append.1 hq).imp (hsrc.exists_misaligned · hp) (hdst.exists_misaligned · hp)⟩)
    · refine .inr (.inr ⟨rfl, fun ⟨hapart, hself⟩ => ?_⟩)
      rw [hsrc.anyOverlap_eq_false hdst hapart hself] at hover
      exact Bool.false_ne_true hover

end Sys2Proof.Machine
end

section
/-! SUPPORT. The statements about command words (30_encoding R70 to R78): the encoder and the decoder are inverse, a row of
the opcode map matches exactly the words of its command, and the legal words are those of the commands. -/

namespace Sys2Proof.Machine

/-! ### The operand fields of an encoded word -/

/-- R72. -/
theorem encodeS_fields {op : Nat} (h : op < 256) (rd : Reg) (imm : BitVec 16) :
    wordBits (encodeS op rd imm) 23 1 = 0 ∧ wordBits (encodeS op rd imm) 20 3 = rd.val ∧
    wordBits (encodeS op rd imm) 16 4 = 0 ∧ wordBits (encodeS op rd imm) 0 16 = imm.toNat := by
  have hrd := rd.isLt
  have himm := imm.isLt
  have hlt : op * 2 ^ 24 + rd.val * 2 ^ 20 + imm.toNat < 2 ^ 32 := by omega
  simp only [encodeS, wordBits_ofNat hlt]
  omega

/-- R71. -/
theorem encodeO_fields {op : Nat} (h : op < 256) (c : CtxId) :
    wordBits (encodeO op c) 18 6 = 0 ∧ wordBits (encodeO op c) 16 2 = c.val ∧ wordBits (encodeO op c) 0 16 = 0 := by
  have hc := c.isLt
  have hlt : op * 2 ^ 24 + c.val * 2 ^ 16 < 2 ^ 32 := by omega
  simp only [encodeO, wordBits_ofNat hlt]
  omega

/-! ### Decoding an encoded word -/

theorem decodeS_encodeS (mk : Reg → BitVec 16 → Instr) {op : Nat} (h : op < 256) (rd : Reg) (imm : BitVec 16) :
    decodeS mk (encodeS op rd imm) = .ok (mk rd imm) := by
  obtain ⟨h23, hrd, h16, himm⟩ := encodeS_fields h rd imm
  simp [decodeS, h23, h16, hrd, himm]

theorem decodeCtx_encodeO (mk : CtxId → Instr) {op : Nat} (h : op < 256) (c : CtxId) :
    decodeCtx mk (encodeO op c) = .ok (mk c) := by
  obtain ⟨h18, hc, h0⟩ := encodeO_fields h c
  simp [decodeCtx, h18, h0, hc]

theorem decodeNoCtx_encodeO (i : Instr) {op : Nat} (h : op < 256) : decodeNoCtx i (encodeO op 0) = .ok i := by
  obtain ⟨h18, hc, h0⟩ := encodeO_fields h 0
  simp [decodeNoCtx, h18, h0, hc]

/-- Settles O1: the opcode byte selects the format, whose fields the encoder has placed where the decoder reads them. -/
theorem decodeOfEncodeIsTheCommand : Obligations.DecodeOfEncodeIsTheCommand := by
  unfold Obligations.DecodeOfEncodeIsTheCommand
  intro i
  cases i with
  | setl rd imm | seth rd imm =>
    simp (disch := decide) only [encode, decode, wordBits_opcode, Laws.opcodeByte_encodeS]
    exact decodeS_encodeS _ (by decide) rd imm
  | firInitF c | firInitX c | firWorkF c | firWorkX c | firFree c =>
    simp (disch := decide) only [encode, decode, wordBits_opcode, Laws.opcodeByte_encodeO]
    exact decodeCtx_encodeO _ (by decide) c
  | _ =>
    simp (disch := decide) only [encode, decode, wordBits_opcode, Laws.opcodeByte_encodeO]
    exact decodeNoCtx_encodeO _ (by decide)

/-! ### Encoding a decoded word -/

theorem decodeS_eq_ok {mk : Reg → BitVec 16 → Instr} {w : Word} {i : Instr} {op : Nat} (h : decodeS mk w = .ok i)
    (hop : wordBits w 24 8 = op) : ∃ rd imm, i = mk rd imm ∧ encodeS op rd imm = w := by
  have hlt := w.isLt
  unfold decodeS at h
  split at h
  · cases h
  · next hreserved =>
    refine ⟨_, _, (Except.ok.inj h).symm, BitVec.eq_of_toNat_eq ?_⟩
    simp only [wordBits, encodeS, BitVec.toNat_ofNat, Fin.val_ofNat] at hop hreserved ⊢
    omega

theorem decodeCtx_eq_ok {mk : CtxId → Instr} {w : Word} {i : Instr} {op : Nat} (h : decodeCtx mk w = .ok i)
    (hop : wordBits w 24 8 = op) : ∃ c, i = mk c ∧ encodeO op c = w := by
  have hlt := w.isLt
  unfold decodeCtx at h
  split at h
  · cases h
  · next hreserved =>
    refine ⟨_, (Except.ok.inj h).symm, BitVec.eq_of_toNat_eq ?_⟩
    simp only [wordBits, encodeO, BitVec.toNat_ofNat, Fin.val_ofNat] at hop hreserved ⊢
    omega

theorem decodeNoCtx_eq_ok {i j : Instr} {w : Word} {op : Nat} (h : decodeNoCtx j w = .ok i)
    (hop : wordBits w 24 8 = op) : i = j ∧ encodeO op 0 = w := by
  have hlt := w.isLt
  unfold decodeNoCtx at h
  split at h
  · cases h
  · next hreserved =>
    split at h
    · cases h
    · next hctx =>
      refine ⟨(Except.ok.inj h).symm, BitVec.eq_of_toNat_eq ?_⟩
      simp only [wordBits, encodeO, BitVec.toNat_ofNat, Fin.val_zero] at hop hreserved hctx ⊢
      omega

/-- Settles O2: in a word the decoder accepts, every bit is the opcode's, a field's, or 0. -/
theorem encodeOfDecodeIsTheWord : Obligations.EncodeOfDecodeIsTheWord := by
  unfold Obligations.EncodeOfDecodeIsTheWord
  intro w i h
  unfold decode at h
  split at h
  case h_1 hop | h_2 hop =>
    obtain ⟨rd, imm, rfl, rfl⟩ := decodeS_eq_ok h hop
    rfl
  case h_3 hop | h_4 hop | h_5 hop | h_6 hop | h_7 hop | h_8 hop | h_9 hop | h_10 hop | h_11 hop | h_12 hop | h_13 hop =>
    obtain ⟨rfl, rfl⟩ := decodeNoCtx_eq_ok h hop
    rfl
  case h_14 hop | h_15 hop | h_16 hop | h_17 hop | h_18 hop =>
    obtain ⟨c, rfl, rfl⟩ := decodeCtx_eq_ok h hop
    rfl
  case h_19 => cases h

/-! ### The rows of the opcode map -/

/-- On bits its mask covers, a word that matches a row agrees with the row's pattern. -/
theorem OpRow.and_eq_of_matchesWord {r : OpRow} {w m : Word} (h : r.matchesWord w = true) (hm : r.mask &&& m = m) :
    w &&& m = r.pattern &&& m := by
  rw [← beq_iff_eq.1 h, BitVec.and_assoc, hm]

/-- The opcode byte is a function of bits 31..24, which every mask of the opcode map covers. -/
theorem opcodeByte_and (w : Word) : opcodeByte (w &&& 0xFF000000) = opcodeByte w := by
  have hmask : (0xFF000000 : Word) >>> 24 = 0xFF#32 := by decide
  refine BitVec.eq_of_toNat_eq ?_
  rw [opcodeByte, opcodeByte, BitVec.ushiftRight_and_distrib, hmask, BitVec.toNat_and]
  refine (Nat.and_two_pow_sub_one_eq_mod _ 8).trans (Nat.mod_eq_of_lt ?_)
  simp only [BitVec.toNat_ushiftRight, Nat.shiftRight_eq_div_pow]
  omega

theorem OpRow.opcodeByte_of_matchesWord {r : OpRow} (hr : r ∈ opcodeMap) {w : Word} (h : r.matchesWord w = true) :
    opcodeByte w = opcodeByte r.pattern := by
  have hmask : ∀ q ∈ opcodeMap, q.mask &&& 0xFF000000 = 0xFF000000 := by decide
  rw [← opcodeByte_and w, OpRow.and_eq_of_matchesWord h (hmask r hr), opcodeByte_and]

/-- Settles O4: each row fixes the opcode byte, and no two rows have the same. -/
theorem opcodeRowsExclusive : Obligations.OpcodeRowsExclusive := by
  unfold Obligations.OpcodeRowsExclusive
  intro w r hr q hq hrw hqw
  have hinj : ∀ r ∈ opcodeMap, ∀ q ∈ opcodeMap, opcodeByte r.pattern = opcodeByte q.pattern → r = q := by decide
  exact hinj r hr q hq ((OpRow.opcodeByte_of_matchesWord hr hrw).symm.trans (OpRow.opcodeByte_of_matchesWord hq hqw))

theorem OpRow.eq_of_mnemonic_eq : ∀ r ∈ opcodeMap, ∀ q ∈ opcodeMap, r.mnemonic = q.mnemonic → r = q := by
  decide

theorem encodeS_and (op : Nat) (rd : Reg) (imm : BitVec 16) :
    encodeS op rd imm &&& 0xFF8F0000 = (BitVec.ofNat 16 (op * 2 ^ 8 + rd.val * 2 ^ 4) &&& 0xFF8F) ++ 0#16 := by
  have himm := imm.isLt
  have hsplit : encodeS op rd imm = BitVec.ofNat 16 (op * 2 ^ 8 + rd.val * 2 ^ 4) ++ imm := by
    refine BitVec.eq_of_toNat_eq ?_
    rw [BitVec.toNat_append, ← Nat.shiftLeft_add_eq_or_of_lt himm, Nat.shiftLeft_eq]
    simp only [encodeS, BitVec.toNat_ofNat]
    omega
  have hmask : (0xFF8F0000 : Word) = 0xFF8F#16 ++ 0#16 := by decide
  rw [hsplit, hmask, BitVec.and_append, BitVec.and_zero]
  rfl

/-- The word of a command matches the row of the command's mnemonic (R73). -/
theorem encode_matchesWord (i : Instr) :
    ∃ r ∈ opcodeMap, r.mnemonic = i.mnemonic ∧ r.matchesWord (encode i) = true := by
  cases i with
  | setl rd imm =>
    refine ⟨⟨"SETL", 0x01000000, 0xFF8F0000⟩, by decide, rfl, beq_iff_eq.2 ((encodeS_and 0x01 rd imm).trans ?_)⟩
    revert rd
    decide
  | seth rd imm =>
    refine ⟨⟨"SETH", 0x02000000, 0xFF8F0000⟩, by decide, rfl, beq_iff_eq.2 ((encodeS_and 0x02 rd imm).trans ?_)⟩
    revert rd
    decide
  | firInitF c | firInitX c | firWorkF c | firWorkX c | firFree c =>
    revert c
    decide
  | _ => decide

/-! ### The legal words -/

/-- A word that matches a row is legal: the row's mask covers every bit that the clauses of R75 look at. -/
theorem legalWord_of_matchesWord {r : OpRow} (hr : r ∈ opcodeMap) {w : Word} (h : r.matchesWord w = true) :
    legalWord w = true := by
  have hmasks : ∀ q ∈ opcodeMap, opcodeAssigned q.pattern = true ∧
      (if formatSOpcodes.contains (opcodeByte q.pattern) then
        q.mask &&& 0x008F0000 = 0x008F0000 ∧ q.pattern &&& 0x008F0000 = 0
      else q.mask &&& 0x00FCFFFF = 0x00FCFFFF ∧ q.pattern &&& 0x00FCFFFF = 0) ∧
      (noCtxOpcodes.contains (opcodeByte q.pattern) = true →
        q.mask &&& 0x00030000 = 0x00030000 ∧ q.pattern &&& 0x00030000 = 0) := by decide
  obtain ⟨hassigned, hreserved, hctx⟩ := hmasks r hr
  have hop := OpRow.opcodeByte_of_matchesWord hr h
  have hzero : ∀ m, r.mask &&& m = m ∧ r.pattern &&& m = 0 → w &&& m = 0 :=
    fun m hm => (OpRow.and_eq_of_matchesWord h hm.1).trans hm.2
  simp only [legalWord, Bool.and_eq_true]
  refine ⟨⟨?_, ?_⟩, ?_⟩
  · simpa only [opcodeAssigned, hop] using hassigned
  · rw [reservedBitsZero, hop]
    split at hreserved
    · next hS => rw [if_pos hS, hzero _ hreserved, beq_self_eq_true]
    · next hO => rw [if_neg hO, hzero _ hreserved, beq_self_eq_true]
  · rw [ctxFieldAllowed, hop]
    split
    · next hno => rw [hzero _ (hctx hno), beq_self_eq_true]
    · rfl

theorem legalWord_encode (i : Instr) : legalWord (encode i) = true := by
  obtain ⟨r, hr, -, hmatch⟩ := encode_matchesWord i
  exact legalWord_of_matchesWord hr hmatch

/-- R75: every word is one command or illegal. -/
theorem exists_decode_ok_iff (w : Word) : (∃ i, decode w = .ok i) ↔ legalWord w = true := by
  constructor
  · rintro ⟨i, h⟩
    rw [← encodeOfDecodeIsTheWord w i h]
    exact legalWord_encode i
  · intro hlegal
    cases h : decode w with
    | ok i => exact ⟨i, rfl⟩
    | error e => exact absurd hlegal (by simp [legalWord_of_decode_error h])

/-- R75: the decoder refuses exactly the illegal words. -/
theorem exists_decode_error {w : Word} (h : legalWord w = false) : ∃ e, decode w = .error e := by
  cases hd : decode w with
  | ok i => exact absurd ((exists_decode_ok_iff w).1 ⟨i, hd⟩) (by simp [h])
  | error e => exact ⟨e, rfl⟩

/-- Settles O3: the command a legal word decodes to encodes to that word, which matches the row of its mnemonic and no
other. -/
theorem decodeFollowsMatchAndMask : Obligations.DecodeFollowsMatchAndMask := by
  unfold Obligations.DecodeFollowsMatchAndMask
  refine fun w => ⟨fun r hr => ⟨fun h => ?_, ?_⟩, fun h => exists_decode_error (by simp [legalWord, h])⟩
  · obtain ⟨i, hi⟩ := (exists_decode_ok_iff w).2 (legalWord_of_matchesWord hr h)
    obtain ⟨q, hq, hmnemonic, hmatch⟩ := encode_matchesWord i
    rw [encodeOfDecodeIsTheWord w i hi] at hmatch
    obtain rfl := opcodeRowsExclusive w r hr q hq h hmatch
    exact ⟨i, hi, hmnemonic.symm⟩
  · rintro ⟨i, hi, hmnemonic⟩
    obtain ⟨q, hq, hqi, hmatch⟩ := encode_matchesWord i
    obtain rfl := OpRow.eq_of_mnemonic_eq q hq r hr (hqi.trans hmnemonic)
    rwa [encodeOfDecodeIsTheWord w i hi] at hmatch

theorem raiseFault_faultTaken (s : State) (k : Cause) (w : Word) : FaultTaken s (s.raiseFault k w) k.code w :=
  ⟨rfl, rfl, rfl, rfl, rfl, rfl, rfl, rfl, rfl, rfl⟩

theorem step_eq_illegal {s : State} {w : Word} {e : DecodeError} (hh : s.halt = false)
    (hw : s.program[s.cmdIndex]? = some w) (hd : decode w = .error e) : step s = .next (s.raiseFault .illegal w) := by
  simp [step, State.fetch, hh, hw, hd]

/-- Settles O5: the decoder refuses exactly the illegal words, and a step on a refused word is fault entry. -/
theorem illegalWordsFault : Obligations.IllegalWordsFault := by
  unfold Obligations.IllegalWordsFault
  refine fun w => ⟨exists_decode_ok_iff w, fun s hh hw hlegal => ?_⟩
  obtain ⟨e, he⟩ := exists_decode_error hlegal
  exact ⟨_, step_eq_illegal hh hw he, raiseFault_faultTaken s .illegal w⟩

/-- Settles O6: each of the eleven words is evaluated by the decoder. -/
theorem sampleWordsDecode : Obligations.SampleWordsDecode := by
  unfold Obligations.SampleWordsDecode
  decide

/-! ### The pseudo-instruction LI -/

/-- R91. -/
theorem sethValue_toNat (imm : BitVec 16) (v : Word) :
    (sethValue imm v).toNat = imm.toNat * 2 ^ 16 + v.toNat % 2 ^ 16 := by
  refine (BitVec.toNat_append imm (v.setWidth 16)).trans ?_
  rw [← Nat.shiftLeft_add_eq_or_of_lt (v.setWidth 16).isLt, Nat.shiftLeft_eq, BitVec.toNat_setWidth]

/-- SETH of the upper half on a register that holds the lower half (R78, R91). -/
theorem sethValue_halves (v : Word) : sethValue ((v >>> 16).setWidth 16) ((v.setWidth 16).setWidth 32) = v := by
  have hlt := v.isLt
  refine BitVec.eq_of_toNat_eq ?_
  simp only [sethValue_toNat, BitVec.toNat_setWidth, BitVec.toNat_ushiftRight, Nat.shiftRight_eq_div_pow]
  omega

/-- Settles O15: SETL leaves the lower half in rd, and SETH puts the upper half above it. -/
theorem loadImmediatePairLoadsConstant : Obligations.LoadImmediatePairLoadsConstant := by
  unfold Obligations.LoadImmediatePairLoadsConstant
  intro rd imm s
  refine ⟨_, _, rfl, ?_, ?_, _, _, rfl, rfl, ?_, ?_⟩
  · simp [wordBits]
  · simp [wordBits, Nat.shiftRight_eq_div_pow]
  · simp only [State.reg_finish, State.reg_setReg_same, sethValue_halves]
  · intro q hq
    have hne := List.ne_of_not_mem_cons hq
    simp only [State.reg_finish, State.reg_setReg_ne _ _ hne]

end Sys2Proof.Machine
end

section
/-! SUPPORT. What SETL and SETH leave alone, and the two halves of the value SETH gives. -/

namespace Sys2Proof.Machine

/-- R92: what a command that completes with one register set leaves alone. -/
theorem setReg_finish_frame (s : State) (r : Reg) (v : Word) :
    SameRegsBut [r] s (s.setReg r v).finish ∧ SameCtxBut [] s (s.setReg r v).finish ∧
    SameMem s (s.setReg r v).finish ∧ Completed s (s.setReg r v).finish :=
  ⟨.of_x_set rfl, fun _ _ => rfl, fun _ => rfl, rfl, rfl, rfl, rfl, rfl, rfl⟩

/-- R91: bits 31..16 of the value SETH gives. -/
theorem wordBits_sethValue_high (imm : BitVec 16) (v : Word) : wordBits (sethValue imm v) 16 16 = imm.toNat := by
  have hlt := imm.isLt
  rw [wordBits, sethValue_toNat]
  omega

/-- R91: bits 15..0 of the value SETH gives. -/
theorem wordBits_sethValue_low (imm : BitVec 16) (v : Word) : wordBits (sethValue imm v) 0 16 = wordBits v 0 16 := by
  rw [wordBits, wordBits, sethValue_toNat]
  omega

/-- Settles O13: the register is written with the extended immediate, whose value the extension keeps. -/
theorem setlLoadsZeroExtended : Obligations.SetlLoadsZeroExtended := by
  unfold Obligations.SetlLoadsZeroExtended
  intro rd imm s
  refine ⟨_, rfl, ?_, setReg_finish_frame s rd (imm.setWidth 32)⟩
  rw [State.reg_finish, State.reg_setReg_same, BitVec.toNat_setWidth_of_le (by decide)]

/-- Settles O14: the register is written with `sethValue`, whose halves are the immediate and the old lower half. -/
theorem sethSetsHighKeepsLow : Obligations.SethSetsHighKeepsLow := by
  unfold Obligations.SethSetsHighKeepsLow
  intro rd imm s
  refine ⟨_, rfl, ?_, ?_, setReg_finish_frame s rd (sethValue imm (s.reg rd))⟩
  · rw [State.reg_finish, State.reg_setReg_same, wordBits_sethValue_high]
  · rw [State.reg_finish, State.reg_setReg_same, wordBits_sethValue_low]

end Sys2Proof.Machine
end

section
/-! SUPPORT. The statements about the CVT commands over memory (41_conversion R101 to R107, R110 to R119): what a conversion
that completes has done is said once for all ten commands, and each family is a case of it. -/

namespace Sys2Proof.Machine

theorem IsConversion.exec_of_ok {i : Instr} {f : CvtForm} {conv : State → Nat → Word → Word} (hi : IsConversion i f conv)
    {s : State} (hok : (cvtAccess f s).Ok s.params) : exec i s = .next (resultOf i s) :=
  Machine.exec_of_ok (by rwa [hi.access])

/-- R107: all that a CVT command that completes has done. -/
theorem IsConversion.of_exec {i : Instr} {f : CvtForm} {conv : State → Nat → Word → Word} (hi : IsConversion i f conv)
    {s t : State} (hm : s.mem.wf = true) (h : exec i s = .next t) :
    Stored s.mem t.mem (cvtAccess f s) (fun e =>
      (conv s e (s.mem.readElem f.ws ((cvtAccess f s).src e))).toNat % 256 ^ f.wd) ∧
    SameRegsBut [] s t ∧ SameCtxBut [] s t ∧ Completed s t := by
  obtain ⟨rfl, hok⟩ := exec_eq_next h
  rw [hi.access] at hok
  rw [hi.result]
  exact ⟨cvtResult_stored hm hok conv, .of_x_eq rfl, fun _ _ => rfl, rfl, rfl, rfl, rfl, rfl, rfl⟩

/-- Settles O16: the four commands convert by `convToFloat`, whose result fills the four bytes of a destination element. -/
theorem fixedToFloatConverts : Obligations.FixedToFloatConverts := by
  unfold Obligations.FixedToFloatConverts
  intro i bits f hmem s hm hok
  obtain ⟨hi, hwd⟩ : IsConversion i f (convToFloat bits) ∧ f.wd = 4 := by
    simp only [List.mem_cons, Prod.mk.injEq, List.not_mem_nil, or_false] at hmem
    rcases hmem with ⟨rfl, rfl, rfl⟩ | ⟨rfl, rfl, rfl⟩ | ⟨rfl, rfl, rfl⟩ | ⟨rfl, rfl, rfl⟩ <;>
      exact ⟨⟨rfl, convToFloat_readsOperandsOnly _, fun _ => rfl, fun _ => rfl, rfl⟩, rfl⟩
  have hexec := hi.exec_of_ok hok
  obtain ⟨hstored, hframe⟩ := hi.of_exec hm hexec
  refine ⟨_, hexec, ⟨freeNaN s.freeTick, freeNaN_isNaN s.freeTick, hstored.congr fun e => ?_⟩, hframe⟩
  rw [hwd]
  exact Nat.mod_eq_of_lt (BitVec.isLt _)

/-- Settles O17: the four commands convert by `convToFixed`; the free word of an element stands for an unspecified f2i and
gives the pattern of a NaN product. -/
theorem floatToFixedConverts : Obligations.FloatToFixedConverts := by
  unfold Obligations.FloatToFixedConverts
  intro i f hmem s hm hok
  obtain ⟨hi, hws⟩ : IsConversion i f convToFixed ∧ f.ws = 4 := by
    simp only [List.mem_cons, Prod.mk.injEq, List.not_mem_nil, or_false] at hmem
    rcases hmem with ⟨rfl, rfl⟩ | ⟨rfl, rfl⟩ | ⟨rfl, rfl⟩ | ⟨rfl, rfl⟩ <;>
      exact ⟨⟨rfl, convToFixed_readsOperandsOnly, fun _ => rfl, fun _ => rfl, rfl⟩, rfl⟩
  have hexec := hi.exec_of_ok hok
  obtain ⟨hstored, hframe⟩ := hi.of_exec hm hexec
  refine ⟨_, hexec, ⟨freeNaN s.freeTick, Config.freeWord s.freeTick, freeNaN_isNaN s.freeTick,
    hstored.congr fun e => ?_⟩, hframe⟩
  rw [hws, pow_mul]
  rfl

/-! ### The reshuffles -/

theorem isConversion_of_reshuffle {i : Instr} {f : CvtForm}
    (hmem : (i, f) ∈ ([(.cvtI16PI16, ⟨2, 2, .planar, .interleaved⟩), (.cvtI16I16P, ⟨2, 2, .interleaved, .planar⟩)] :
      List (Instr × CvtForm))) : IsConversion i f convSame ∧ f.ws = 2 ∧ f.wd = 2 := by
  simp only [List.mem_cons, Prod.mk.injEq, List.not_mem_nil, or_false] at hmem
  rcases hmem with ⟨rfl, rfl⟩ | ⟨rfl, rfl⟩ <;>
    exact ⟨⟨rfl, convSame_readsOperandsOnly, fun _ => rfl, fun _ => rfl, rfl⟩, rfl, rfl⟩

/-- Settles O18: the reshuffles convert by `convSame`, and an element of two bytes is read and written whole. -/
theorem reshuffleMovesElements : Obligations.ReshuffleMovesElements := by
  unfold Obligations.ReshuffleMovesElements
  intro i f hmem s hm hok
  obtain ⟨hi, hws, hwd⟩ := isConversion_of_reshuffle hmem
  have hexec := hi.exec_of_ok hok
  obtain ⟨hstored, hframe⟩ := hi.of_exec hm hexec
  refine ⟨_, hexec, hstored.congr fun e => ?_, hframe⟩
  rw [hws, hwd, convSame, Memory.readElem_toNat _ _ _ (by decide), Nat.mod_eq_of_lt (Memory.readN_lt _ _ _)]

theorem exec_mem_wf {i : Instr} {s t : State} (hm : s.mem.wf = true) (h : exec i s = .next t) : t.mem.wf = true := by
  obtain ⟨rfl, -⟩ := exec_eq_next h
  obtain ⟨v, hv⟩ := resultOf_mem i s
  rw [hv]
  exact Memory.wf_writeElems hm _ _

theorem State.reg_setReg (s : State) (r q : Reg) (v : Word) : (s.setReg r v).reg q = if q = r then v else s.reg q := by
  split
  · next h => rw [h, State.reg_setReg_same]
  · next h => exact State.reg_setReg_ne s v h

/-- R105: what a reshuffle that completes has done, as ReshuffleMovesElements says it of the state it answers. -/
theorem reshuffle_of_exec {i : Instr} {f : CvtForm}
    (hmem : (i, f) ∈ ([(.cvtI16PI16, ⟨2, 2, .planar, .interleaved⟩), (.cvtI16I16P, ⟨2, 2, .interleaved, .planar⟩)] :
      List (Instr × CvtForm))) {s t : State} (h : exec i s = .next t) (hm : s.mem.wf = true) :
    Stored s.mem t.mem (cvtAccess f s) (fun e => s.mem.readN ((cvtAccess f s).src e) 2) ∧ SameRegsBut [] s t := by
  obtain ⟨-, hok⟩ := exec_eq_next h
  rw [(isConversion_of_reshuffle hmem).1.access] at hok
  obtain ⟨t', ht', hstored, hregs, -⟩ := reshuffleMovesElements i f hmem s hm hok
  obtain rfl : t' = t := by simpa [h] using ht'.symm
  exact ⟨hstored, hregs⟩

/-- Settles O19: element `e` goes to its place in the planes, which the way back reads as its element `e`. -/
theorem reshuffleThereAndBack : Obligations.ReshuffleThereAndBack := by
  unfold Obligations.ReshuffleThereAndBack
  intro s t u back hm hthere hback e he
  obtain ⟨⟨hplanes, -⟩, hregs⟩ := reshuffle_of_exec (.tail _ (.head _)) hthere hm
  obtain ⟨⟨hlast, -⟩, -⟩ := reshuffle_of_exec (.head _) hback (exec_mem_wf (t := t) hm hthere)
  have hlen : t.reg Reg.LEN = s.reg Reg.LEN := hregs _ List.not_mem_nil
  simp only [cvtAccess, State.reg_setReg, hlen] at hplanes hlast
  exact (hlast e he).trans (hplanes e he)

end Sys2Proof.Machine
end

section
/-! SUPPORT. The round trips between fixed point and float (41_conversion R120, R121): multiplying by a power of 2 only moves
the exponent, so a value of at most 24 significant bits that stays a whole number of smallest units is kept exactly. -/

namespace Sys2Proof.Machine

/-! ### Scaling by powers of 2 -/

theorem mul_two_pow_mul_two_pow (x : Int) {a b c : Nat} (h : a + b = c) : x * 2 ^ a * 2 ^ b = x * 2 ^ c := by
  rw [mul_assoc, ← pow_add, h]

theorem abs_mul_two_pow (x : Int) (k : Nat) : |x * 2 ^ k| = |x| * 2 ^ k := by
  rw [abs_mul, abs_of_pos (by positivity : (0 : Int) < 2 ^ k)]

/-! ### Powers of 2 as patterns -/

/-- The pattern of 2^p as an exponent step and a significand of one bit. -/
theorem pow2Pattern_eq_pack {p : Int} (hlo : -149 ≤ p) (hhi : p ≤ 127) :
    ∃ e q : Nat, pow2Pattern p = f32Pack false (e * 2 ^ 23 + q) ∧ q ≤ 2 ^ 23 ∧ (q = 2 ^ 23 ∨ e = 0) ∧ e ≤ 253 ∧
      q * 2 ^ e = 2 ^ (p + 149).toNat := by
  by_cases hp : -126 ≤ p
  · refine ⟨(p + 126).toNat, 2 ^ 23, ?_, le_refl _, .inl rfl, by omega, ?_⟩
    · have hstep : (127 + p).toNat = (p + 126).toNat + 1 := by omega
      rw [pow2Pattern, if_pos hp, hstep, Nat.add_one_mul]
      rfl
    · rw [← pow_add]
      congr 1
      omega
  · refine ⟨0, 2 ^ (p + 149).toNat, ?_, Nat.pow_le_pow_right (by decide) (by omega), .inr rfl, by decide, by ring⟩
    rw [pow2Pattern, if_neg hp, Nat.zero_mul, Nat.zero_add]
    rfl

theorem pow2Pattern_value {p : Int} (hlo : -149 ≤ p) (hhi : p ≤ 127) :
    f32IsFinite (pow2Pattern p) = true ∧ f32Units (pow2Pattern p) = 2 ^ (p + 149).toNat := by
  obtain ⟨e, q, heq, hq, hnorm, he, hval⟩ := pow2Pattern_eq_pack hlo hhi
  have hlt : e * 2 ^ 23 + q < f32InfMag := by
    rw [f32InfMag]
    omega
  have hmag : f32Mag (f32Pack false (e * 2 ^ 23 + q)) = q * 2 ^ e := f32Mag_pack (by omega) (by omega) hlt
  refine ⟨heq ▸ f32IsFinite_pack hlt, ?_⟩
  rw [heq, f32Units_pack (hlt.trans (by decide)), hmag, hval]
  simp [signedMag]

/-! ### Products with a power of 2 -/

/-- A value of at most 24 significant bits below 2^128 (2^277 units) is below the overflow threshold. -/
theorem mul_pow_lt_overflow {c j : Nat} (hc : c < 2 ^ 24) (h : c * 2 ^ j < 2 ^ 277) : c * 2 ^ j < (2 ^ 25 - 1) * 2 ^ 252 := by
  rcases Nat.lt_or_ge j 253 with hj | hj
  · calc c * 2 ^ j ≤ (2 ^ 24 - 1) * 2 ^ 252 := Nat.mul_le_mul (by omega) (Nat.pow_le_pow_right (by decide) (by omega))
      _ < _ := by norm_num
  · obtain ⟨d, rfl⟩ := Nat.exists_eq_add_of_le hj
    rw [show c * 2 ^ (253 + d) = c * 2 ^ d * 2 ^ 253 by ring] at h ⊢
    omega

/-- A product of finite values whose exact value has at most 24 significant bits, is a whole number of smallest units and
does not overflow is exact. -/
theorem fmul_exact (nan : Word) {a b : Word} (ha : f32IsFinite a = true) (hb : f32IsFinite b = true) {z : Int} {e : Nat}
    (hz : |z| < 2 ^ 24) (hexact : f32Units a * f32Units b = z * 2 ^ e * 2 ^ 149) (hlt : |z| * 2 ^ e < 2 ^ 277) :
    f32IsFinite (fmul nan a b) = true ∧ f32Units (fmul nan a b) = z * 2 ^ e := by
  have hc : z.natAbs < 2 ^ 24 := by zify; exact hz
  have hmag : f32Mag a * f32Mag b = z.natAbs * 2 ^ (e + 149) := by
    have := congrArg Int.natAbs hexact
    rw [f32Units_mul, natAbs_signedMag] at this
    simpa [Int.natAbs_mul, Int.natAbs_pow, pow_add, mul_assoc] using this
  have hfit : z.natAbs * 2 ^ e < (2 ^ 25 - 1) * 2 ^ 252 := mul_pow_lt_overflow hc (by zify; exact hlt)
  have hround : roundMag (z.natAbs * 2 ^ (e + 149)) 149 < f32InfMag := by
    refine roundMag_lt_inf ?_
    rw [pow_add, ← mul_assoc]
    exact Nat.mul_lt_mul_of_pos_right hfit (by positivity)
  have hunits := f32Units_roundMag_exact (f32ProductNeg a b) hc (Nat.le_add_left 149 e) hround
  rw [← hmag, ← f32Units_mul, hexact, hmag] at hunits
  rw [fmul_of_isFinite nan ha hb, hmag]
  exact ⟨f32IsFinite_pack hround, mul_right_cancel₀ (by positivity) hunits⟩

/-- Multiplying by 2^p moves the exponent from `e` to `e + p`. -/
theorem fmul_pow2Pattern (nan : Word) {a : Word} {z : Int} {e e' : Nat} {p : Int} (hlo : -149 ≤ p) (hhi : p ≤ 127)
    (ha : f32IsFinite a = true) (hunits : f32Units a = z * 2 ^ e) (he : (e' : Int) = e + p) (hz : |z| < 2 ^ 24)
    (hlt : |z| * 2 ^ e' < 2 ^ 277) :
    f32IsFinite (fmul nan a (pow2Pattern p)) = true ∧ f32Units (fmul nan a (pow2Pattern p)) = z * 2 ^ e' := by
  obtain ⟨hfin, hpow⟩ := pow2Pattern_value hlo hhi
  refine fmul_exact nan ha hfin hz ?_ hlt
  rw [hunits, hpow, mul_two_pow_mul_two_pow z rfl]
  exact (mul_two_pow_mul_two_pow z (by omega)).symm

/-! ### From fixed point to float -/

/-- The conversion of an integer with scale 2^p is exact (R103). -/
theorem fmul_i2f_pow2Pattern (nan : Word) {z : Int} {e : Nat} {p : Int} (hhi : p ≤ 127) (he : (e : Int) = 149 + p)
    (hz : |z| < 2 ^ 24) (hlt : |z| * 2 ^ e < 2 ^ 277) :
    f32IsFinite (fmul nan (i2f z) (pow2Pattern p)) = true ∧ f32Units (fmul nan (i2f z) (pow2Pattern p)) = z * 2 ^ e := by
  obtain ⟨hfin, hunits⟩ := integersConvertExactly z hz
  exact fmul_pow2Pattern nan (by omega) hhi hfin hunits he hz hlt

/-- The integer of an `n`-bit element is in the range of `n` bits (R8). -/
theorem sextLow_bounds (n : Nat) (raw : Word) : -2 ^ (n - 1) ≤ sextLow n raw ∧ sextLow n raw < 2 ^ (n - 1) :=
  ⟨BitVec.le_toInt _, BitVec.toInt_lt⟩

/-- A word whose value fits in `n` bits has that value in its low bits. -/
theorem setWidth_of_toInt_eq {n : Nat} (hn : n ≤ 32) {w : Word} {v : BitVec n} (h : w.toInt = v.toInt) :
    w.setWidth n = v := by
  have hw : w = v.signExtend 32 := BitVec.eq_of_toInt_eq (by rw [h, BitVec.toInt_signExtend_of_le hn])
  rw [hw]
  ext i hi
  rw [BitVec.getElem_setWidth, BitVec.getLsbD_signExtend, if_pos hi, decide_eq_true (by omega), Bool.true_and,
    BitVec.getLsbD_eq_getElem hi]

theorem sextLow_of_toInt {n : Nat} (hn : 0 < n ∧ n ≤ 32) {w : Word} (hlo : -2 ^ (n - 1) ≤ w.toInt)
    (hhi : w.toInt < 2 ^ (n - 1)) : sextLow n w = w.toInt := by
  have hval := BitVec.toInt_ofInt_eq_self hn.1 hlo hhi
  rw [sextLow, setWidth_of_toInt_eq hn.2 hval.symm, hval]

/-! ### From float to fixed point -/

/-- R14: a whole number is converted to itself under either rounding. -/
theorem f32ToInt_of_units {t : Word} {z : Int} (mode : F2IRound) (h : f32Units t = z * 2 ^ 149) : f32ToInt mode t = z := by
  have hmag : f32Mag t = z.natAbs * 2 ^ 149 := by
    have := congrArg Int.natAbs h
    rwa [f32Units_eq_signedMag, natAbs_signedMag, Int.natAbs_mul] at this
  have hq : f32ToInt mode t = signedMag (f32Neg t) z.natAbs := by
    cases mode with
    | towardZero => rw [f32ToInt, hmag, Nat.mul_div_cancel _ (by positivity)]; rfl
    | nearestEven => rw [f32ToInt, hmag, roundEven_mul]; rfl
  rw [f32Units_eq_signedMag, hmag, ← signedMag_mul_natCast, Nat.cast_pow, Nat.cast_ofNat] at h
  rw [hq, mul_right_cancel₀ (by positivity) h]

/-- Truncation goes toward zero, by less than the divisor. -/
theorem tdiv_mul_bounds (x : Int) {d : Int} (hd : 0 < d) :
    (0 ≤ x → 0 ≤ x.tdiv d * d ∧ x.tdiv d * d ≤ x ∧ x < x.tdiv d * d + d) ∧
    (x ≤ 0 → x.tdiv d * d - d < x ∧ x ≤ x.tdiv d * d ∧ x.tdiv d * d ≤ 0) := by
  have hpos : ∀ y : Int, 0 ≤ y → 0 ≤ y.tdiv d * d ∧ y.tdiv d * d ≤ y ∧ y < y.tdiv d * d + d := fun y hy => by
    have hsplit := Int.mul_tdiv_add_tmod y d
    have hnonneg := Int.tmod_nonneg d hy
    have hlt := Int.tmod_lt_of_pos y hd
    rw [mul_comm] at hsplit
    exact ⟨mul_nonneg (Int.tdiv_nonneg hy hd.le) hd.le, by omega, by omega⟩
  refine ⟨hpos x, fun hx => ?_⟩
  have := hpos (-x) (by omega)
  rw [Int.neg_tdiv, neg_mul] at this
  omega

theorem tdiv_eq_zero_of_abs_lt {x d : Int} (h : |x| < d) : x.tdiv d = 0 := by
  rw [abs_lt] at h
  rcases le_total 0 x with hx | hx
  · exact Int.tdiv_eq_zero_of_lt hx h.2
  · rw [← neg_neg x, Int.neg_tdiv, Int.tdiv_eq_zero_of_lt (by omega) (by omega), neg_zero]

/-- The rounded product of finite values is at most twice the exact one, because 0 is a binary32 value. -/
theorem abs_fmul_le (nan : Word) {a b : Word} (ha : f32IsFinite a = true) (hb : f32IsFinite b = true)
    (hlt : |f32Units a * f32Units b| < 2 ^ 424) :
    f32IsFinite (fmul nan a b) = true ∧ |f32Units (fmul nan a b) * 2 ^ 149| ≤ 2 * |f32Units a * f32Units b| := by
  obtain ⟨-, hinf, hnear⟩ := productCorrectlyRounded nan a b ha hb
  have hfin : f32IsInf (fmul nan a b) = false := by
    rw [← Bool.not_eq_true, hinf]
    omega
  obtain ⟨hfinite, hnearest⟩ := hnear hfin
  have hzero := (hnearest 0 (by decide)).1
  rw [show f32Units 0 = 0 by decide, zero_mul, zero_sub, abs_neg] at hzero
  refine ⟨hfinite, ?_⟩
  have := abs_add_le (f32Units (fmul nan a b) * 2 ^ 149 - f32Units a * f32Units b) (f32Units a * f32Units b)
  rw [sub_add_cancel] at this
  omega

theorem f32Units_eq_mul_pow (b : Word) : ∃ (z : Int) (e : Nat), f32Units b = z * 2 ^ e ∧ |z| < 2 ^ 24 := by
  obtain ⟨q, e, hmag, hq⟩ := f32Mag_eq_mul_pow b
  refine ⟨signedMag (f32Neg b) q, e, ?_, ?_⟩
  · rw [f32Units_eq_signedMag, hmag, ← signedMag_mul_natCast, Nat.cast_pow, Nat.cast_ofNat]
  · rw [abs_signedMag]
    exact_mod_cast hq

/-- The product with 2^p truncates to the exact product's truncation: it is exact, or it is so small that both are 0. -/
theorem f32ToInt_fmul_pow2Pattern (nan : Word) {a : Word} {p : Int} (hlo : -127 ≤ p) (hhi : p ≤ 127)
    (ha : f32IsFinite a = true) (hlt : |f32Units a * 2 ^ (p + 127).toNat| < 2 ^ 400) :
    f32IsFinite (fmul nan a (pow2Pattern p)) = true ∧
    f32ToInt .towardZero (fmul nan a (pow2Pattern p)) = (f32Units a * 2 ^ (p + 127).toNat).tdiv (2 ^ 276) := by
  obtain ⟨z, e, hunits, hz⟩ := f32Units_eq_mul_pow a
  rw [f32ToInt_towardZero]
  rw [hunits, mul_two_pow_mul_two_pow z rfl] at hlt ⊢
  rcases le_or_gt 0 ((e : Int) + p) with hexact | hsmall
  · rw [← mul_two_pow_mul_two_pow z (show (e + p).toNat + 127 = e + (p + 127).toNat by omega)] at hlt ⊢
    obtain ⟨hfin, hval⟩ := fmul_pow2Pattern nan (by omega) hhi ha hunits (e' := (e + p).toNat) (by omega) hz (by
      rw [abs_mul_two_pow, abs_mul_two_pow] at hlt
      omega)
    refine ⟨hfin, ?_⟩
    have hdiv : (2 ^ 276 : Int) = 2 ^ 149 * 2 ^ 127 := pow_add 2 149 127
    rw [hval, hdiv, Int.mul_tdiv_mul_of_pos_left _ _ (by positivity)]
  · have hx : |z * 2 ^ (e + (p + 127).toNat)| < 2 ^ 150 := by
      rw [abs_mul_two_pow]
      calc |z| * 2 ^ (e + (p + 127).toNat) < 2 ^ 24 * 2 ^ (e + (p + 127).toNat) :=
            mul_lt_mul_of_pos_right hz (by positivity)
        _ ≤ 2 ^ 24 * 2 ^ 126 := mul_le_mul_of_nonneg_left (pow_le_pow_right₀ (by norm_num) (by omega)) (by norm_num)
        _ = 2 ^ 150 := by norm_num
    obtain ⟨hpow, hpval⟩ := pow2Pattern_value (p := p) (by omega) hhi
    have hprod : f32Units a * f32Units (pow2Pattern p) = z * 2 ^ (e + (p + 127).toNat) * 2 ^ 22 := by
      rw [hunits, hpval, mul_two_pow_mul_two_pow z rfl]
      exact (mul_two_pow_mul_two_pow z (by omega)).symm
    have habs : |f32Units a * f32Units (pow2Pattern p)| < 2 ^ 172 := by
      rw [hprod, abs_mul_two_pow]
      omega
    obtain ⟨hfin, hle⟩ := abs_fmul_le nan ha hpow (by omega)
    refine ⟨hfin, ?_⟩
    rw [tdiv_eq_zero_of_abs_lt (x := z * _) (by omega), tdiv_eq_zero_of_abs_lt]
    rw [abs_mul_two_pow] at hle
    omega

/-- A float whose product with the scale 2^p lies in the range of `n` bits is converted to its truncation (R104). -/
theorem sextLow_floatToFixed (free : Word) {n : Nat} (hn : 0 < n ∧ n ≤ 32) {p : Int} (hlo : -127 ≤ p) (hhi : p ≤ 127)
    {f : Word} (hf : f32IsFinite f = true) (hmin : -2 ^ (n - 1) * 2 ^ 276 ≤ f32Units f * 2 ^ (p + 127).toNat)
    (hmax : f32Units f * 2 ^ (p + 127).toNat < 2 ^ (n - 1) * 2 ^ 276) :
    sextLow n (floatToFixed free .towardZero (pow2Pattern p) f) =
      (f32Units f * 2 ^ (p + 127).toNat).tdiv (2 ^ 276) := by
  have hhalf : (2 : Int) ^ (n - 1) ≤ 2 ^ 31 := pow_le_pow_right₀ (by norm_num) (by omega)
  obtain ⟨hfin, hint⟩ := f32ToInt_fmul_pow2Pattern (nanOfFree free) hlo hhi hf (by rw [abs_lt]; omega)
  obtain ⟨hpos, hneg⟩ := tdiv_mul_bounds (f32Units f * 2 ^ (p + 127).toNat) (d := 2 ^ 276) (by positivity)
  rw [← hint] at hpos hneg ⊢
  have hfixed := f2i_toInt (free := free) (mode := .towardZero) hfin (by omega) (by omega)
  rw [floatToFixed, ← hfixed]
  exact sextLow_of_toInt hn (by omega) (by omega)

/-! ### The statements -/

/-- Settles O25: both products are exact, so f2i meets the integer itself. -/
theorem fixedFloatFixedRoundTrip : Obligations.FixedFloatFixedRoundTrip := by
  unfold Obligations.FixedFloatFixedRoundTrip
  intro n p raw nan free mode hn hlo hhi
  have hbound : |sextLow n raw| ≤ 2 ^ 15 := by
    obtain ⟨h1, h2⟩ := sextLow_bounds n raw
    rcases hn with rfl | rfl <;> rw [abs_le] <;> omega
  have hfit : ∀ k, k ≤ 249 → |sextLow n raw| * 2 ^ k < 2 ^ 277 := fun k hk =>
    calc |sextLow n raw| * 2 ^ k ≤ 2 ^ 15 * 2 ^ 249 :=
          mul_le_mul hbound (pow_le_pow_right₀ (by norm_num) hk) (by positivity) (by norm_num)
      _ < 2 ^ 277 := by omega
  obtain ⟨hfin, hunits⟩ := fmul_i2f_pow2Pattern nan (z := sextLow n raw) (e := (149 + p).toNat) (p := p) (by omega)
    (by omega) (by omega) (hfit _ (by omega))
  obtain ⟨hfin', hunits'⟩ := fmul_pow2Pattern (nanOfFree free) (e' := 149) (p := -p) (by omega) (by omega) hfin hunits
    (by omega) (by omega) (hfit _ (by omega))
  have hint := f32ToInt_of_units mode hunits'
  rw [abs_le] at hbound
  refine setWidth_of_toInt_eq (by omega) ?_
  rw [floatToFixed, fixedToFloat, f2i_toInt hfin' (by omega) (by omega), hint, sextLow]

/-- Settles O26: the way to fixed point is the truncation of the exact product, and the way back is exact. -/
theorem floatFixedFloatRoundTrip : Obligations.FloatFixedFloatRoundTrip := by
  unfold Obligations.FloatFixedFloatRoundTrip
  intro n p f nan free hn hlo hhi hf hmin hmax
  have hhalf : (2 : Int) ^ (n - 1) ≤ 2 ^ 15 := by rcases hn with rfl | rfl <;> decide
  have hfixed := sextLow_floatToFixed free (by omega) hlo hhi hf hmin hmax
  obtain ⟨hpos, hneg⟩ := tdiv_mul_bounds (f32Units f * 2 ^ (p + 127).toNat) (d := 2 ^ 276) (by positivity)
  generalize (f32Units f * 2 ^ (p + 127).toNat).tdiv (2 ^ 276) = q at hfixed hpos hneg
  have hscale : ∀ y : Int, y * 2 ^ (149 - p).toNat * 2 ^ (p + 127).toNat = y * 2 ^ 276 := fun y =>
    mul_two_pow_mul_two_pow y (by omega)
  have hfit : |q| * 2 ^ (149 - p).toNat < 2 ^ 277 := by
    have hmag : |f32Units f| < 2 ^ 277 := by
      rw [f32Units_eq_signedMag, abs_signedMag]
      exact_mod_cast f32Mag_lt hf
    have hle : |q * 2 ^ 276| ≤ |f32Units f * 2 ^ (p + 127).toNat| := by
      rw [Int.abs_eq_natAbs, Int.abs_eq_natAbs]
      omega
    rw [← hscale, abs_mul_two_pow, abs_mul_two_pow, abs_mul_two_pow] at hle
    exact (le_of_mul_le_mul_right hle (by positivity)).trans_lt hmag
  obtain ⟨hback, hunits⟩ := fmul_i2f_pow2Pattern nan (z := q) (e := (149 - p).toNat) (p := -p) (by omega) (by omega)
    (by rw [abs_lt]; omega) hfit
  simp only [fixedToFloat, hfixed]
  refine ⟨hback, ?_⟩
  rw [hunits, ← abs_mul_two_pow, sub_mul, hscale, abs_lt]
  omega

end Sys2Proof.Machine
end

section
/-! SUPPORT. The statements about the unpacker U12.F32 (42_unpack12 R130 to R139): the value of a sample, the carry word
as a code for the bytes left over, and what a command that completes has done. -/

namespace Sys2Proof.Machine

/-! ### Samples -/

theorem u12Scale_eq_pow2Pattern : Config.u12Scale = pow2Pattern (-15) := by decide

theorem toInt_ofNat_twelve {a : Nat} (h : a < 2 ^ 12) : (BitVec.ofNat 12 a).toInt = sext12 a := by
  rw [BitVec.toInt_eq_toNat_cond, BitVec.toNat_ofNat, Nat.mod_eq_of_lt h, sext12]
  split <;> split <;> omega

/-- R132: a sample is its 12-bit integer divided by 32768, exactly, and zero is +0.0. -/
theorem u12Sample_value {a : Nat} (h : a < 2 ^ 12) :
    f32IsFinite (u12Sample a) = true ∧ f32Units (u12Sample a) = sext12 a * 2 ^ 134 ∧
    (sext12 a = 0 → u12Sample a = 0) := by
  have hbound : |sext12 a| ≤ 2 ^ 11 := by
    rw [sext12, abs_le]
    split <;> omega
  rw [u12Sample, toInt_ofNat_twelve h, u12Scale_eq_pow2Pattern]
  obtain ⟨hfin, hunits⟩ := fmul_i2f_pow2Pattern 0 (z := sext12 a) (e := 134) (p := -15) (by decide) (by decide)
    (by omega) (by omega)
  refine ⟨hfin, hunits, fun hzero => ?_⟩
  rw [hzero]
  decide

theorem tripletA_lt (b0 b1 : Byte) : tripletA b0 b1 < 2 ^ 12 := by
  rw [tripletA]
  omega

theorem tripletB_lt (b1 b2 : Byte) : tripletB b1 b2 < 2 ^ 12 := by
  rw [tripletB]
  omega

/-- R131: output sample `e` is that of a 12-bit pattern of value `u12Value s e`. -/
theorem unpackStream_u12Stream_getD {s : State} (h : carryPhase (s.reg Reg.CRY) ≠ 3) {e : Nat}
    (he : e < (u12Access s).nd) :
    ∃ a, a < 2 ^ 12 ∧ (unpackStream (u12Stream s)).1.getD e 0 = u12Sample a ∧ sext12 a = u12Value s e := by
  have hlen := length_u12Stream h
  have htriplet : e / 2 < (carryPhase (s.reg Reg.CRY) + (s.reg Reg.LEN).toNat) / 3 := Nat.div_lt_of_lt_mul he
  have hbyte : ∀ i, i < 3 → ((u12Stream s).getD (3 * (e / 2) + i) 0).toNat = u12Byte s (3 * (e / 2) + i) :=
    fun i hi => u12Stream_getD h (by omega)
  have hget := unpackStream_getElem (u12Stream s) e (by omega)
  rw [List.getD_eq_getElem?_getD, hget, Option.getD_some]
  refine ⟨_, ?_, rfl, ?_⟩
  · split
    · exact tripletA_lt _ _
    · exact tripletB_lt _ _
  · have h0 := hbyte 0 (by decide)
    have h1 := hbyte 1 (by decide)
    have h2 := hbyte 2 (by decide)
    simp only [Nat.add_zero] at h0
    simp only [u12Value, tripletA, tripletB, Nat.add_zero, ← h0, ← h1, ← h2]
    split <;> rfl

/-! ### The carry -/

theorem length_unpackStream_rest (l : List Byte) : (unpackStream l).2.length = l.length % 3 := by
  rw [unpackStream_rest, List.length_drop]
  omega

theorem carryWord_toNat {l : List Byte} (h : l.length < 3) : (carryWord l).toNat =
    if l.length = 0 then 0 else if l.length = 1 then 1 + 256 * (l.getD 0 0).toNat
    else 2 + 256 * (l.getD 0 0).toNat + 65536 * (l.getD 1 0).toNat := by
  match l with
  | [] => rfl
  | [a] => exact Nat.mod_eq_of_lt (show 1 + 256 * a.toNat < 2 ^ 32 by omega)
  | [a, b] => exact Nat.mod_eq_of_lt (show 2 + 256 * a.toNat + 65536 * b.toNat < 2 ^ 32 by omega)

/-- The canonical carry word codes the number of its bytes (R133). -/
theorem carryPhase_carryWord {l : List Byte} (h : l.length < 3) : carryPhase (carryWord l) = l.length := by
  rw [carryPhase, wordBits, carryWord_toNat h]
  split
  · omega
  · split <;> omega

theorem ofNat_wordBits_eq {c : Word} {k : Nat} {a : Byte} (h : c.toNat / 2 ^ k % 2 ^ 8 = a.toNat) :
    BitVec.ofNat 8 (wordBits c k 8) = a := by
  rw [wordBits, h, BitVec.ofNat_toNat, BitVec.setWidth_eq]

/-- The canonical carry word codes its bytes (R133). -/
theorem carryPending_carryWord {l : List Byte} (h : l.length < 3) : carryPending (carryWord l) = l := by
  rw [carryPending, carryPhase_carryWord h]
  match l with
  | [] => rfl
  | [a] =>
    have hnat : (carryWord [a]).toNat = 1 + 256 * a.toNat := carryWord_toNat h
    rw [ofNat_wordBits_eq (k := 8) (a := a) (by omega)]
    rfl
  | [a, b] =>
    have hnat : (carryWord [a, b]).toNat = 2 + 256 * a.toNat + 65536 * b.toNat := carryWord_toNat h
    rw [ofNat_wordBits_eq (k := 8) (a := a) (by omega), ofNat_wordBits_eq (k := 16) (a := b) (by omega)]
    rfl

/-- R134: the carry word of the bytes left over. -/
theorem carryWord_u12Stream {s : State} (h : carryPhase (s.reg Reg.CRY) ≠ 3) :
    (carryWord (unpackStream (u12Stream s)).2).toNat = u12CarryOut s := by
  have hlen := length_u12Stream h
  have hrest := length_unpackStream_rest (u12Stream s)
  have hbyte : ∀ i, i < (u12Stream s).length % 3 →
      ((unpackStream (u12Stream s)).2.getD i 0).toNat = u12Byte s (3 * ((u12Stream s).length / 3) + i) := fun i hi => by
    rw [unpackStream_rest, List.getD_eq_getElem?_getD, List.getElem?_drop, ← List.getD_eq_getElem?_getD,
      u12Stream_getD h (by omega)]
  rw [carryWord_toNat (by omega), u12CarryOut, hrest, ← hlen]
  split
  · rfl
  · split
    · rw [hbyte 0 (by omega), Nat.add_zero]
    · rw [hbyte 0 (by omega), hbyte 1 (by omega), Nat.add_zero]

/-! ### What a command that completes has done -/

theorem exec_u12_eq_next_iff {s t : State} (h : carryPhase (s.reg Reg.CRY) ≠ 3) :
    exec .u12F32 s = .next t ↔ t = u12Result s ∧ (u12Access s).Ok s.params := by
  rw [exec_eq_guard, guardAccess_eq_next_iff, rangesOk_iff, resultOf_u12, if_neg h, accessOf_u12, if_neg h]

theorem u12Result_mem (s : State) : (u12Result s).mem =
    s.mem.writeElems 4 (layElems (s.reg Reg.DA).toNat 4 (unpackStream (u12Stream s)).1) := rfl

theorem u12Result_reg_CRY (s : State) : (u12Result s).reg Reg.CRY = carryWord (unpackStream (u12Stream s)).2 := by
  rw [u12Result, State.reg_finish, State.reg_setReg_same]

theorem u12Result_reg_ne (s : State) {r : Reg} (h : r ≠ Reg.CRY) : (u12Result s).reg r = s.reg r := by
  rw [u12Result, State.reg_finish, State.reg_setReg_ne _ _ h]
  rfl

/-- R134, R136: all that a U12.F32 with a valid PHASE that completes has done. -/
theorem u12_of_exec {s t : State} (hm : s.mem.wf = true) (hphase : carryPhase (s.reg Reg.CRY) ≠ 3)
    (h : exec .u12F32 s = .next t) :
    Stored s.mem t.mem (u12Access s) (fun e => ((unpackStream (u12Stream s)).1.getD e 0).toNat) ∧
    t.reg Reg.CRY = carryWord (unpackStream (u12Stream s)).2 ∧
    SameRegsBut [Reg.CRY] s t ∧ SameCtxBut [] s t ∧ Completed s t := by
  obtain ⟨rfl, hok⟩ := (exec_u12_eq_next_iff hphase).1 h
  have hstored := Access.stored_elems hok hm fun e => (unpackStream (u12Stream s)).1.getD e 0
  rw [← layElems_u12 hphase] at hstored
  refine ⟨hstored.congr fun e => ?_, u12Result_reg_CRY s, fun r hr => u12Result_reg_ne s (List.ne_of_not_mem_cons hr),
    fun _ _ => rfl, rfl, rfl, rfl, rfl, rfl, rfl⟩
  exact Nat.mod_eq_of_lt (BitVec.isLt _)

/-- Settles O27: the samples and the carry of the logical stream, byte by byte. -/
theorem unpackerDecodesTriplets : Obligations.UnpackerDecodesTriplets := by
  unfold Obligations.UnpackerDecodesTriplets
  intro s hm hphase hok
  have hexec := (exec_u12_eq_next_iff hphase).2 ⟨rfl, hok⟩
  obtain ⟨hstored, hcry, hframe⟩ := u12_of_exec hm hphase hexec
  refine ⟨_, hexec, ⟨_, hstored, fun e he => ?_⟩, ?_, hframe⟩
  · obtain ⟨a, ha, hsample, hvalue⟩ := unpackStream_u12Stream_getD hphase he
    rw [hsample, ← hvalue]
    exact u12Sample_value ha
  · rw [hcry, carryWord_u12Stream hphase]

/-- Settles O28: PHASE = 3 is decided before any access, and the canonical carry word of 0, 1 or 2 bytes has their
number as its PHASE. -/
theorem invalidPhaseFaults : Obligations.InvalidPhaseFaults := by
  unfold Obligations.InvalidPhaseFaults
  refine fun s => ⟨fun hphase => ?_, fun hphase t h => ?_⟩
  · exact ⟨_, if_pos hphase, raiseFault_faultTaken s .badPhase (encode .u12F32)⟩
  · obtain ⟨rfl, -⟩ := (exec_u12_eq_next_iff hphase).1 h
    have hrest := length_unpackStream_rest (u12Stream s)
    rw [u12Result_reg_CRY, carryPhase_carryWord (by omega)]
    omega

/-- Settles O30: the logical streams are equal, and the samples and the carry are functions of the stream. -/
theorem unpackerHasNoHiddenState : Obligations.UnpackerHasNoHiddenState := by
  unfold Obligations.UnpackerHasNoHiddenState
  intro s s' t t' hm hm' hphase hcry hlen hsrc h h'
  have hstream : u12Stream s' = u12Stream s := by
    rw [u12Stream, u12Stream, hcry, hlen]
    exact congrArg _ (List.map_congr_left fun j hj => hsrc j (List.mem_range.1 hj))
  have hnd : (u12Access s').nd = (u12Access s).nd := by simp only [u12Access, hcry, hlen]
  obtain ⟨⟨hval, -⟩, hcarry, hregs, hctx, -⟩ := u12_of_exec hm hphase h
  obtain ⟨⟨hval', -⟩, hcarry', -⟩ := u12_of_exec hm' (hcry ▸ hphase) h'
  refine ⟨by rw [hcarry, hcarry', hstream], hregs, hctx, hnd, fun e he => ?_⟩
  have hsample := hval' e (hnd ▸ he)
  rw [hstream] at hsample
  exact hsample.trans (hval e he).symm

end Sys2Proof.Machine
end

section
/-! SUPPORT. A packed stream cut into pieces (42_unpack12 R138): two commands in a row do what one command over both
their bytes does, and any number of pieces is that again and again. -/

namespace Sys2Proof.Machine

/-! ### Streams and elements in two parts -/

/-- Unpacking goes on from the bytes left over (R134, R138). -/
theorem unpackStream_append (l r : List Byte) :
    unpackStream (l ++ r) =
      ((unpackStream l).1 ++ (unpackStream ((unpackStream l).2 ++ r)).1,
        (unpackStream ((unpackStream l).2 ++ r)).2) := by
  fun_induction unpackStream l with
  | case1 b0 b1 b2 rest out ih => simp only [List.cons_append, unpackStream, ih, out]
  | case2 rest _ => rw [List.nil_append]

theorem Memory.bytes_add (m : Memory) (a n k : Nat) : m.bytes a (n + k) = m.bytes a n ++ m.bytes (a + n) k := by
  simp only [Memory.bytes, List.range_add, List.map_append, List.map_map, Function.comp_def, Nat.add_assoc]

theorem layElems_append (a w : Nat) (vs ws : List Word) :
    layElems a w (vs ++ ws) = layElems a w vs ++ layElems (a + w * vs.length) w ws := by
  simp only [layElems, List.mapIdx_append, Nat.mul_add, Nat.add_assoc, Nat.add_comm (w * vs.length)]

theorem Memory.writeElems_append (m : Memory) (w : Nat) (es fs : List (Nat × Word)) :
    m.writeElems w (es ++ fs) = (m.writeElems w es).writeElems w fs :=
  List.foldl_append

/-- `y` reads elements of `x` from number `i` on, and writes elements of `x` from number `j` on. -/
structure Access.IsWindow (x y : Access) (i j : Nat) : Prop where
  ws : y.ws = x.ws
  wd : y.wd = x.wd
  src : ∀ e, e < y.ns → i + e < x.ns ∧ y.src e = x.src (i + e)
  dst : ∀ e, e < y.nd → j + e < x.nd ∧ y.dst e = x.dst (j + e)

theorem Access.IsWindow.ok {x y : Access} {i j : Nat} (h : x.IsWindow y i j) {p : Params} (hok : x.Ok p) : y.Ok p := by
  obtain ⟨hsrc, hdst, hapart, hpair⟩ := hok
  refine ⟨fun e he => ?_, fun e he => ?_, fun e he f hf => ?_, fun e he f hf hef => ?_⟩
  · rw [h.ws, (h.src e he).2]
    exact hsrc _ (h.src e he).1
  · rw [h.wd, (h.dst e he).2]
    exact hdst _ (h.dst e he).1
  · rw [h.ws, h.wd, (h.dst e he).2, (h.src f hf).2]
    exact hapart _ (h.dst e he).1 _ (h.src f hf).1
  · rw [h.wd, (h.dst e he).2, (h.dst f hf).2]
    exact hpair _ (h.dst e he).1 _ (h.dst f hf).1 (by omega)

theorem Access.IsWindow.outside {x y : Access} {i j : Nat} (h : x.IsWindow y i j) {a : Nat} (ha : x.Outside a) :
    y.Outside a := fun e he => by
  obtain ⟨hindex, hdst⟩ := h.dst e he
  rw [hdst, h.wd]
  exact ha _ hindex

/-- R56: a byte a command reads lies in no element it writes. -/
theorem Access.outside_of_reads {x : Access} {p : Params} (hok : x.Ok p) {a : Nat} (ha : x.Reads a) : x.Outside a := by
  obtain ⟨-, -, hapart, -⟩ := hok
  obtain ⟨f, hf, hlo, hhi⟩ := ha
  intro e he
  rcases hapart e he f hf with hbefore | hafter
  · exact .inr (hbefore.trans hlo)
  · exact .inl (hhi.trans_le hafter)

/-! ### One piece -/

/-- The state the host hands to U12.F32 for a piece of `n` bytes. -/
def State.withLen (s : State) (n : Nat) : State := s.setReg Reg.LEN (BitVec.ofNat 32 n)

/-- The state after a piece of `n` bytes, with SA and DA advanced (R136 d). -/
def State.afterPiece (s : State) (n : Nat) : State :=
  ((u12Result (s.withLen n)).setReg Reg.SA (s.reg Reg.SA + BitVec.ofNat 32 n)).setReg Reg.DA
    (s.reg Reg.DA + BitVec.ofNat 32 (8 * ((carryPhase (s.reg Reg.CRY) + n) / 3)))

@[simp] theorem State.withLen_reg_CRY (s : State) (n : Nat) : (s.withLen n).reg Reg.CRY = s.reg Reg.CRY :=
  State.reg_setReg_ne s _ (by decide)

@[simp] theorem State.withLen_reg_SA (s : State) (n : Nat) : (s.withLen n).reg Reg.SA = s.reg Reg.SA :=
  State.reg_setReg_ne s _ (by decide)

@[simp] theorem State.withLen_reg_DA (s : State) (n : Nat) : (s.withLen n).reg Reg.DA = s.reg Reg.DA :=
  State.reg_setReg_ne s _ (by decide)

@[simp] theorem State.withLen_mem (s : State) (n : Nat) : (s.withLen n).mem = s.mem := rfl

theorem State.withLen_reg_LEN (s : State) {n : Nat} (h : n < 2 ^ 32) : ((s.withLen n).reg Reg.LEN).toNat = n := by
  rw [State.withLen, State.reg_setReg_same, BitVec.toNat_ofNat, Nat.mod_eq_of_lt h]

theorem State.withLen_toNat (s : State) : s.withLen (s.reg Reg.LEN).toNat = s := by
  rw [State.withLen, BitVec.ofNat_toNat, BitVec.setWidth_eq]
  simp [State.setReg, State.reg]

theorem u12Access_withLen (s : State) {n : Nat} (h : n < 2 ^ 32) : u12Access (s.withLen n) =
    ⟨n, 1, fun e => (s.reg Reg.SA).toNat + e, 2 * ((carryPhase (s.reg Reg.CRY) + n) / 3), 4,
      fun e => (s.reg Reg.DA).toNat + 4 * e⟩ := by
  simp only [u12Access, s.withLen_reg_LEN h, State.withLen_reg_CRY, State.withLen_reg_SA, State.withLen_reg_DA]

theorem u12Stream_withLen (s : State) {n : Nat} (h : n < 2 ^ 32) :
    u12Stream (s.withLen n) = carryPending (s.reg Reg.CRY) ++ s.mem.bytes (s.reg Reg.SA).toNat n := by
  rw [u12Stream, s.withLen_reg_LEN h, State.withLen_reg_CRY, State.withLen_reg_SA, State.withLen_mem]

theorem length_u12Stream_withLen {s : State} {n : Nat} (hphase : carryPhase (s.reg Reg.CRY) ≠ 3) (h : n < 2 ^ 32) :
    (u12Stream (s.withLen n)).length = carryPhase (s.reg Reg.CRY) + n := by
  rw [length_u12Stream (by rwa [State.withLen_reg_CRY]), State.withLen_reg_CRY, s.withLen_reg_LEN h]

theorem length_samples_withLen {s : State} {n : Nat} (hphase : carryPhase (s.reg Reg.CRY) ≠ 3) (h : n < 2 ^ 32) :
    (unpackStream (u12Stream (s.withLen n))).1.length = 2 * ((carryPhase (s.reg Reg.CRY) + n) / 3) := by
  rw [length_unpackStream, length_u12Stream_withLen hphase h]

theorem length_rest_withLen {s : State} {n : Nat} (hphase : carryPhase (s.reg Reg.CRY) ≠ 3) (h : n < 2 ^ 32) :
    (unpackStream (u12Stream (s.withLen n))).2.length = (carryPhase (s.reg Reg.CRY) + n) % 3 := by
  rw [length_unpackStream_rest, length_u12Stream_withLen hphase h]

theorem afterPiece_reg_CRY (s : State) (n : Nat) :
    (s.afterPiece n).reg Reg.CRY = carryWord (unpackStream (u12Stream (s.withLen n))).2 := by
  rw [State.afterPiece, State.reg_setReg_ne _ _ (by decide), State.reg_setReg_ne _ _ (by decide), u12Result_reg_CRY]

theorem afterPiece_reg_SA (s : State) (n : Nat) :
    (s.afterPiece n).reg Reg.SA = s.reg Reg.SA + BitVec.ofNat 32 n := by
  rw [State.afterPiece, State.reg_setReg_ne _ _ (by decide), State.reg_setReg_same]

theorem afterPiece_reg_DA (s : State) (n : Nat) :
    (s.afterPiece n).reg Reg.DA =
      s.reg Reg.DA + BitVec.ofNat 32 (8 * ((carryPhase (s.reg Reg.CRY) + n) / 3)) := by
  rw [State.afterPiece, State.reg_setReg_same]

theorem afterPiece_mem (s : State) (n : Nat) : (s.afterPiece n).mem = (u12Result (s.withLen n)).mem := rfl

/-- R138: a piece that is accessible runs, and the rest goes on from the state it leaves. -/
theorem unpackPieces_cons {s : State} {n : Nat} (pieces : List Nat) (hphase : carryPhase (s.reg Reg.CRY) ≠ 3)
    (hok : (u12Access (s.withLen n)).Ok s.params) :
    unpackPieces (n :: pieces) s = unpackPieces pieces (s.afterPiece n) := by
  have hexec := (exec_u12_eq_next_iff (by rwa [State.withLen_reg_CRY])).2 ⟨rfl, hok⟩
  rw [State.withLen] at hexec
  rw [unpackPieces, hexec]
  rfl

/-! ### Two pieces -/

section TwoPieces

variable {s : State} {n k : Nat} (hphase : carryPhase (s.reg Reg.CRY) ≠ 3) (hlt : n + k < 2 ^ 32)
  (hok : (u12Access (s.withLen (n + k))).Ok s.params)

include hphase hlt in
/-- R134: PHASE after a piece. -/
theorem carryPhase_afterPiece :
    carryPhase ((s.afterPiece n).reg Reg.CRY) = (carryPhase (s.reg Reg.CRY) + n) % 3 := by
  have hlen := length_rest_withLen hphase (n := n) (by omega)
  rw [afterPiece_reg_CRY, carryPhase_carryWord (by omega), hlen]

include hlt hok in
theorem afterPiece_SA_toNat (hk : 0 < k) : ((s.afterPiece n).reg Reg.SA).toNat = (s.reg Reg.SA).toNat + n := by
  rw [u12Access_withLen s hlt] at hok
  obtain ⟨hsrc, -⟩ := hok
  obtain ⟨-, hend, -⟩ := hsrc n (Nat.lt_add_of_pos_right hk)
  dsimp only at hend
  rw [afterPiece_reg_SA, BitVec.toNat_add, BitVec.toNat_ofNat]
  omega

include hlt hok in
theorem afterPiece_DA_toNat
    (hpairs : (carryPhase (s.reg Reg.CRY) + n) / 3 < (carryPhase (s.reg Reg.CRY) + (n + k)) / 3) :
    ((s.afterPiece n).reg Reg.DA).toNat = (s.reg Reg.DA).toNat + 8 * ((carryPhase (s.reg Reg.CRY) + n) / 3) := by
  rw [u12Access_withLen s hlt] at hok
  obtain ⟨-, hdst, -⟩ := hok
  obtain ⟨-, hend, -⟩ := hdst _ (Nat.mul_lt_mul_of_pos_left hpairs two_pos)
  dsimp only at hend
  rw [afterPiece_reg_DA, BitVec.toNat_add, BitVec.toNat_ofNat]
  omega

include hlt in
theorem isWindow_first : (u12Access (s.withLen (n + k))).IsWindow (u12Access (s.withLen n)) 0 0 := by
  rw [u12Access_withLen s hlt, u12Access_withLen s (by omega)]
  refine ⟨rfl, rfl, fun e he => ⟨?_, ?_⟩, fun e he => ⟨?_, ?_⟩⟩ <;> dsimp only at he ⊢ <;> omega

include hphase hlt hok in
theorem isWindow_second :
    (u12Access (s.withLen (n + k))).IsWindow (u12Access ((s.afterPiece n).withLen k)) n
      (2 * ((carryPhase (s.reg Reg.CRY) + n) / 3)) := by
  have hsa := afterPiece_SA_toNat hlt hok
  have hda := afterPiece_DA_toNat hlt hok
  have hnext := carryPhase_afterPiece hphase hlt
  rw [u12Access_withLen s hlt, u12Access_withLen _ (by omega), hnext]
  refine ⟨rfl, rfl, fun e he => ⟨?_, ?_⟩, fun e he => ⟨?_, ?_⟩⟩ <;> dsimp only at he ⊢
  · omega
  · rw [hsa (by omega), Nat.add_assoc]
  · omega
  · rw [hda (by omega)]
    omega

include hphase hlt hok in
/-- R136: the first piece leaves the source bytes of the second as they were. -/
theorem afterPiece_bytes (hm : s.mem.wf = true) :
    (s.afterPiece n).mem.bytes ((s.afterPiece n).reg Reg.SA).toNat k = s.mem.bytes ((s.reg Reg.SA).toNat + n) k := by
  have hfirst : (u12Access (s.withLen (n + k))).IsWindow (u12Access (s.withLen n)) 0 0 := isWindow_first hlt
  rw [← s.withLen_reg_CRY n] at hphase
  have hexec := (exec_u12_eq_next_iff hphase).2 ⟨rfl, hfirst.ok hok⟩
  obtain ⟨⟨-, hframe⟩, -⟩ := u12_of_exec (s := s.withLen n) hm hphase hexec
  refine List.map_congr_left fun j hj => ?_
  have hj := List.mem_range.1 hj
  rw [afterPiece_SA_toNat hlt hok (by omega)]
  have hreads : (u12Access (s.withLen (n + k))).Reads ((s.reg Reg.SA).toNat + n + j) := by
    rw [u12Access_withLen s hlt]
    refine ⟨n + j, Nat.add_lt_add_left hj n, ?_, ?_⟩ <;> dsimp only <;> omega
  exact hframe _ (hfirst.outside (Access.outside_of_reads hok hreads))

include hphase hlt hok in
/-- The second piece takes the bytes the first left over, then its own (R133, R138). -/
theorem u12Stream_second (hm : s.mem.wf = true) :
    u12Stream ((s.afterPiece n).withLen k) =
      (unpackStream (u12Stream (s.withLen n))).2 ++ s.mem.bytes ((s.reg Reg.SA).toNat + n) k := by
  have hlen := length_rest_withLen hphase (n := n) (by omega)
  rw [u12Stream_withLen _ (by omega), afterPiece_reg_CRY, carryPending_carryWord (by omega),
    afterPiece_bytes hphase hlt hok hm]

include hphase hlt hok in
/-- The second piece lays its samples after those of the first (R136). -/
theorem layElems_second :
    layElems ((s.afterPiece n).reg Reg.DA).toNat 4 (unpackStream (u12Stream ((s.afterPiece n).withLen k))).1 =
      layElems ((s.reg Reg.DA).toNat + 4 * (unpackStream (u12Stream (s.withLen n))).1.length) 4
        (unpackStream (u12Stream ((s.afterPiece n).withLen k))).1 := by
  have hnext := carryPhase_afterPiece hphase hlt
  rw [length_samples_withLen hphase (by omega)]
  by_cases hpairs : (carryPhase (s.reg Reg.CRY) + n) / 3 < (carryPhase (s.reg Reg.CRY) + (n + k)) / 3
  · rw [afterPiece_DA_toNat hlt hok hpairs, ← Nat.mul_assoc]
  · have hnone : (unpackStream (u12Stream ((s.afterPiece n).withLen k))).1 = [] :=
      List.eq_nil_of_length_eq_zero (by rw [length_samples_withLen (by omega) (by omega)]; omega)
    rw [hnone]
    rfl

include hphase hlt hok in
/-- R138: a piece and the rest leave what one command over both leaves. -/
theorem u12Result_second (hm : s.mem.wf = true) :
    (u12Result ((s.afterPiece n).withLen k)).mem = (u12Result (s.withLen (n + k))).mem ∧
    (u12Result ((s.afterPiece n).withLen k)).reg Reg.CRY = (u12Result (s.withLen (n + k))).reg Reg.CRY := by
  have hunpack : unpackStream (u12Stream (s.withLen (n + k))) =
      ((unpackStream (u12Stream (s.withLen n))).1 ++ (unpackStream (u12Stream ((s.afterPiece n).withLen k))).1,
        (unpackStream (u12Stream ((s.afterPiece n).withLen k))).2) := by
    rw [u12Stream_second hphase hlt hok hm, ← unpackStream_append, u12Stream_withLen s hlt,
      u12Stream_withLen s (by omega), Memory.bytes_add, List.append_assoc]
  constructor
  · rw [u12Result_mem, u12Result_mem, hunpack, layElems_append, Memory.writeElems_append, State.withLen_reg_DA,
      State.withLen_reg_DA, layElems_second hphase hlt hok, State.withLen_mem, State.withLen_mem, afterPiece_mem,
      u12Result_mem, State.withLen_reg_DA, State.withLen_mem]
  · rw [u12Result_reg_CRY, u12Result_reg_CRY, hunpack]

end TwoPieces

/-! ### Any number of pieces -/

theorem afterPiece_mem_wf {s : State} (hm : s.mem.wf = true) (n : Nat) : (s.afterPiece n).mem.wf = true :=
  Memory.wf_writeElems hm _ _

/-- R138: the pieces leave what one command over all their bytes leaves. -/
theorem unpackPieces_eq_u12Result {pieces : List Nat} (hne : pieces ≠ []) {s : State} (hm : s.mem.wf = true)
    (hphase : carryPhase (s.reg Reg.CRY) ≠ 3) (hlt : pieces.sum < 2 ^ 32)
    (hok : (u12Access (s.withLen pieces.sum)).Ok s.params) :
    ∃ u, unpackPieces pieces s = some u ∧ u.mem = (u12Result (s.withLen pieces.sum)).mem ∧
      u.reg Reg.CRY = (u12Result (s.withLen pieces.sum)).reg Reg.CRY := by
  induction pieces generalizing s with
  | nil => exact absurd rfl hne
  | cons n rest ih =>
    rw [List.sum_cons] at hlt hok ⊢
    rw [unpackPieces_cons rest hphase ((isWindow_first hlt).ok hok)]
    obtain rfl | hrest := eq_or_ne rest []
    · exact ⟨_, rfl, afterPiece_mem s n, by rw [afterPiece_reg_CRY, u12Result_reg_CRY]; rfl⟩
    · have hnext := carryPhase_afterPiece hphase hlt
      obtain ⟨hmem, hcry⟩ := u12Result_second hphase hlt hok hm
      obtain ⟨u, hu, hmem', hcry'⟩ := ih hrest (afterPiece_mem_wf hm n) (by omega) (by omega)
        ((isWindow_second hphase hlt hok).ok hok)
      exact ⟨u, hu, hmem'.trans hmem, hcry'.trans hcry⟩

/-- Settles O29: by induction on the pieces, the first piece and the rest being two parts of one command. -/
theorem unpackerSplitInvariance : Obligations.UnpackerSplitInvariance := by
  unfold Obligations.UnpackerSplitInvariance
  intro s t pieces hm hphase hne hsum h
  obtain ⟨rfl, hok⟩ := (exec_u12_eq_next_iff hphase).1 h
  have hlen := s.withLen_toNat
  rw [hsum] at hlen
  have hpieces := unpackPieces_eq_u12Result hne hm hphase (hsum ▸ (s.reg Reg.LEN).isLt)
  rw [hlen] at hpieces
  exact hpieces hok

end Sys2Proof.Machine
end

section
/-! SUPPORT. The checks of the filter commands (43_fir R151, R155, R157, R173): what an init that fails, a work command that
fails and FIR.FREE answer. -/

namespace Sys2Proof.Machine

/-! ### Error codes of an init -/

theorem exec_init (dom : Domain) (c : CtxId) (s : State) : exec (initInstr dom c) s = firInit dom c s := by
  cases dom <;> rfl

theorem firInit_busy (dom : Domain) {c : CtxId} {s : State} (hv : (s.context c).valid = true) :
    firInit dom c s = .next (initError s s.params.errBusy) := by
  rw [firInit, if_pos hv]
  rfl

theorem firInit_range (dom : Domain) {c : CtxId} {s : State} (hv : (s.context c).valid = false)
    (hr : firInRange (s.reg Reg.LEN).toNat (s.reg Reg.DA).toNat (s.reg Reg.DB).toNat (s.reg Reg.SB).toNat = false) :
    firInit dom c s = .next (initError s s.params.errRange) := by
  simp only [firInit, hv, hr]
  rfl

theorem firInit_noMem {dom : Domain} {c : CtxId} {s : State} (hv : (s.context c).valid = false)
    (hr : firInRange (s.reg Reg.LEN).toNat (s.reg Reg.DA).toNat (s.reg Reg.DB).toNat (s.reg Reg.SB).toNat = true)
    (hm : s.params.ctxCapBytes < firNeed dom (s.reg Reg.LEN).toNat (s.reg Reg.DB).toNat (s.reg Reg.SB).toNat) :
    firInit dom c s = .next (initError s s.params.errNoMem) := by
  simp only [firInit, hv, hr, hm, if_true]
  rfl

/-- R198: what an init that ends with an error code leaves. -/
theorem initError_frame (s : State) (code : Int) :
    (initError s code).reg Reg.RES = BitVec.ofInt 32 code ∧ SameRegsBut [Reg.RES] s (initError s code) ∧
    (initError s code).ctx = s.ctx ∧ (initError s code).mem = s.mem ∧ Completed s (initError s code) :=
  ⟨State.reg_setReg_same _ _ _, .of_x_set rfl, rfl, rfl, rfl, rfl, rfl, rfl, rfl, rfl⟩

/-- Settles O32: each of the three clauses is one branch of the checks, taken before any access. -/
theorem initErrorLeavesOnlyRes : Obligations.InitErrorLeavesOnlyRes := by
  unfold Obligations.InitErrorLeavesOnlyRes
  intro dom c s code h
  rw [exec_init]
  rcases h with ⟨hv, rfl⟩ | ⟨hv, hbad, rfl⟩ | ⟨hv, hl, hd, hk, hm, hcap, rfl⟩
  · exact ⟨_, firInit_busy dom hv, initError_frame s _⟩
  · have hr := firInRange_iff (s.reg Reg.LEN).toNat (s.reg Reg.DA).toNat (s.reg Reg.DB).toNat (s.reg Reg.SB).toNat
    exact ⟨_, firInit_range dom hv (Bool.eq_false_iff.2 fun htrue => by have := hr.1 htrue; omega), initError_frame s _⟩
  · exact ⟨_, firInit_noMem hv ((firInRange_iff _ _ _ _).2 ⟨hl, hd, hk, hm⟩) hcap, initError_frame s _⟩

/-! ### Faults of a work command -/

theorem exec_work (dom : Domain) (c : CtxId) (s : State) :
    exec (workInstr dom c) s = firWork dom (encode (workInstr dom c)) c s := by
  cases dom <;> rfl

theorem encode_workF (c : CtxId) : encode (.firWorkF c) = BitVec.ofNat 32 (0x32000000 + 65536 * c.val) := by
  revert c; decide

theorem encode_workX (c : CtxId) : encode (.firWorkX c) = BitVec.ofNat 32 (0x33000000 + 65536 * c.val) := by
  revert c; decide

/-- R157, R202: the fault of the first check that fails. -/
theorem exec_work_faultTaken {dom : Domain} {c : CtxId} {s : State} {k : Cause}
    (h : firWorkFault dom (s.context c) (s.reg Reg.LEN).toNat = some k) :
    ∃ t, exec (workInstr dom c) s = .next t ∧ FaultTaken s t k.code (encode (workInstr dom c)) :=
  ⟨_, by rw [exec_work, firWork_of_fault h], raiseFault_faultTaken s k _⟩

theorem firBlockLenOk_eq_false {f : Context} {n : Nat}
    (h : f.maxblk.toNat < n ∨ n % 2 = 1 ∨ n * 2 ^ f.int.toNat % 2 ^ (f.dec.toNat + 1) ≠ 0) :
    firBlockLenOk f n = false := by
  simp only [firBlockLenOk, Bool.and_eq_false_iff, decide_eq_false_iff_not]
  omega

/-- Settles O35: the conditions are those of `firWorkFault`, in its order. -/
theorem workFaultsInOrder : Obligations.WorkFaultsInOrder := by
  unfold Obligations.WorkFaultsInOrder
  intro dom c s code h
  suffices hfault : ∃ t, exec (workInstr dom c) s = .next t ∧ FaultTaken s t code (encode (workInstr dom c)) by
    cases dom with
    | F => simpa only [workInstr, encode_workF] using hfault
    | X => simpa only [workInstr, encode_workX] using hfault
  split at h
  · next hv =>
    subst h
    exact exec_work_faultTaken (k := .badCtx) (by simp [firWorkFault, hv])
  · next hv =>
    split at h
    · next hd =>
      subst h
      exact exec_work_faultTaken (k := .domain) (by simp [firWorkFault, hv, hd])
    · next hd =>
      split at h
      · next hs =>
        subst h
        exact exec_work_faultTaken (k := .shortBlock) (by simp [firWorkFault, hv, hd, hs])
      · next hs =>
        obtain ⟨rfl, hlen⟩ := h
        exact exec_work_faultTaken (k := .blockLen)
          (by simp [firWorkFault, hv, hd, hs, firBlockLenOk_eq_false hlen])

/-! ### FIR.FREE -/

theorem exec_free_of_valid {c : CtxId} {s : State} (hv : (s.context c).valid = true) :
    exec (.firFree c) s = .next (s.setContext c (Context.freed s.freeTick c)).finish := by
  simp [exec, execFirFree, hv]

theorem exec_free_of_invalid {c : CtxId} {s : State} (hv : (s.context c).valid = false) :
    exec (.firFree c) s = .next (s.raiseFault .badCtx (encode (.firFree c))) := by
  simp [exec, execFirFree, hv]

theorem encode_free (c : CtxId) : encode (.firFree c) = BitVec.ofNat 32 (0x34000000 + 65536 * c.val) := by
  revert c; decide

/-- Settles O34: a valid context is replaced by one whose fields are 0, an invalid one raises F_BAD_CTX. -/
theorem freeDestroysFilter : Obligations.FreeDestroysFilter := by
  unfold Obligations.FreeDestroysFilter
  refine fun c s => ⟨fun hv => ?_, fun hv => ?_⟩
  · refine ⟨_, exec_free_of_valid hv, ?_⟩
    rw [State.context_finish, State.context_setContext_same]
    exact ⟨rfl, rfl, rfl, rfl, rfl, rfl, .of_x_eq rfl, .of_ctx_set rfl, fun _ => rfl, rfl, rfl, rfl, rfl, rfl, rfl⟩
  · refine ⟨_, exec_free_of_invalid hv, ?_⟩
    rw [← encode_free]
    exact raiseFault_faultTaken s .badCtx _

/-! ### The expanded block -/

/-- Settles O40: sample `2 * (m * 2^k + r) + ch` lies in copy `r` of pair `m`. -/
theorem expansionRepeatsPairs : Obligations.ExpansionRepeatsPairs := by
  unfold Obligations.ExpansionRepeatsPairs
  intro k x heven
  have hpairs : 2 * (x.length / 2 * 2 ^ k) = x.length * 2 ^ k := by
    rw [← mul_assoc, Nat.mul_div_cancel' (Nat.dvd_of_mod_eq_zero heven)]
  refine ⟨by rw [length_expandBlock, hpairs], fun m r ch hm hr hch => ?_⟩
  have hcopy : m * 2 ^ k + r < x.length / 2 * 2 ^ k := by
    have hnext := Nat.mul_le_mul_right (2 ^ k) (Nat.succ_le_of_lt hm)
    rw [Nat.succ_mul] at hnext
    omega
  have hhalf : (2 * (m * 2 ^ k + r) + ch) / 2 = m * 2 ^ k + r := by omega
  have hpair : (m * 2 ^ k + r) / 2 ^ k = m := by
    rw [mul_comm, Nat.mul_add_div (by positivity), Nat.div_eq_of_lt hr, Nat.add_zero]
  rw [expandBlock_getElem k x _ (by omega), hhalf, hpair]
  congr 2
  omega

/-! ### The dot product of domain X -/

theorem dotX_toNat (taps samples : List Word) :
    (dotX taps samples).toNat = (dotSum taps samples / 2 ^ 16 % 2 ^ 16).toNat := by
  rw [dotX, BitVec.toNat_setWidth_of_le (by decide), BitVec.toNat_ofInt]
  rfl

/-- An accumulator that wraps holds the exact sum modulo its size. -/
theorem foldl_ofInt_add (n : Nat) (zs : List Int) (z : Int) :
    (zs.map (BitVec.ofInt n)).foldl (· + ·) (BitVec.ofInt n z) = BitVec.ofInt n (z + zs.sum) := by
  induction zs generalizing z with
  | nil => simp
  | cons y ys ih => rw [List.map_cons, List.foldl_cons, ← BitVec.ofInt_add, ih, List.sum_cons, add_assoc]

/-- Bits 31..16 do not depend on bits from 32 on. -/
theorem wrapped_bits {n : Nat} (hn : 32 ≤ n) (z : Int) :
    (z % 2 ^ n).toNat / 2 ^ 16 % 2 ^ 16 = (z / 2 ^ 16 % 2 ^ 16).toNat := by
  have hdvd : (2 ^ 32 : Int) ∣ 2 ^ n := pow_dvd_pow 2 hn
  have hmod := Int.emod_emod_of_dvd z hdvd
  have hnonneg := Int.emod_nonneg z (b := 2 ^ n) (by positivity)
  omega

/-- Settles O41: the wrapped sum agrees with the exact one modulo 2^32. -/
theorem accumulatorWidthUnobservable : Obligations.AccumulatorWidthUnobservable := by
  unfold Obligations.AccumulatorWidthUnobservable
  intro n taps samples hn
  have hsum := foldl_ofInt_add n ((taps.zip samples).map fun t => sextLow 16 t.1 * sextLow 16 t.2) 0
  rw [List.map_map, zero_add] at hsum
  have hacc : ((taps.zip samples).map fun t : Word × Word => BitVec.ofInt n (sextLow 16 t.1 * sextLow 16 t.2)).foldl
      (· + ·) 0 = BitVec.ofInt n (dotSum taps samples) := hsum
  rw [hacc, BitVec.toNat_ofInt, dotX_toNat, Nat.cast_pow, Nat.cast_ofNat, wrapped_bits hn]

end Sys2Proof.Machine
end

section
/-! SUPPORT. The work commands (43_fir R158 to R172): what one that completes has done is said once for both domains, and its
output element by element for each. -/

namespace Sys2Proof.Machine

/-! ### What a work command that completes has done -/

theorem exec_work_eq_next_iff {dom : Domain} {c : CtxId} {s t : State}
    (h : WorkChecksPass dom (s.context c) (s.reg Reg.LEN).toNat) :
    exec (workInstr dom c) s = .next t ↔ t = workResult dom c s ∧ (workAccess dom (s.context c) s).Ok s.params := by
  rw [exec_eq_guard, guardAccess_eq_next_iff, rangesOk_iff, resultOf_work, workAnswer_of_pass h, accessOf_work, if_pos h]

theorem workResult_context (dom : Domain) (c : CtxId) (s : State) :
    (workResult dom c s).context c =
      { s.context c with hist := firHistory (s.context c) (firStream dom (s.context c) s) } := by
  rw [workResult, State.context_finish, State.context_setReg, State.context_setContext_same]

theorem workResult_mem (dom : Domain) (c : CtxId) (s : State) : (workResult dom c s).mem =
    s.mem.writeElems dom.width (layElems (s.reg Reg.DA).toNat dom.width (firOutput dom (s.context c) s)) := rfl

theorem workResult_reg_RES (dom : Domain) (c : CtxId) (s : State) :
    (workResult dom c s).reg Reg.RES = BitVec.ofNat 32 (2 * firPairs (s.context c) (s.reg Reg.LEN).toNat) := by
  rw [workResult, State.reg_finish, State.reg_setReg_same]

/-- R58: an output that fits into the address space has fewer than 2^32 samples. -/
theorem workAccess_nd_lt {dom : Domain} {f : Context} {s : State} {p : Params} (hok : (workAccess dom f s).Ok p) :
    (workAccess dom f s).nd < 2 ^ 32 := by
  obtain ⟨-, hdst, -⟩ := hok
  by_contra hge
  have helem : (s.reg Reg.DA).toNat + dom.width * (2 ^ 32 - 1) + dom.width ≤ 2 ^ 32 := (hdst (2 ^ 32 - 1) (by omega)).2.1
  cases dom <;> simp only [Domain.width] at helem <;> omega

/-- R170: RES holds the number of output samples. -/
theorem workResult_count {dom : Domain} {c : CtxId} {s : State} (h : WorkChecksPass dom (s.context c) (s.reg Reg.LEN).toNat)
    (hok : (workAccess dom (s.context c) s).Ok s.params) :
    ((workResult dom c s).reg Reg.RES).toNat = (workAccess dom (s.context c) s).nd := by
  rw [workResult_reg_RES, two_mul_firPairs h, BitVec.toNat_ofNat]
  exact Nat.mod_eq_of_lt (workAccess_nd_lt hok)

/-- R169 to R172: `t` is `s` after a work command of domain `dom` on context `c` has filtered its block. -/
structure BlockFiltered (dom : Domain) (c : CtxId) (s t : State) : Prop where
  stored : Stored s.mem t.mem (workAccess dom (s.context c) s) fun o =>
    ((firOutput dom (s.context c) s).getD o 0).toNat % 256 ^ dom.width
  fields : t.context c = { s.context c with hist := (t.context c).hist }
  history : ∀ i : Fin 128, i.val < 2 * (s.context c).ntaps.toNat → (t.context c).hist[i] =
    streamAt dom (s.context c) s ((s.reg Reg.LEN).toNat * 2 ^ (s.context c).int.toNat + i.val)
  unused : ∀ i : Fin 128, 2 * (s.context c).ntaps.toNat ≤ i.val → (t.context c).hist[i] = (s.context c).hist[i]
  count : (t.reg Reg.RES).toNat = (workAccess dom (s.context c) s).nd
  regs : SameRegsBut [Reg.RES] s t
  contexts : SameCtxBut [c] s t
  completed : Completed s t

/-- A work command that passes its checks and may access its elements filters its block. -/
theorem exec_work_blockFiltered {dom : Domain} {c : CtxId} {s : State} (hm : s.mem.wf = true) (hinv : (s.context c).Inv)
    (h : WorkChecksPass dom (s.context c) (s.reg Reg.LEN).toNat) (hok : (workAccess dom (s.context c) s).Ok s.params) :
    ∃ t, exec (workInstr dom c) s = .next t ∧ BlockFiltered dom c s t := by
  obtain ⟨hvalid, -, -, -, heven, -⟩ := id h
  obtain ⟨⟨-, hL⟩, -⟩ := hinv.valid hvalid
  refine ⟨_, (exec_work_eq_next_iff h).2 ⟨rfl, hok⟩, workResult_stored hm h hok, ?_, ?_, ?_,
    workResult_count h hok, .of_x_set rfl, .of_ctx_set rfl, rfl, rfl, rfl, rfl, rfl, rfl⟩
  · rw [workResult_context]
  · intro i hi
    rw [workResult_context, firHistory_get hL heven, if_pos hi]
  · intro i hi
    rw [workResult_context, firHistory_get hL heven, if_neg (not_lt.2 hi)]

/-! ### The output -/

/-- Only the values of elements that are written matter. -/
theorem Stored.congr_lt {m m' : Memory} {x : Access} {v v' : Nat → Nat} (h : Stored m m' x v)
    (hv : ∀ e, e < x.nd → v e = v' e) : Stored m m' x v' :=
  ⟨fun e he => (h.1 e he).trans (hv e he), h.2⟩

section
variable {f : Context} {s : State} {o : Nat}

/-- R166: an output sample of domain X is bits 31..16 of the exact sum. -/
theorem firOutput_X_toNat (h : WorkChecksPass .X f (s.reg Reg.LEN).toNat) (hL : f.ntaps.toNat ≤ 64)
    (ho : o < (workAccess .X f s).nd) :
    ((firOutput .X f s).getD o 0).toNat =
      ((∑ i ∈ Finset.range f.ntaps.toNat, sextLow 16 (tapAt f i) * sextLow 16 (tapSample .X f s o i)) /
        2 ^ 16 % 2 ^ 16).toNat := by
  rw [firOutput_getD h ho, firDot, dotX_toNat, dotSum, firTerms_eq h hL ho, List.map_map]
  rfl

/-- R164: an output sample of domain F at the default of FDOT is the rounded sum by ascending tap index. -/
theorem firOutput_F_eq (h : WorkChecksPass .F f (s.reg Reg.LEN).toNat) (hL : f.ntaps.toNat ≤ 64)
    (hdot : s.params.fdot = FDot.default) (ho : o < (workAccess .F f s).nd) :
    (firOutput .F f s).getD o 0 =
      (List.range f.ntaps.toNat).foldl (fun acc i => fadd (freeNaN s.freeTick o) acc
        (fmul (freeNaN s.freeTick o) (tapAt f i) (tapSample .F f s o i))) 0 := by
  rw [firOutput_getD h ho, firDot, hdot, dotF_default, firTerms_eq h hL ho, List.foldl_map]

end

/-- Settles O36: each output sample is one dot product, of at most 16 bits. -/
theorem fixedPointFilterWorks : Obligations.FixedPointFilterWorks := by
  unfold Obligations.FixedPointFilterWorks
  intro c s hm hinv h hok
  obtain ⟨⟨-, hL⟩, -⟩ := hinv.valid h.1
  obtain ⟨t, hexec, hdone⟩ := exec_work_blockFiltered hm hinv h hok
  refine ⟨t, hexec, hdone.stored.congr_lt fun o ho => ?_, hdone.fields, hdone.history, hdone.unused, hdone.count,
    hdone.regs, hdone.contexts, hdone.completed⟩
  rw [firOutput_X_toNat h hL ho, Domain.width]
  omega

/-- Settles O37: each output sample is one dot product, whose NaN is the free one of its element. -/
theorem floatFilterWorks : Obligations.FloatFilterWorks := by
  unfold Obligations.FloatFilterWorks
  intro c s hm hinv hdot h hok
  obtain ⟨⟨-, hL⟩, -⟩ := hinv.valid h.1
  obtain ⟨t, hexec, hdone⟩ := exec_work_blockFiltered hm hinv h hok
  refine ⟨t, hexec, ⟨freeNaN s.freeTick, freeNaN_isNaN s.freeTick, hdone.stored.congr_lt fun o ho => ?_⟩, hdone.fields,
    hdone.history, hdone.unused, hdone.count, hdone.regs, hdone.contexts, hdone.completed⟩
  rw [firOutput_F_eq h hL hdot ho]
  exact Nat.mod_eq_of_lt (BitVec.isLt _)

end Sys2Proof.Machine
end

section
/-! SUPPORT. The impulse filter (43_fir R178): multiplying by 1.0 and adding a zero keep a finite value, so the dot product of
an impulse with a window is the newest sample. -/

namespace Sys2Proof.Machine

/-! ### Values that are kept -/

/-- A normalized significand, or one in the smallest unit, loses no bit. -/
theorem roundShift_mul_pow {q e : Nat} (hq : q < 2 ^ 24) (hn : 2 ^ 23 ≤ q ∨ e = 0) (s : Nat) :
    roundShift (q * 2 ^ (e + s)) s = e + s := by
  have hlow : e + s ≤ roundShift (q * 2 ^ (e + s)) s := by
    rcases hn with hn | rfl
    · refine le_roundShift_of_pow_le s ?_
      rw [add_comm _ 23, pow_add]
      exact Nat.mul_le_mul_right _ hn
    · rw [Nat.zero_add]
      exact Nat.le_max_left _ _
  rcases Nat.eq_zero_or_pos q with rfl | hpos
  · obtain rfl : e = 0 := by omega
    simp [roundShift]
  · have hlog : Nat.log2 (q * 2 ^ (e + s)) < 24 + (e + s) := by
      rw [Nat.log2_lt (by positivity), pow_add 2 24]
      exact Nat.mul_lt_mul_of_pos_right hq (by positivity)
    rw [roundShift] at hlow ⊢
    omega

/-- Rounding a value back to binary32 gives its pattern without the sign. -/
theorem roundMag_f32Mag {a : Word} (ha : f32IsFinite a = true) (s : Nat) :
    roundMag (f32Mag a * 2 ^ s) s = a.toNat % 2 ^ 31 := by
  have hfinite : f32Expo a ≠ 255 := by simpa [f32IsFinite] using ha
  have hexpo : f32Expo a < 2 ^ 8 := Nat.mod_lt _ (by decide)
  have hfrac : f32Frac a < 2 ^ 23 := Nat.mod_lt _ (by decide)
  have hfields : a.toNat % 2 ^ 31 = f32Expo a * 2 ^ 23 + f32Frac a := by
    simp only [f32Expo, f32Frac, wordBits]
    omega
  obtain ⟨q, e, hmag, hq, hn, hpattern⟩ : ∃ q e, f32Mag a = q * 2 ^ e ∧ q < 2 ^ 24 ∧ (2 ^ 23 ≤ q ∨ e = 0) ∧
      f32Expo a * 2 ^ 23 + f32Frac a = e * 2 ^ 23 + q := by
    rw [f32Mag]
    split
    · exact ⟨f32Frac a, 0, by rw [pow_zero, mul_one], by omega, .inr rfl, by omega⟩
    · exact ⟨2 ^ 23 + f32Frac a, f32Expo a - 1, rfl, by omega, .inl (by omega), by omega⟩
  rw [hmag, mul_assoc, ← pow_add, roundMag, roundShift_mul_pow hq hn, roundEven_mul, Nat.add_sub_cancel, ← hpattern,
    ← hfields, f32InfMag]
  omega

/-- A pattern is its sign and its magnitude pattern. -/
theorem f32Pack_f32Neg (a : Word) : f32Pack (f32Neg a) (a.toNat % 2 ^ 31) = a := by
  have hlt := a.isLt
  refine BitVec.eq_of_toNat_eq ?_
  rw [f32Pack_toNat (Nat.mod_lt _ (by decide)), f32Neg, wordBits]
  simp only [beq_iff_eq]
  split <;> omega

theorem fmul_one (nan : Word) {a : Word} (ha : f32IsFinite a = true) : fmul nan 0x3F800000 a = a := by
  have hmag : f32Mag 0x3F800000 = 2 ^ 149 := by decide
  have hneg : f32ProductNeg 0x3F800000 a = f32Neg a := Bool.false_xor _
  rw [fmul_of_isFinite nan (by decide) ha, hmag, hneg, mul_comm, roundMag_f32Mag ha, f32Pack_f32Neg]

/-- A product with +0.0 is a zero. -/
theorem fmul_zero_isZero (nan : Word) {a : Word} (ha : f32IsFinite a = true) :
    f32IsFinite (fmul nan 0 a) = true ∧ f32Units (fmul nan 0 a) = 0 := by
  have hmag : f32Mag 0 = 0 := by decide
  rw [fmul_of_isFinite nan (by decide) ha, hmag, zero_mul, roundMag_zero]
  cases f32ProductNeg 0 a <;> decide

/-- A zero is +0.0 or -0.0. -/
theorem eq_zero_or_negZero {a : Word} (ha : f32IsFinite a = true) (h : f32Units a = 0) : a = 0 ∨ a = 0x80000000 := by
  have hround := roundMag_f32Mag ha 0
  rw [(f32Mag_eq_zero_iff a).2 h, zero_mul, roundMag_zero] at hround
  rw [← f32Pack_f32Neg a, ← hround]
  cases f32Neg a <;> decide

/-- The exact value of a pattern, not zero, rounds to the pattern. -/
theorem f32OfSum_f32Units (n₁ n₂ : Bool) {a : Word} (ha : f32IsFinite a = true) (h : f32Units a ≠ 0) :
    f32OfSum n₁ n₂ (f32Units a) 0 = a := by
  have hsign : decide (f32Units a < 0) = f32Neg a := decide_signedMag_neg (mt (f32Mag_eq_zero_iff a).1 h)
  have hround := roundMag_f32Mag ha 0
  rw [pow_zero, mul_one] at hround
  rw [f32OfSum, if_neg h, hsign, f32Units_eq_signedMag, natAbs_signedMag, hround, f32Pack_f32Neg]

/-- Adding to +0.0 keeps a value, but the sign of -0.0 (R13, R165). -/
theorem fadd_zero_left (nan : Word) {a : Word} (ha : f32IsFinite a = true) :
    fadd nan 0 a = if a = 0x80000000 then 0 else a := by
  have hzero : f32Units 0 = 0 := by decide
  rw [fadd_of_isFinite nan (by decide) ha, hzero, zero_add]
  by_cases hunits : f32Units a = 0
  · rw [hunits, f32OfSum_zero]
    rcases eq_zero_or_negZero ha hunits with rfl | rfl <;> decide
  · have hne : a ≠ 0x80000000 := by
      rintro rfl
      exact hunits (by decide)
    rw [f32OfSum_f32Units _ _ ha hunits, if_neg hne]

/-- Adding a zero keeps a value other than -0.0. -/
theorem fadd_zero_right (nan : Word) {a z : Word} (ha : f32IsFinite a = true) (hne : a ≠ 0x80000000)
    (hz : f32IsFinite z = true) (hzero : f32Units z = 0) : fadd nan a z = a := by
  rw [fadd_of_isFinite nan ha hz, hzero, add_zero]
  by_cases hunits : f32Units a = 0
  · obtain rfl := (eq_zero_or_negZero ha hunits).resolve_right hne
    rw [hunits, f32OfSum_zero, show f32Neg 0 = false by decide, Bool.false_and, if_neg Bool.false_ne_true]
  · exact f32OfSum_f32Units _ _ ha hunits

/-! ### The dot product of an impulse -/

/-- Tap 0 takes the newest sample, and every further tap adds a zero. -/
theorem foldl_impulse (nan : Word) {tap sample : Nat → Word} (h0 : tap 0 = 0x3F800000) (n : Nat)
    (htap : ∀ i, 1 ≤ i → i ≤ n → tap i = 0) (hfin : ∀ i, i ≤ n → f32IsFinite (sample i) = true) :
    (List.range (n + 1)).foldl (fun acc i => fadd nan acc (fmul nan (tap i) (sample i))) 0 =
      if sample 0 = 0x80000000 then 0 else sample 0 := by
  have hfirst := hfin 0 (Nat.zero_le n)
  induction n with
  | zero =>
    rw [List.range_one, List.foldl_cons, List.foldl_nil, h0, fmul_one nan hfirst, fadd_zero_left nan hfirst]
  | succ n ih =>
    rw [List.range_succ, List.foldl_append, ih (fun i h1 hi => htap i h1 (by omega)) fun i hi => hfin i (by omega),
      List.foldl_cons, List.foldl_nil, htap (n + 1) (by omega) (le_refl _)]
    obtain ⟨hz, hzero⟩ := fmul_zero_isZero nan (hfin (n + 1) (le_refl _))
    split
    · exact fadd_zero_right nan (by decide) (by decide) hz hzero
    · next hne => exact fadd_zero_right nan hfirst hne hz hzero

/-- Without decimation and expansion tap 0 meets the input sample at the output's position (R161). -/
theorem tapSample_zero {dom : Domain} {f : Context} (hd : f.dec.toNat = 0) (hk : f.int.toNat = 0) (s : State) (o : Nat) :
    tapSample dom f s o 0 = inputAt dom s o := by
  have hnew : ¬ 2 * (f.ntaps.toNat + o / 2 * 2 ^ 0 - 0) + o % 2 < 2 * f.ntaps.toNat := by omega
  have hpos : 2 * (f.ntaps.toNat + o / 2 * 2 ^ 0 - 0) + o % 2 - 2 * f.ntaps.toNat = o := by omega
  have hpair : 2 * (o / 2 / 2 ^ 0) + o % 2 = o := by omega
  rw [tapSample, streamAt, hd, hk, if_neg hnew, hpos, hpair]

/-- Settles O44: every window's dot product is its newest sample. -/
theorem impulseFilterPassesThrough : Obligations.ImpulseFilterPassesThrough := by
  unfold Obligations.ImpulseFilterPassesThrough
  intro c s t hm hinv hdot h hd hk h0 htap hfin hexec
  obtain ⟨-, hok⟩ := (exec_work_eq_next_iff (dom := .F) h).1 hexec
  obtain ⟨⟨hL1, hL⟩, -⟩ := hinv.valid h.1
  obtain ⟨t', hexec', hdone⟩ := exec_work_blockFiltered (dom := .F) hm hinv h hok
  obtain rfl : t' = t := by simpa [workInstr, hexec] using hexec'.symm
  have hdec : (s.context c).dec.toNat = 0 := congrArg BitVec.toNat hd
  have hint : (s.context c).int.toNat = 0 := congrArg BitVec.toNat hk
  have hnd : (workAccess .F (s.context c) s).nd = (s.reg Reg.LEN).toNat := by simp [workAccess, hdec, hint]
  refine ⟨BitVec.eq_of_toNat_eq (hdone.count.trans hnd), fun o ho => ?_⟩
  rw [← hnd] at ho
  obtain ⟨n, hn⟩ := Nat.exists_eq_add_of_le' hL1
  have hsample : ∀ i, f32IsFinite (tapSample .F (s.context c) s o i) = true := fun i => by
    have hindex := tapSample_index_lt h (i := i) ho
    rw [hint, pow_zero, mul_one] at hindex
    exact hfin _ hindex
  have hdotp := firOutput_F_eq h hL hdot ho
  rw [hn, foldl_impulse _ h0 n (fun i h1 hi => htap i h1 (by omega)) (fun i _ => hsample i), tapSample_zero hdec hint] at hdotp
  refine BitVec.eq_of_toNat_eq ?_
  rw [Memory.readElem_toNat _ _ _ (le_refl 4), ← hdotp]
  exact (hdone.stored.1 o ho).trans (Nat.mod_eq_of_lt (BitVec.isLt _))

end Sys2Proof.Machine
end

section
/-! SUPPORT. A block filtered in two parts (43_fir R174): the second part goes on with the stream of the whole block, because
the history the first part leaves is the end of its own stream (R169). -/

namespace Sys2Proof.Machine

/-! ### Blocks in two parts -/

/-- A whole number of decimation groups gives its own outputs, whatever follows (R157, R161). -/
theorem firPairs_add {dom : Domain} {f : Context} {n : Nat} (h : WorkChecksPass dom f n) (k : Nat) :
    firPairs f (n + k) = firPairs f n + firPairs f k := by
  obtain ⟨-, -, -, -, -, hgroups⟩ := h
  rw [firPairs, add_mul, Nat.add_div_of_dvd_right (Nat.dvd_of_mod_eq_zero hgroups), firPairs, firPairs]

/-- The samples of the expanded block behind its output pairs. -/
theorem expanded_eq {dom : Domain} {f : Context} {n : Nat} (h : WorkChecksPass dom f n) :
    n * 2 ^ f.int.toNat = 2 * (firPairs f n * 2 ^ f.dec.toNat) := by
  obtain ⟨-, -, -, -, -, hgroups⟩ := h
  have hsplit := Nat.div_mul_cancel (Nat.dvd_of_mod_eq_zero hgroups)
  rw [← hsplit, firPairs, pow_succ]
  ring

/-- A block that a filter accepts has an output pair at least. -/
theorem firPairs_pos {dom : Domain} {f : Context} {n : Nat} (hinv : f.Inv) (h : WorkChecksPass dom f n) :
    0 < n ∧ 0 < firPairs f n := by
  obtain ⟨hvalid, -, hshort, -⟩ := id h
  obtain ⟨⟨hL, -⟩, -⟩ := hinv.valid hvalid
  have hn : 0 < n := by omega
  have hexpanded : 0 < n * 2 ^ f.int.toNat := by positivity
  rw [expanded_eq h] at hexpanded
  exact ⟨hn, Nat.pos_of_mul_pos_right (Nat.pos_of_mul_pos_left hexpanded)⟩

/-! ### The state between the parts -/

/-- The context a work command leaves (R169). -/
def Context.afterWork (dom : Domain) (f : Context) (s : State) : Context :=
  { f with hist := firHistory f (firStream dom f s) }

section
variable (dom : Domain) (f : Context) (s : State)

@[simp] theorem afterWork_valid : (f.afterWork dom s).valid = f.valid := by rw [Context.afterWork]
@[simp] theorem afterWork_dom : (f.afterWork dom s).dom = f.dom := by rw [Context.afterWork]
@[simp] theorem afterWork_dec : (f.afterWork dom s).dec = f.dec := by rw [Context.afterWork]
@[simp] theorem afterWork_int : (f.afterWork dom s).int = f.int := by rw [Context.afterWork]
@[simp] theorem afterWork_ntaps : (f.afterWork dom s).ntaps = f.ntaps := by rw [Context.afterWork]
@[simp] theorem afterWork_maxblk : (f.afterWork dom s).maxblk = f.maxblk := by rw [Context.afterWork]
@[simp] theorem afterWork_tap : (f.afterWork dom s).tap = f.tap := by rw [Context.afterWork]

@[simp] theorem firPairs_afterWork (n : Nat) : firPairs (f.afterWork dom s) n = firPairs f n := by
  rw [firPairs, afterWork_int, afterWork_dec, firPairs]

end

/-- A work command changes no field that its checks look at (R157). -/
theorem workChecksPass_afterWork {dom : Domain} {f : Context} {n : Nat} (h : WorkChecksPass dom f n) (d : Domain)
    (s : State) : WorkChecksPass dom (f.afterWork d s) n := by
  simpa only [WorkChecksPass, afterWork_valid, afterWork_dom, afterWork_ntaps, afterWork_maxblk, afterWork_int,
    afterWork_dec] using h

/-- The state after a work command over the first `n` samples, with SA and DA advanced (R174). -/
def State.afterBlock (s : State) (dom : Domain) (c : CtxId) (n : Nat) : State :=
  ((workResult dom c (s.withLen n)).setReg Reg.SA (s.reg Reg.SA + BitVec.ofNat 32 (dom.width * n))).setReg Reg.DA
    (s.reg Reg.DA + BitVec.ofNat 32 dom.width * (workResult dom c (s.withLen n)).reg Reg.RES)

/-- The output samples of a block filtered in two parts, of `n` and of `k` samples. -/
def partsOutput (dom : Domain) (c : CtxId) (s : State) (n k : Nat) : List Word :=
  firOutput dom (s.context c) (s.withLen n) ++
    firOutput dom ((s.context c).afterWork dom (s.withLen n)) ((s.afterBlock dom c n).withLen k)

theorem afterBlock_context (s : State) (dom : Domain) (c : CtxId) (n : Nat) :
    (s.afterBlock dom c n).context c = (s.context c).afterWork dom (s.withLen n) :=
  workResult_context dom c (s.withLen n)

theorem withLen_context (s : State) (n : Nat) (c : CtxId) : (s.withLen n).context c = s.context c := rfl

theorem afterBlock_mem (s : State) (dom : Domain) (c : CtxId) (n : Nat) :
    (s.afterBlock dom c n).mem = (workResult dom c (s.withLen n)).mem := rfl

theorem afterBlock_reg_SA (s : State) (dom : Domain) (c : CtxId) (n : Nat) :
    (s.afterBlock dom c n).reg Reg.SA = s.reg Reg.SA + BitVec.ofNat 32 (dom.width * n) := by
  rw [State.afterBlock, State.reg_setReg_ne _ _ (by decide), State.reg_setReg_same]

theorem afterBlock_reg_DA (s : State) (dom : Domain) (c : CtxId) {n : Nat} (hn : n < 2 ^ 32) :
    (s.afterBlock dom c n).reg Reg.DA =
      s.reg Reg.DA + BitVec.ofNat 32 (dom.width * (2 * firPairs (s.context c) n)) := by
  rw [State.afterBlock, State.reg_setReg_same, workResult_reg_RES, s.withLen_reg_LEN hn, ← BitVec.ofNat_mul]
  rfl

/-- The elements a work command over `n` samples accesses. -/
theorem workAccess_withLen {dom : Domain} {f : Context} (s : State) {n : Nat} (hlt : n < 2 ^ 32)
    (h : WorkChecksPass dom f n) : workAccess dom f (s.withLen n) =
      ⟨n, dom.width, fun e => (s.reg Reg.SA).toNat + dom.width * e, 2 * firPairs f n, dom.width,
        fun e => (s.reg Reg.DA).toNat + dom.width * e⟩ := by
  simp only [workAccess, s.withLen_reg_LEN hlt, State.withLen_reg_SA, State.withLen_reg_DA, two_mul_firPairs h]

/-- Output element `o` of a work command over `n` samples: the dot product of the taps and the samples they meet. -/
theorem firOutput_withLen_getD {dom : Domain} {f : Context} (s : State) {n : Nat} (hlt : n < 2 ^ 32)
    (h : WorkChecksPass dom f n) (hL : f.ntaps.toNat ≤ 64) {o : Nat} (ho : o < 2 * firPairs f n) :
    (firOutput dom f (s.withLen n)).getD o 0 = firDot dom (s.withLen n) o (f.tap.toList.take f.ntaps.toNat)
      ((List.range f.ntaps.toNat).map (tapSample dom f s o)) := by
  have hlen := s.withLen_reg_LEN hlt
  have h' : WorkChecksPass dom f ((s.withLen n).reg Reg.LEN).toNat := by rwa [hlen]
  obtain ⟨-, -, -, -, heven, -⟩ := id h'
  rw [two_mul_firPairs h] at ho
  rw [firOutput_getD h' (by rwa [hlen])]
  congr 1
  refine List.map_congr_left fun i _ => ?_
  have hindex := tapSample_index_lt h (i := i) ho
  rw [firStream_getD hL heven (by rwa [hlen])]
  simp only [tapSample, streamAt, inputAt, State.withLen_reg_SA, State.withLen_mem]

theorem streamAt_withLen (dom : Domain) (f : Context) (s : State) (n j : Nat) :
    streamAt dom f (s.withLen n) j = streamAt dom f s j := by
  simp only [streamAt, inputAt, State.withLen_reg_SA, State.withLen_mem]

/-- R169: a history cell in use after a work command over `n` samples. -/
theorem afterWork_hist {dom : Domain} {f : Context} (s : State) {n : Nat} (hlt : n < 2 ^ 32) (heven : n % 2 = 0)
    (hL : f.ntaps.toNat ≤ 64) {j : Nat} (hj : j < 2 * f.ntaps.toNat) :
    (f.afterWork dom (s.withLen n)).hist.toList.getD j 0 = streamAt dom f s (n * 2 ^ f.int.toNat + j) := by
  have hlen := s.withLen_reg_LEN hlt
  have hcell := firHistory_get (dom := dom) (f := f) (s := s.withLen n) hL (by rwa [hlen]) ⟨j, by omega⟩
  rw [if_pos hj, hlen, streamAt_withLen] at hcell
  rw [← hcell]
  simp [Context.afterWork, List.getD_eq_getElem?_getD, show j < 128 by omega]

/-- The sample of the block behind sample `p` of the expanded block, in a block of `n` samples and more (R160). -/
theorem expanded_index_add {n : Nat} (heven : n % 2 = 0) (i p : Nat) :
    2 * ((n * 2 ^ i + p) / 2 / 2 ^ i) + (n * 2 ^ i + p) % 2 = n + (2 * (p / 2 / 2 ^ i) + p % 2) := by
  obtain ⟨m, rfl⟩ := Nat.dvd_of_mod_eq_zero heven
  have hhalf : (2 * m * 2 ^ i + p) / 2 = 2 ^ i * m + p / 2 := by
    rw [mul_assoc, Nat.mul_add_div two_pos, mul_comm m]
  have hpair : (2 ^ i * m + p / 2) / 2 ^ i = m + p / 2 / 2 ^ i := Nat.mul_add_div (by positivity) _ _
  have hchannel : (2 * m * 2 ^ i + p) % 2 = p % 2 := by rw [mul_assoc, Nat.mul_add_mod]
  rw [hhalf, hpair, hchannel]
  omega

/-- Every sample of the expanded block is that of a sample of the block (R160). -/
theorem expanded_index_lt {k : Nat} (heven : k % 2 = 0) {i p : Nat} (hp : p < k * 2 ^ i) :
    2 * (p / 2 / 2 ^ i) + p % 2 < k := by
  obtain ⟨m, rfl⟩ := Nat.dvd_of_mod_eq_zero heven
  have hpair : p / 2 / 2 ^ i < m := by
    rw [Nat.div_lt_iff_lt_mul (by positivity)]
    rw [mul_assoc] at hp
    omega
  omega

/-- A block of `n + k` samples that a filter may be run on as a whole, both of whose parts, of `n` and of `k` samples, pass
the checks of R157 too (R174). -/
structure CutBlock (dom : Domain) (c : CtxId) (s : State) (n k : Nat) : Prop where
  wf : s.mem.wf = true
  inv : (s.context c).Inv
  len : (s.reg Reg.LEN).toNat = n + k
  whole : WorkChecksPass dom (s.context c) (n + k)
  first : WorkChecksPass dom (s.context c) n
  second : WorkChecksPass dom (s.context c) k
  ok : (workAccess dom (s.context c) s).Ok s.params

namespace CutBlock

variable {dom : Domain} {c : CtxId} {s : State} {n k : Nat} (h : CutBlock dom c s n k)

include h

theorem lt : n + k < 2 ^ 32 := h.len ▸ (s.reg Reg.LEN).isLt

theorem ntaps_le : (s.context c).ntaps.toNat ≤ 64 := (h.inv.valid h.whole.1).1.2

theorem withLen_eq : s.withLen (n + k) = s := by rw [← h.len, State.withLen_toNat]

theorem firstLen : ((s.withLen n).reg Reg.LEN).toNat = n :=
  s.withLen_reg_LEN (Nat.lt_of_add_right_lt h.lt)

theorem secondLen (u : State) : ((u.withLen k).reg Reg.LEN).toNat = k :=
  u.withLen_reg_LEN (Nat.lt_of_add_left_lt h.lt)

theorem firPairs_add : firPairs (s.context c) (n + k) = firPairs (s.context c) n + firPairs (s.context c) k :=
  Machine.firPairs_add h.first k

/-! #### Where the parts lie -/

theorem access_eq : workAccess dom (s.context c) s =
    ⟨n + k, dom.width, fun e => (s.reg Reg.SA).toNat + dom.width * e, 2 * firPairs (s.context c) (n + k), dom.width,
      fun e => (s.reg Reg.DA).toNat + dom.width * e⟩ := by
  have haccess := workAccess_withLen s h.lt h.whole
  rwa [h.withLen_eq] at haccess

theorem SA_toNat : ((s.afterBlock dom c n).reg Reg.SA).toNat = (s.reg Reg.SA).toNat + dom.width * n := by
  obtain ⟨hpos, -⟩ := firPairs_pos h.inv h.second
  have hwidth := dom.width_pos
  have hok := h.ok
  rw [h.access_eq] at hok
  obtain ⟨hsrc, -⟩ := hok
  obtain ⟨-, hend, -⟩ := hsrc n (Nat.lt_add_of_pos_right hpos)
  dsimp only at hend
  rw [afterBlock_reg_SA, BitVec.toNat_add, BitVec.toNat_ofNat]
  omega

theorem DA_toNat : ((s.afterBlock dom c n).reg Reg.DA).toNat =
    (s.reg Reg.DA).toNat + dom.width * (2 * firPairs (s.context c) n) := by
  obtain ⟨-, hpos⟩ := firPairs_pos h.inv h.second
  have hadd := h.firPairs_add
  have hlt := h.lt
  have hwidth := dom.width_pos
  have hok := h.ok
  rw [h.access_eq] at hok
  obtain ⟨-, hdst, -⟩ := hok
  obtain ⟨-, hend, -⟩ := hdst (2 * firPairs (s.context c) n) (by dsimp only; omega)
  dsimp only at hend
  rw [afterBlock_reg_DA s dom c (by omega), BitVec.toNat_add, BitVec.toNat_ofNat]
  omega

theorem isWindow_first :
    (workAccess dom (s.context c) s).IsWindow (workAccess dom (s.context c) (s.withLen n)) 0 0 := by
  have hadd := h.firPairs_add
  have hlt := h.lt
  rw [h.access_eq, workAccess_withLen s (by omega) h.first]
  refine ⟨rfl, rfl, fun e he => ⟨?_, ?_⟩, fun e he => ⟨?_, ?_⟩⟩ <;> dsimp only at he ⊢
  · omega
  · rw [Nat.zero_add]
  · omega
  · rw [Nat.zero_add]

theorem isWindow_second : (workAccess dom (s.context c) s).IsWindow
    (workAccess dom ((s.context c).afterWork dom (s.withLen n)) ((s.afterBlock dom c n).withLen k)) n
      (2 * firPairs (s.context c) n) := by
  have hadd := h.firPairs_add
  have hlt := h.lt
  rw [h.access_eq, workAccess_withLen _ (by omega) (workChecksPass_afterWork h.second _ _), h.SA_toNat, h.DA_toNat,
    firPairs_afterWork]
  refine ⟨rfl, rfl, fun e he => ⟨?_, ?_⟩, fun e he => ⟨?_, ?_⟩⟩ <;> dsimp only at he ⊢
  · omega
  · rw [Nat.mul_add, Nat.add_assoc]
  · omega
  · rw [Nat.mul_add, Nat.add_assoc]

/-- R174: both parts run when the whole block does. -/
theorem exec_parts :
    exec (workInstr dom c) (s.withLen n) = .next (workResult dom c (s.withLen n)) ∧
    exec (workInstr dom c) ((s.afterBlock dom c n).withLen k) =
      .next (workResult dom c ((s.afterBlock dom c n).withLen k)) := by
  constructor
  · refine (exec_work_eq_next_iff ?_).2 ⟨rfl, h.isWindow_first.ok h.ok⟩
    rw [h.firstLen]
    exact h.first
  · refine (exec_work_eq_next_iff ?_).2 ⟨rfl, ?_⟩
    · rw [withLen_context, afterBlock_context, h.secondLen]
      exact workChecksPass_afterWork h.second _ _
    · rw [withLen_context, afterBlock_context]
      exact h.isWindow_second.ok h.ok

/-! #### The stream of the second part -/

/-- The first part leaves the source samples of the second as they were (R56). -/
theorem inputAt_afterBlock {e : Nat} (he : e < k) : inputAt dom (s.afterBlock dom c n) e = inputAt dom s (n + e) := by
  have hfirst := h.isWindow_first
  obtain ⟨-, hframe⟩ := workResult_stored (dom := dom) (c := c) (s := s.withLen n) h.wf
    (by rw [h.firstLen]; exact h.first) (hfirst.ok h.ok)
  have hread := Access.readElem_congr (x := workAccess dom (s.context c) s) (e := n + e)
    (fun a ha => hframe a (hfirst.outside (Access.outside_of_reads h.ok ha)))
    (by rw [h.access_eq]; exact Nat.add_lt_add_left he n)
  rw [h.access_eq] at hread
  rw [inputAt, h.SA_toNat, inputAt, Nat.add_assoc, ← Nat.mul_add]
  exact hread

/-- R169, R174: the stream of the second part is the stream of the whole block from sample `n * 2^int` on. -/
theorem streamAt_afterBlock {j : Nat} (hj : j < 2 * (s.context c).ntaps.toNat + k * 2 ^ (s.context c).int.toNat) :
    streamAt dom ((s.context c).afterWork dom (s.withLen n)) (s.afterBlock dom c n) j =
      streamAt dom (s.context c) s (n * 2 ^ (s.context c).int.toNat + j) := by
  have hlt := h.lt
  obtain ⟨-, -, -, -, hneven, -⟩ := h.first
  obtain ⟨-, -, -, -, hkeven, -⟩ := h.second
  by_cases hhist : j < 2 * (s.context c).ntaps.toNat
  · rw [streamAt, afterWork_ntaps, if_pos hhist, afterWork_hist s (by omega) hneven h.ntaps_le hhist]
  · have hpast : ¬ n * 2 ^ (s.context c).int.toNat + j < 2 * (s.context c).ntaps.toNat := by omega
    rw [streamAt, afterWork_ntaps, if_neg hhist, afterWork_int, streamAt, if_neg hpast, Nat.add_sub_assoc (by omega),
      expanded_index_add hneven]
    exact h.inputAt_afterBlock (expanded_index_lt hkeven (by omega))

/-- R174: output element `o` of the second part meets the samples of the whole block's element behind the first part. -/
theorem tapSample_afterBlock {o i : Nat} (ho : o < 2 * firPairs (s.context c) k) (hi : i < (s.context c).ntaps.toNat) :
    tapSample dom ((s.context c).afterWork dom (s.withLen n)) (s.afterBlock dom c n) o i =
      tapSample dom (s.context c) s (2 * firPairs (s.context c) n + o) i := by
  have hindex := tapSample_index_lt h.second (i := i) (o := o) (by rwa [← two_mul_firPairs h.second])
  have hstart := expanded_eq h.first
  have hpair : (2 * firPairs (s.context c) n + o) / 2 = firPairs (s.context c) n + o / 2 := by omega
  rw [tapSample, tapSample, afterWork_ntaps, afterWork_dec, h.streamAt_afterBlock hindex, hpair, add_mul]
  congr 1
  omega

/-! #### What the second part leaves -/

theorem length_partsOutput : (partsOutput dom c s n k).length = 2 * firPairs (s.context c) (n + k) := by
  rw [partsOutput, List.length_append, length_firOutput, length_firOutput, h.firstLen, h.secondLen, firPairs_afterWork,
    h.firPairs_add, Nat.mul_add]

/-- R161: output element `o` of the whole block. -/
theorem firOutput_getD {o : Nat} (ho : o < 2 * firPairs (s.context c) (n + k)) :
    (firOutput dom (s.context c) s).getD o 0 =
      firDot dom s o ((s.context c).tap.toList.take (s.context c).ntaps.toNat)
        ((List.range (s.context c).ntaps.toNat).map (tapSample dom (s.context c) s o)) := by
  have hout := firOutput_withLen_getD s h.lt h.whole h.ntaps_le ho
  rwa [h.withLen_eq] at hout

/-- R174: in two parts, output element `o` is a dot product over the samples that the element meets in the whole block. -/
theorem partsOutput_getD {o : Nat} (ho : o < 2 * firPairs (s.context c) (n + k)) :
    ∃ (u : State) (e : Nat), u.params = s.params ∧ (partsOutput dom c s n k).getD o 0 =
      firDot dom u e ((s.context c).tap.toList.take (s.context c).ntaps.toNat)
        ((List.range (s.context c).ntaps.toNat).map (tapSample dom (s.context c) s o)) := by
  have hadd := h.firPairs_add
  have hlt := h.lt
  have hlen : (firOutput dom (s.context c) (s.withLen n)).length = 2 * firPairs (s.context c) n := by
    rw [length_firOutput, h.firstLen]
  rw [partsOutput]
  by_cases hfirst : o < 2 * firPairs (s.context c) n
  · refine ⟨s.withLen n, o, rfl, ?_⟩
    rw [List.getD_append _ _ _ _ (by omega), firOutput_withLen_getD s (by omega) h.first h.ntaps_le hfirst]
  · obtain ⟨e, rfl⟩ := Nat.exists_eq_add_of_le (not_lt.1 hfirst)
    refine ⟨(s.afterBlock dom c n).withLen k, e, rfl, ?_⟩
    rw [List.getD_append_right _ _ _ _ (by omega), hlen, Nat.add_sub_cancel_left,
      firOutput_withLen_getD _ (by omega) (workChecksPass_afterWork h.second _ _)
        (by rw [afterWork_ntaps]; exact h.ntaps_le) (by rw [firPairs_afterWork]; omega), afterWork_ntaps, afterWork_tap,
      List.map_congr_left fun i hi => h.tapSample_afterBlock (by omega) (List.mem_range.1 hi)]

/-- R170: the second part lays its output after that of the first. -/
theorem second_mem : (workResult dom c ((s.afterBlock dom c n).withLen k)).mem =
    s.mem.writeElems dom.width (layElems (s.reg Reg.DA).toNat dom.width (partsOutput dom c s n k)) := by
  rw [workResult_mem, withLen_context, afterBlock_context, State.withLen_reg_DA, h.DA_toNat, State.withLen_mem,
    afterBlock_mem, workResult_mem, partsOutput, layElems_append, Memory.writeElems_append, length_firOutput, h.firstLen,
    State.withLen_reg_DA, withLen_context, State.withLen_mem]

/-- R169, R174: the history after the second part is that after the whole block. -/
theorem second_history :
    firHistory ((s.context c).afterWork dom (s.withLen n))
      (firStream dom ((s.context c).afterWork dom (s.withLen n)) ((s.afterBlock dom c n).withLen k)) =
    firHistory (s.context c) (firStream dom (s.context c) s) := by
  have hlt := h.lt
  have hL := h.ntaps_le
  obtain ⟨-, -, -, -, hneven, -⟩ := h.first
  obtain ⟨-, -, -, -, hkeven, -⟩ := h.second
  refine Vector.ext fun i hi => ?_
  have hsecond := firHistory_get (dom := dom) (f := (s.context c).afterWork dom (s.withLen n))
    (s := (s.afterBlock dom c n).withLen k) (by rwa [afterWork_ntaps]) (by rwa [h.secondLen]) ⟨i, hi⟩
  have hwhole := firHistory_get (dom := dom) (f := s.context c) (s := s) hL (by rw [h.len]; omega) ⟨i, hi⟩
  have hkept := firHistory_get (dom := dom) (f := s.context c) (s := s.withLen n) hL (h.firstLen.symm ▸ hneven) ⟨i, hi⟩
  rw [afterWork_ntaps, afterWork_int, h.secondLen, streamAt_withLen] at hsecond
  rw [h.len] at hwhole
  refine hsecond.trans (Eq.trans ?_ hwhole.symm)
  split
  · next hused => rw [h.streamAt_afterBlock (by omega), add_mul, Nat.add_assoc]
  · next hunused => exact hkept.trans (if_neg hunused)

theorem second_context :
    (workResult dom c ((s.afterBlock dom c n).withLen k)).context c = (workResult dom c s).context c := by
  rw [workResult_context, workResult_context, withLen_context, afterBlock_context, h.second_history,
    Context.afterWork]

/-- R170: the counts of the two parts add up. -/
theorem second_count :
    (workResult dom c (s.withLen n)).reg Reg.RES + (workResult dom c ((s.afterBlock dom c n).withLen k)).reg Reg.RES =
      (workResult dom c s).reg Reg.RES := by
  rw [workResult_reg_RES, workResult_reg_RES, workResult_reg_RES, withLen_context, withLen_context, afterBlock_context,
    firPairs_afterWork, h.firstLen, h.secondLen, h.len, ← BitVec.ofNat_add, ← Nat.mul_add, ← h.firPairs_add]

end CutBlock

end Sys2Proof.Machine
end

section
/-! SUPPORT. The two statements of history continuity (43_fir R174): in domain X both ways write the same list, and in domain
F lists that differ at most in the pattern of a NaN (U4). -/

namespace Sys2Proof.Machine

/-! ### Values up to the pattern of a NaN -/

/-- The same value, or a NaN on both sides (U4). -/
def SameOrNaN (a b : Word) : Prop := a = b ∨ (f32IsNaN a = true ∧ f32IsNaN b = true)

section
variable {nan nan' : Word} (hnan : f32IsNaN nan = true) (hnan' : f32IsNaN nan' = true)

include hnan hnan' in
theorem fmul_sameOrNaN (a b : Word) : SameOrNaN (fmul nan a b) (fmul nan' a b) := by
  unfold fmul
  split
  · exact .inr ⟨hnan, hnan'⟩
  · exact .inl rfl

include hnan hnan' in
theorem fadd_sameOrNaN {a a' b b' : Word} (ha : SameOrNaN a a') (hb : SameOrNaN b b') :
    SameOrNaN (fadd nan a b) (fadd nan' a' b') := by
  rcases ha with rfl | ⟨ha, ha'⟩
  · rcases hb with rfl | ⟨hb, hb'⟩
    · unfold fadd
      split
      · exact .inr ⟨hnan, hnan'⟩
      · exact .inl rfl
    · exact .inr ⟨by simp [f32IsNaN_fadd _ _ hnan, hb], by simp [f32IsNaN_fadd _ _ hnan', hb']⟩
  · exact .inr ⟨by simp [f32IsNaN_fadd _ _ hnan, ha], by simp [f32IsNaN_fadd _ _ hnan', ha']⟩

include hnan hnan' in
/-- R165: the pattern a NaN takes does not decide which dot products are NaN, nor the value of the others. -/
theorem foldl_sameOrNaN (terms : List (Word × Word)) {acc acc' : Word} (hacc : SameOrNaN acc acc') :
    SameOrNaN (terms.foldl (fun acc t => fadd nan acc (fmul nan t.1 t.2)) acc)
      (terms.foldl (fun acc t => fadd nan' acc (fmul nan' t.1 t.2)) acc') := by
  induction terms generalizing acc acc' with
  | nil => exact hacc
  | cons t ts ih => exact ih (fadd_sameOrNaN hnan hnan' hacc (fmul_sameOrNaN hnan hnan' t.1 t.2))

end

theorem firDot_F_sameOrNaN {s u : State} (hs : s.params.fdot = FDot.default) (hu : u.params.fdot = FDot.default)
    (o e : Nat) (taps samples : List Word) : SameOrNaN (firDot .F s o taps samples) (firDot .F u e taps samples) := by
  rw [firDot, firDot, hs, hu, dotF_default, dotF_default]
  exact foldl_sameOrNaN (freeNaN_isNaN _ _) (freeNaN_isNaN _ _) _ (.inl rfl)

/-! ### The statements -/

/-- The element of domain F that a list written to the output holds. -/
theorem readElem_layElems_F {f : Context} {s : State} (hm : s.mem.wf = true) (hok : (workAccess .F f s).Ok s.params)
    {vs : List Word} (hlen : vs.length = (workAccess .F f s).nd) {o : Nat} (ho : o < (workAccess .F f s).nd) :
    (s.mem.writeElems 4 (layElems (s.reg Reg.DA).toNat 4 vs)).readElem 4 ((s.reg Reg.DA).toNat + 4 * o) = vs.getD o 0 := by
  obtain ⟨hstored, -⟩ := Access.stored_elems hok hm fun e => vs.getD e 0
  refine BitVec.eq_of_toNat_eq ?_
  rw [Memory.readElem_toNat _ _ _ (le_refl 4), layElems_eq, hlen]
  exact (hstored o ho).trans (Nat.mod_eq_of_lt (BitVec.isLt _))

namespace CutBlock

variable {c : CtxId} {s : State} {n k : Nat}

/-- R174: in domain X both ways write the same samples. -/
theorem partsOutput_X (h : CutBlock .X c s n k) : partsOutput .X c s n k = firOutput .X (s.context c) s := by
  have hlen : (partsOutput .X c s n k).length = (firOutput .X (s.context c) s).length := by
    rw [h.length_partsOutput, length_firOutput, h.len]
  refine List.ext_getElem hlen fun o ho ho' => ?_
  rw [h.length_partsOutput] at ho
  obtain ⟨u, e, -, hparts⟩ := h.partsOutput_getD ho
  have hwhole := h.firOutput_getD ho
  rw [← List.getD_eq_getElem _ 0, ← List.getD_eq_getElem _ 0, hparts, hwhole]
  rfl

/-- R174: in domain F both ways write the same samples but for the pattern of a NaN (U4). -/
theorem partsOutput_F (h : CutBlock .F c s n k) (hdot : s.params.fdot = FDot.default) {o : Nat}
    (ho : o < 2 * firPairs (s.context c) (n + k)) :
    SameOrNaN ((partsOutput .F c s n k).getD o 0) ((firOutput .F (s.context c) s).getD o 0) := by
  obtain ⟨u, e, hparams, hparts⟩ := h.partsOutput_getD ho
  rw [hparts, h.firOutput_getD ho]
  exact firDot_F_sameOrNaN (by rw [hparams, hdot]) hdot _ _ _ _

end CutBlock

/-- Settles O42: the second part completes what the first has begun, and both ways write the same list of samples. -/
theorem fixedPointHistoryContinuity : Obligations.FixedPointHistoryContinuity := by
  unfold Obligations.FixedPointHistoryContinuity
  intro c s t n k hm hinv hlen hwhole hn hk hexec
  obtain ⟨rfl, hok⟩ := (exec_work_eq_next_iff (dom := .X) (by rwa [hlen])).1 hexec
  have h : CutBlock .X c s n k := ⟨hm, hinv, hlen, hwhole, hn, hk, hok⟩
  obtain ⟨hexec1, hexec2⟩ := h.exec_parts
  refine ⟨_, _, hexec1, hexec2, ?_, h.second_context, h.second_count⟩
  rw [h.second_mem, h.partsOutput_X, workResult_mem]

/-- Settles O43: the two dot products of an output element differ at most in the pattern of a NaN. -/
theorem floatHistoryContinuity : Obligations.FloatHistoryContinuity := by
  unfold Obligations.FloatHistoryContinuity
  intro c s t n k hm hinv hdot hlen hwhole hn hk hexec
  obtain ⟨rfl, hok⟩ := (exec_work_eq_next_iff (dom := .F) (by rwa [hlen])).1 hexec
  have h : CutBlock .F c s n k := ⟨hm, hinv, hlen, hwhole, hn, hk, hok⟩
  obtain ⟨hexec1, hexec2⟩ := h.exec_parts
  refine ⟨_, _, hexec1, hexec2, fun o ho => ?_, h.second_context, h.second_count⟩
  have hnd : (workAccess .F (s.context c) s).nd = 2 * firPairs (s.context c) (n + k) := by rw [h.access_eq]
  have hparts := readElem_layElems_F hm hok (h.length_partsOutput.trans hnd.symm) ho
  have hout := readElem_layElems_F hm hok (vs := firOutput .F (s.context c) s)
    (by rw [length_firOutput, h.len, hnd]) ho
  rw [h.second_mem, workResult_mem]
  simp only [Domain.width]
  rw [hparts, hout]
  exact h.partsOutput_F hdot (hnd ▸ ho)

end Sys2Proof.Machine
end

section
/-! SUPPORT. What a step makes of a presented word, the halted state, and the host's moves under the invariant (60_exceptions
R199 to R207, 70_reset_and_hazards R220). -/

namespace Sys2Proof.Machine

/-! ### A presented word -/

/-- A command that violates a precondition of R52, R56, R57 or R58 has no next state. -/
theorem exec_ne_next {i : Instr} {s : State} (h : ¬ (accessOf i s).Ok s.params) (t : State) : exec i s ≠ .next t :=
  fun ht => h (exec_eq_next ht).2

/-- A presented word completes a command, enters a fault with that word in FCMD, or is a command whose precondition is
violated and that has no next state (R199, R201, R202). -/
theorem step_presented_cases {s : State} {w : Word} (hh : s.halt = false) (hw : s.program[s.cmdIndex]? = some w) :
    (∃ t, step s = .next t ∧ Completed s t) ∨ (∃ k : Cause, step s = .next (s.raiseFault k w)) ∨
    ∃ i, decode w = .ok i ∧ ¬ (accessOf i s).Ok s.params ∧ ∀ t, step s ≠ .next t := by
  cases hd : decode w with
  | error e => exact .inr (.inl ⟨.illegal, step_eq_illegal hh hw hd⟩)
  | ok i =>
    have hstep : step s = exec i s := step_eq_exec hh hw hd
    by_cases hok : (accessOf i s).Ok s.params
    · have hnext : step s = .next (resultOf i s) := hstep.trans (exec_of_ok hok)
      rcases resultOf_completed_or_fault i s with hc | ⟨k, -, -, hk⟩
      · exact .inl ⟨_, hnext, hc⟩
      · rw [hk, encodeOfDecodeIsTheWord w i hd] at hnext
        exact .inr (.inl ⟨k, hnext⟩)
    · exact .inr (.inr ⟨i, rfl, hok, fun t => hstep ▸ exec_ne_next hok t⟩)

/-- R204: a halted block answers the state it is in. -/
theorem step_of_halt {s : State} (hh : s.halt = true) : step s = .next s := by
  simp [step, State.fetch, hh]

/-- Settles O51: a next state is that of a completed command or of fault entry. -/
theorem faultsArePrecise : Obligations.FaultsArePrecise := by
  unfold Obligations.FaultsArePrecise
  intro s t w hh hw h
  rcases step_presented_cases hh hw with ⟨u, hu, hc⟩ | ⟨k, hk⟩ | ⟨-, -, -, hstuck⟩
  · obtain rfl := Host.Outcome.next.inj (hu.symm.trans h)
    exact .inl hc
  · obtain rfl := Host.Outcome.next.inj (hk.symm.trans h)
    obtain ⟨hlow, hhigh⟩ := k.code_bounds
    exact .inr ⟨k.code, hlow, hhigh, raiseFault_faultTaken s k w⟩
  · exact absurd h (hstuck t)

/-- Settles O52: fault entry halts the block, and a halted block stays as it is. -/
theorem commandsSucceedOrAreViolations : Obligations.CommandsSucceedOrAreViolations := by
  unfold Obligations.CommandsSucceedOrAreViolations
  refine ⟨Cause.code_bounds, fun s w hh hw => ?_⟩
  rcases step_presented_cases hh hw with hc | ⟨k, hk⟩ | hstuck
  · exact .inl hc
  · exact .inr (.inl ⟨_, k, hk, raiseFault_faultTaken s k w, step_of_halt (s.raiseFault_halt k w)⟩)
  · exact .inr (.inr hstuck)

/-! ### The halted state -/

theorem hostPresent_of_halt {s : State} (w : Word) (hh : s.halt = true) : hostPresent w s = s := by
  simp [hostPresent, hh]

theorem hostReaches_iff (a : Nat) (s : State) : hostReaches a s = true ↔ memOK s.params a = true ∧ a < 2 ^ 32 := by
  rw [hostReaches, Bool.and_eq_true, decide_eq_true_eq]

/-- R37, R57, R207: the host reads every implemented byte of the address space. -/
theorem hostReadByte_of_memOK {s : State} {a : Nat} (hok : memOK s.params a = true) (ha : a < 2 ^ 32) :
    hostReadByte a s = some (s.mem.read a) := by
  rw [hostReadByte, if_pos ((hostReaches_iff a s).2 ⟨hok, ha⟩)]

/-- Settles O8: a halted block takes no word, one put into its list included, and the host's reads do not look at HALT. -/
theorem haltedBlockIgnoresWords : Obligations.HaltedBlockIgnoresWords := by
  unfold Obligations.HaltedBlockIgnoresWords
  intro s w hh
  exact ⟨hostPresent_of_halt w hh, step_of_halt hh, step_of_halt ((s.placeWord_halt w).trans hh),
    fun r => hostReadReg_reg r s, rfl, rfl, fun c => hostReadReg_context c s,
    fun _ hok ha => hostReadByte_of_memOK hok ha⟩

/-! ### The host's moves -/

/-- The invariant looks at neither the presented words nor the command index. -/
theorem hostPresent_keeps_inv (w : Word) {s : State} (hs : s.Inv) : (hostPresent w s).Inv := by
  unfold hostPresent
  split <;> exact hs

/-- A write of the host lists at most its own address, which it reaches only below 2^32 (R37). -/
theorem hostWriteByte_keeps_inv (a : Nat) (b : Byte) {s : State} (hs : s.Inv) : (hostWriteByte a b s).Inv := by
  unfold hostWriteByte
  split
  · next hreach =>
    obtain ⟨-, ha⟩ := (hostReaches_iff a s).1 hreach
    obtain ⟨hwf, hlt, hrecord, hctx⟩ := hs
    refine ⟨Memory.wf_write hwf a b, fun c hc => ?_, hrecord, hctx⟩
    rcases Memory.mem_write hc with rfl | hmem
    · exact ha
    · exact hlt c hmem
  · exact hs

@[simp] theorem hostReset_context (s : State) (c : CtxId) : (hostReset s).context c = Context.freed s.freeTick c := by
  simp [hostReset, State.context]

/-- Reset keeps memory, clears the fault record and leaves no filter (R220). -/
theorem hostReset_keeps_inv {s : State} (hs : s.Inv) : (hostReset s).Inv := by
  obtain ⟨hwf, hlt, -, -⟩ := hs
  have hrecord : (hostReset s).FaultRecordOk := ⟨rfl, rfl⟩
  refine ⟨hwf, hlt, hrecord, fun c => ?_⟩
  rw [hostReset_context]
  exact Context.freed_sound _ _ c

/-- Settles O58: one lemma for each move. -/
theorem hostKeepsInvariant : Obligations.HostKeepsInvariant := by
  unfold Obligations.HostKeepsInvariant
  intro m s hs
  cases m with
  | present w => exact hostPresent_keeps_inv w hs
  | writeByte a b => exact hostWriteByte_keeps_inv a b hs
  | reset => exact hostReset_keeps_inv hs

end Sys2Proof.Machine
end

section
/-! SUPPORT. Reset: the only way out of the halted state, what it clears, and the state a run starts from (60_exceptions R205,
70_reset_and_hazards R220 to R222). -/

namespace Sys2Proof.Machine

/-! ### Leaving the halted state -/

/-- R204, R221: no move of the host but reset touches HALT. -/
theorem hostMove_halt (s : State) {m : HostMove} (h : m ≠ .reset) : (hostMove m s).halt = s.halt := by
  cases m with
  | present w =>
    simp only [hostMove, hostPresent]
    split <;> rfl
  | writeByte a b =>
    simp only [hostMove, hostWriteByte]
    split <;> rfl
  | reset => exact absurd rfl h

/-- R220, R221: reset leaves no filter in any context. -/
theorem hostReset_context_valid (s : State) (c : CtxId) : ((hostReset s).context c).valid = false := by
  rw [hostReset_context]
  rfl

/-- Settles O9: a halted step answers its own state, and reset alone writes HALT. -/
theorem onlyResetLeavesHalt : Obligations.OnlyResetLeavesHalt := by
  unfold Obligations.OnlyResetLeavesHalt
  intro s hh
  refine ⟨fun t ht => ?_, fun m hm => (hostMove_halt s hm).trans hh, rfl, hostReset_context_valid s⟩
  obtain rfl := Host.Outcome.next.inj ((step_of_halt hh).symm.trans ht)
  exact hh

/-! ### What reset clears -/

/-- With the operand registers and the fault record 0 and no filter in any context, every number of the host port reads 0
(R25, R28, R31). -/
theorem hostReadReg_eq_zero {s : State} (hreg : ∀ r, s.reg r = 0) (hhalt : s.halt = false) (hcause : s.fcause = 0)
    (hcmd : s.fcmd = 0) (hvalid : ∀ c, (s.context c).valid = false) (n : Nat) : hostReadReg n s = 0 := by
  have hstatus : statusReg s = 0 := by simp [statusReg, bitAt, hhalt, hcause, hvalid]
  have hfcfg : ∀ c, fcfgReg (s.context c) = 0 := fun c => by simp [fcfgReg, hvalid]
  have hfmax : ∀ c, fmaxReg (s.context c) = 0 := fun c => by simp [fmaxReg, hvalid]
  simp only [hostReadReg, hreg, hstatus, hcmd, hfcfg, hfmax]
  split <;> rfl

@[simp] theorem State.reset_reg (r : Reg) : State.reset.reg r = 0 := by
  simp [State.reset, State.reg]

@[simp] theorem State.reset_context (c : CtxId) : State.reset.context c = Context.reset := by
  simp [State.reset, State.context]

/-- Reset sets the operand registers as they are in the reset state. -/
@[simp] theorem hostReset_reg (s : State) (r : Reg) : (hostReset s).reg r = 0 := by
  have hx : (hostReset s).x = State.reset.x := rfl
  rw [State.reg, hx]
  exact State.reset_reg r

/-- Settles O11: the host's registers read 0 because what they show is cleared; memory is no part of what reset writes. -/
theorem resetClearsAllButMemory : Obligations.ResetClearsAllButMemory := by
  unfold Obligations.ResetClearsAllButMemory
  intro s
  exact ⟨hostReadReg_eq_zero (hostReset_reg s) rfl rfl rfl (hostReset_context_valid s), hostReset_reg s,
    hostReset_context_valid s, rfl, rfl⟩

/-! ### The reset state -/

theorem State.reset_context_valid (c : CtxId) : (State.reset.context c).valid = false := by
  rw [State.reset_context]
  rfl

/-- R222: a block that takes no word is idle (log entry 1). -/
theorem step_of_fetch_none {s : State} (h : s.fetch = none) : step s = .next s := by
  simp [step, h]

/-- Settles O12: every register is cleared, and no word stands in the empty list. -/
theorem stateAfterReset : Obligations.StateAfterReset := by
  unfold Obligations.StateAfterReset
  have hidle : State.reset.fetch = none := rfl
  exact ⟨hostReadReg_eq_zero State.reset_reg rfl rfl rfl State.reset_context_valid, rfl, rfl, step_of_fetch_none hidle⟩

/-- A context without a filter and with its fields 0 meets R28 and needs no storage. -/
theorem Context.reset_sound (p : Params) : Context.reset.Sound p :=
  ⟨⟨rfl, rfl, rfl, rfl, rfl⟩, fun h => absurd h (by simp [Context.reset])⟩

/-- Settles O57: memory lists nothing, the fault record is clear and every context is a reset one. -/
theorem resetMeetsInvariant : Obligations.ResetMeetsInvariant := by
  unfold Obligations.ResetMeetsInvariant
  have hmem : ∀ c ∈ State.reset.mem, c.1 < 2 ^ 32 := List.forall_mem_nil _
  have hrecord : State.reset.FaultRecordOk := ⟨rfl, rfl⟩
  refine ⟨rfl, hmem, hrecord, fun c => ?_⟩
  rw [State.reset_context]
  exact Context.reset_sound _

end Sys2Proof.Machine
end
